-- ==== Sys2Proof/Word.lean ====
section
/-! DEFINITION. Words, the address type and their plainest arithmetic (00_scope.md rules R5, R10, R11).

A WORD is a natural number in `[0, 2^W)`, `W` being the width of the machine at hand (R5, R10): "every architectural
value is an unsigned integer". `W` is a parameter of the hardware, so the bound is not in the type; `Safety.WordsFit`
states it of every word the state holds. Words take part in exact integer arithmetic only (R11, R118: "a model needs `Nat`
and `Int`"); no rule shifts, masks or sign-extends one, and no operation of the model truncates a result of the engine, so
that a result that did not fit would show. -/

namespace Sys2Proof

/-- A word address on the host bus: the 16 lines `h_addr` (R60, R66). -/
abbrev Addr := BitVec 16

/-- The word that `width` data lines carry: the `width` low bits of `v` (R60, R10). -/
def lines (width v : Nat) : Nat := v % 2 ^ width

end Sys2Proof
end

