-- ==== Sys2Proof/Config.lean ====
section
/-! DEFINITION. The parameters an implementation of the MEE fixes (00_scope.md rules R5, R6, R7), and the free
values: what the spec leaves to the randomness source and to an unwritten buffer word. -/

namespace Sys2Proof

/-- The implementation parameters of R5, R6 and R7. `BASE` and `BUS_PROTOCOL` are OPEN and used by no rule. -/
structure Config where
  /-- `W`, the width in bits of every register, buffer word, bus and randomness port (R5). -/
  width : Nat
  /-- `BUFDEPTH`, the number of words of `BUF` (R6). -/
  bufDepth : Nat
  /-- `EFIX_RESET`, the reset value of `EFIX` (R7). -/
  efixReset : Nat
deriving DecidableEq, Repr

/-- The default parameters: `W = 32`, `BUFDEPTH = 256`, `EFIX_RESET = 65537` (the table of R7). -/
def Config.default : Config := { width := 32, bufDepth := 256, efixReset := 65537 }

/-- `HALF = 2^(W/2)`, the bound on primes for key generation (R5). -/
def Config.half (c : Config) : Nat := 2 ^ (c.width / 2)

/-- FREE VALUE (notes/assumptions/4.md): what the randomness source answers to its `k`-th unscripted request, before
it is brought into the requested range (R76, R116: a free value under no law but the range). -/
opaque Config.freeDraw : Nat → Nat

/-- FREE VALUE (notes/assumptions/3.md): what the `k`-th reading of never-written buffer words finds in word `i`
(R41: an arbitrary value, not promised equal on two reads). -/
opaque Config.unwrittenWord : Nat → Nat → Nat

end Sys2Proof
end

