-- ==== Sys2Proof/Syntax.lean ====
section
/-! DEFINITION. What can be said to the MEE: the ten commands (30_encoding.md rule R92), the host's bus transactions
(20_memory.md rule R60), the names of the registers (10_state.md), and the events that the model's script lists. -/

namespace Sys2Proof

/-- The ten commands of R92, one constructor per row of spec/opcode_table.json. A command has no operand fields:
its operands are registers and a prefix of `BUF` (R90, R93, R94). -/
inductive Instr where
  /-- `ISPRIME`, opcode 0x01 (R131). -/
  | isprime
  /-- `GENPRIME`, opcode 0x02 (R132). -/
  | genprime
  /-- `MODPOW`, opcode 0x03 (R135). -/
  | modpow
  /-- `MODINV`, opcode 0x04 (R138). -/
  | modinv
  /-- `ISPROOT`, opcode 0x10 (R152). -/
  | isproot
  /-- `FINDROOTS`, opcode 0x11 (R154). -/
  | findroots
  /-- `TRACE`, opcode 0x12 (R157). -/
  | trace
  /-- `GENKEY`, opcode 0x20 (R172). -/
  | genkey
  /-- `ENCRYPT`, opcode 0x21 (R178). -/
  | encrypt
  /-- `DECRYPT`, opcode 0x22 (R180). -/
  | decrypt
deriving DecidableEq, Repr

/-- One host bus transaction: a read or a write of one word at one word address (R60, R61, R62). -/
inductive Transaction where
  | read (addr : Addr)
  | write (addr : Addr) (data : Nat)
deriving DecidableEq, Repr

/-- The thirteen registers of the window, by the names of R20 and R30 to R39. -/
inductive Reg where
  | opa | opb | opc | res0 | res1 | res2
  | cmd | status | ctrl | errinfo | retrylim | efix | tries
deriving DecidableEq, Repr

/-- What a word address of the window denotes (the map of R66). -/
inductive Location where
  | reg (r : Reg)
  | buf (i : Nat)
  | unmapped
deriving DecidableEq, Repr

/-- What happens next, as the model's script lists it: which agent moves, and with what (R8, R9). -/
inductive Event where
  /-- The host performs this transaction (R60). -/
  | host (t : Transaction)
  /-- The engine takes its next step, if a command is running (R111). -/
  | engine
  /-- The host polls `STATUS` until `BUSY` reads 0, while the engine works (`WAIT` of R98). -/
  | wait
  /-- The host, which has read `RES0`, goes on to read `BUF[i]` for `i` in `0 .. RES0-1` (a loop of the host, R99). -/
  | readResults
  /-- The reset input is asserted and released (R230). -/
  | rst
deriving DecidableEq, Repr

end Sys2Proof
end

