-- ==== Sys2Proof/WellFormed.lean ====
section
/-! DEFINITION. Which parameters, transactions and events the spec admits. A command has no fields (30_encoding.md
rules R90, R93), so every term of `Instr` is well formed and there is nothing to check of one. -/

namespace Sys2Proof

/-- The constraints on the parameters: `W` even and at least 32 (R5), `1 <= BUFDEPTH <= 65280` (R6),
`EFIX_RESET < 2^W` (R7). -/
def Config.wellFormed (c : Config) : Bool :=
  c.width % 2 == 0 && decide (32 ≤ c.width) && decide (1 ≤ c.bufDepth) && decide (c.bufDepth ≤ 65280)
    && decide (c.efixReset < 2 ^ c.width)

/-- A transaction's data is one word of the machine's width (R60, R10). -/
def Transaction.wellFormed (c : Config) : Transaction → Bool
  | .read _ => true
  | .write _ data => decide (data < 2 ^ c.width)

/-- An event is well formed when its transaction is. -/
def Event.wellFormed (c : Config) : Event → Bool
  | .host t => t.wellFormed c
  | .engine => true
  | .wait => true
  | .readResults => true
  | .rst => true

end Sys2Proof
end

