-- ==== Sys2Proof/Decode.lean ====
section
/-! DEFINITION. The command word: decoder and encoder (30_encoding.md rules R90, R92, R96), and the listing form of a
bus transaction (R95). -/

namespace Sys2Proof

/-- Why a command word is none of the ten; both make it illegal (R96). -/
inductive DecodeError where
  /-- The `opcode` field is none of the ten opcodes. -/
  | undefinedOpcode
  /-- The `zero` field is not 0. -/
  | nonzeroField
deriving DecidableEq, Repr

/-- The `opcode` field, bits `[7:0]` of a command word (R90). -/
def opcodeField (w : Nat) : Nat := w % 256

/-- The `zero` field, bits `[W-1:8]` of a command word (R90). -/
def zeroField (w : Nat) : Nat := w / 256

/-- The opcode map of R92, read from opcode to command. -/
def instrOfOpcode : Nat → Option Instr
  | 0x01 => some .isprime
  | 0x02 => some .genprime
  | 0x03 => some .modpow
  | 0x04 => some .modinv
  | 0x10 => some .isproot
  | 0x11 => some .findroots
  | 0x12 => some .trace
  | 0x20 => some .genkey
  | 0x21 => some .encrypt
  | 0x22 => some .decrypt
  | _ => none

/-- The decoder: total on words, rejecting by name (R96). -/
def decode (w : Nat) : Except DecodeError Instr :=
  if zeroField w ≠ 0 then .error .nonzeroField
  else match instrOfOpcode (opcodeField w) with
    | some i => .ok i
    | none => .error .undefinedOpcode

/-- The opcode map of R92, read from command to opcode. -/
def opcodeOf : Instr → Nat
  | .isprime => 0x01
  | .genprime => 0x02
  | .modpow => 0x03
  | .modinv => 0x04
  | .isproot => 0x10
  | .findroots => 0x11
  | .trace => 0x12
  | .genkey => 0x20
  | .encrypt => 0x21
  | .decrypt => 0x22

/-- The encoder: the command word that selects a command is exactly `zext_W(opcode)` (R92). -/
def encode (i : Instr) : Nat := opcodeOf i

/-- The command my decoder reads from the `nbits` low bits of `w`, numbered as spec/opcode_table.json numbers them: a
command is one word, and every bit of it above `nbits` is 0 (R91). -/
def decodeTableWord (nbits w : Nat) : Option Instr :=
  match decode (lines nbits w) with
  | .ok i => some i
  | .error _ => none

/-- The listing form `{we, addr[15:0], wdata[W-1:0]}` of a transaction, `17 + W` bits; a read's `wdata` is written as
zeros (R95). -/
def encodeTransaction (width : Nat) : Transaction → Nat
  | .read addr => addr.toNat * 2 ^ width
  | .write addr data => (2 ^ 16 + addr.toNat) * 2 ^ width + data

/-- The transaction a listing of `17 + W` bits stands for; a read's `wdata` is ignored (R95). -/
def decodeTransaction (width : Nat) (bits : Nat) : Option Transaction :=
  let addr : Addr := BitVec.ofNat 16 (bits / 2 ^ width)
  if bits / 2 ^ width < 2 ^ 16 then some (.read addr)
  else if bits / 2 ^ width < 2 ^ 17 then some (.write addr (bits % 2 ^ width))
  else none

end Sys2Proof
end

