-- ==== Sys2Proof/Machine/State.lean ====
section
/-! DEFINITION. Everything the machine remembers (10_state.md), the reasons a step can stop, and the state after
reset (10_state.md rule R50). -/

namespace Sys2Proof.Machine

/-- The error codes 0 to 8 of R200; the codes 9 to 15 are never produced, so they are no constructors (U10). -/
inductive ErrCode where
  | none | noInverse | msgTooLarge | timeout | keygen | operand | notPrime | aborted | illegal
deriving DecidableEq, Repr

/-- The five operand checks that `ERR_OPERAND` reports (R201). -/
inductive OperandCheck where
  /-- `lo <= hi` failed. -/
  | emptyRange
  /-- the modulus is 0. -/
  | zeroModulus
  /-- `count <= BUFDEPTH` failed. -/
  | countTooLarge
  /-- `n - 1 <= BUFDEPTH` failed. -/
  | modulusTooLarge
  /-- `hi < HALF` failed. -/
  | rangeTooLarge
deriving DecidableEq, Repr

/-- An error a command raises, with what its `ERRINFO` records (R200): `raise <Error>(info)` of R11. -/
inductive CmdError where
  | noInverse (gcd : Nat)
  | msgTooLarge (index : Nat)
  | timeout
  | keygen
  | operand (check : OperandCheck)
  | notPrime
  | aborted
  | illegal (word : Nat)
deriving DecidableEq, Repr

/-- The hidden phase of a running `GENKEY`, with the primes and the totient found so far (R46, R173). -/
inductive KeyPhase where
  /-- Phase `P`: drawing the first prime. -/
  | p
  /-- Phase `Q`: `p` is found, drawing the second prime. -/
  | q (p : Nat)
  /-- Phase `E`: `p`, `q` and `phi` are found, drawing the public exponent. -/
  | e (p q phi : Nat)
deriving DecidableEq, Repr

/-- The randomness source, as the model's environment (R8, R76, R116). -/
inductive Source where
  /-- It answers every request with a free value of the requested range. -/
  | free
  /-- It answers the next requests with these values, in order, and then answers no more (U8). -/
  | scripted (answers : List Nat)
deriving DecidableEq, Repr

/-- The buffer `BUF` (R40): the words that have been written since reset, each with its index, indices strictly
rising. A word that is not listed carries the mark "unwritten" of R41 and U6. -/
structure Memory where
  cells : List (Nat × Nat)
deriving DecidableEq, Repr

/-- The canonical form of a memory: indices strictly rising, hence none twice. -/
abbrev Memory.wf (m : Memory) : Prop := (m.cells.map Prod.fst).Pairwise (· < ·)

/-- The state: what 10_state.md gives the machine, then the model's own fields. -/
structure State where
  /-- `OPA`, `x[0]` (R20). -/
  opa : Nat
  /-- `OPB`, `x[1]` (R20). -/
  opb : Nat
  /-- `OPC`, `x[2]` (R20). -/
  opc : Nat
  /-- `RES0`, `x[3]` (R20). -/
  res0 : Nat
  /-- `RES1`, `x[4]` (R20). -/
  res1 : Nat
  /-- `RES2`, `x[5]` (R20). -/
  res2 : Nat
  /-- `CMD`, the last accepted command word (R30). -/
  cmd : Nat
  /-- `STATUS.BUSY` (R31, R32). -/
  busy : Bool
  /-- `STATUS.DONE` (R31, R33). -/
  done : Bool
  /-- `STATUS.ACCERR` (R31, R35). -/
  accerr : Bool
  /-- `STATUS.ERRCODE` (R31, R34); `STATUS.ERR` is computed from it. -/
  errcode : ErrCode
  /-- `CTRL.IE` (R36); `CTRL.ABORT` is not storage. -/
  ie : Bool
  /-- `ERRINFO` (R39). -/
  errinfo : Nat
  /-- `RETRYLIM` (R38). -/
  retrylim : Nat
  /-- `EFIX` (R37). -/
  efix : Nat
  /-- `TRIES` (R38). -/
  tries : Nat
  /-- `BUF` (R40). -/
  buf : Memory
  /-- `ABORTREQ`, hidden (R45). -/
  abortreq : Bool
  /-- The hidden phase of a running `GENKEY`; `none` when none is held (R46). -/
  genkey : Option KeyPhase
  /-- `h_rdata`: what the last host read returned (R60, R61). -/
  hRdata : Nat
  /-- MODEL: the parameters this machine was built with; no step changes them (R5, R6, R7). -/
  cfg : Config
  /-- MODEL: the events still to come, in order (R8, R9); when there is none, the engine moves. -/
  script : List Event
  /-- MODEL: the randomness source (R8, R76). -/
  source : Source
  /-- MODEL: `r_req` with `(r_lo, r_hi)`: a draw request the source has withheld its answer to (R76, U8). -/
  outstanding : Option (Nat × Nat)
  /-- MODEL: how many free values have been used. -/
  freeCount : Nat
deriving DecidableEq, Repr

/-- Why a step could fault. There is no constructor: the spec knows no fault that stops the machine. An error of a
command is a completion code (R200, R206), an access error is the flag `ACCERR` (R214), and both are next states. -/
inductive Fault where
deriving DecidableEq, Repr

/-- Why a step is refused. -/
inductive Refusal where
  /-- Raised by an arm of `exec` for a command that has no meaning yet, by its mnemonic; no arm does. Safe. -/
  | notModelled (mnemonic : String)
  /-- Raised by a draw step when the scripted source answers outside the requested range: the spec gives the command
  no meaning then (R76, U7). Safe: the hardware goes on in a way the spec does not describe. -/
  | drawOutOfRange
deriving DecidableEq, Repr

/-- The state right after reset of a machine with the parameters `c` (R50, R230), with nothing scripted. -/
def State.resetFor (c : Config) : State where
  opa := 0
  opb := 0
  opc := 0
  res0 := 0
  res1 := 0
  res2 := 0
  cmd := 0
  busy := false
  done := false
  accerr := false
  errcode := .none
  ie := false
  errinfo := 0
  retrylim := 0
  efix := c.efixReset
  tries := 0
  buf := { cells := [] }
  abortreq := false
  genkey := none
  hRdata := 0
  cfg := c
  script := []
  source := .free
  outstanding := none
  freeCount := 0

/-- The machine right after reset, with the default parameters (R50, R7). -/
def State.reset : State := State.resetFor Config.default

end Sys2Proof.Machine
end

