-- ==== Sys2Proof/Machine/Arith.lean ====
section
/-! DEFINITION. The functions of the document that the commands compute (rules R130, R134, R137, R139, R150, R153,
R156), as functions that can be evaluated, on exact integers (R11, R118). -/

namespace Sys2Proof.Machine

/-- Trial division by `d`, `d + 2`, `d + 4`, .. while the square of the divisor is at most `n` (R130). -/
def noDivisorFrom (n : Nat) : (fuel d : Nat) → Bool
  | 0, _ => true
  | fuel + 1, d =>
    if d * d ≤ n then
      if n % d = 0 then false else noDivisorFrom n fuel (d + 2)
    else true

/-- `is_prime(n)` (R130). -/
def isPrime (n : Nat) : Bool :=
  if n < 2 then false
  else if n = 2 then true
  else if n % 2 = 0 then false
  else noDivisorFrom n n 3

/-- The loop of R136 on `(r, s, k)`: multiply by `s` where the low bit of `k` is set, square `s`, halve `k`. -/
def squareMultiply (m : Nat) : (fuel r s k : Nat) → Nat
  | 0, r, _, _ => r
  | fuel + 1, r, s, k =>
    if k = 0 then r
    else squareMultiply m fuel (if k % 2 = 1 then r * s % m else r) (s * s % m) (k / 2)

/-- `mod_pow(b, e, m)` by repeated squaring (R134, R136). -/
def modPow (b e m : Nat) : Nat := squareMultiply m e (1 % m) (b % m) e

/-- The loop of R137 on `(r0, r1, t0, t1)`; the answer is the final `(r0, t0)`. -/
def euclid : (fuel r0 r1 : Nat) → (t0 t1 : Int) → Nat × Int
  | 0, r0, _, t0, _ => (r0, t0)
  | fuel + 1, r0, r1, t0, t1 =>
    if r1 = 0 then (r0, t0)
    else euclid fuel r1 (r0 - r0 / r1 * r1) t1 (t0 - ((r0 / r1 : Nat) : Int) * t1)

/-- The extended Euclidean algorithm of R137 run on `(a, m)`: its first component is `gcd(a, m)` (R139). -/
def bezout (a m : Nat) : Nat × Int := euclid (a % m + 1) m (a % m) 0 1

/-- `mod_inverse(a, m)` where it exists: `t0 mod m` (R137). -/
def modInverse (a m : Nat) : Nat := ((bezout a m).2 % (m : Int)).toNat

/-- The set `{v*g mod n, v*g^2 mod n, ..}` of `count` successive powers, added to `seen`. A set of numbers is held as
the number whose bit `i` is set exactly for the members `i`. -/
def powerSet (g n : Nat) : (count v seen : Nat) → Nat
  | 0, _, seen => seen
  | count + 1, v, seen => powerSet g n count (v * g % n) (seen ||| 1 <<< (v * g % n))

/-- The set `{1, 2, .., n-1}` as a number. -/
def allResidues (n : Nat) : Nat := 2 ^ n - 2

/-- `is_primitive_root(g, n)`: the set of the powers `g^1 .. g^(n-1)` modulo `n` is `{1, .., n-1}` (R150). -/
def isPrimitiveRoot (g n : Nat) : Bool := powerSet g n (n - 1) 1 0 == allResidues n

/-- `find_primitive_roots(n)`: the primitive roots among `1, 2, .., n-1`, in that order (R153). -/
def findPrimitiveRoots (n : Nat) : List Nat := (List.range' 1 (n - 1)).filter (fun g => isPrimitiveRoot g n)

/-- The loop of R156: at most `count` further powers after `v`, ending with the first that is 1. -/
def traceFrom (g n : Nat) : (count v : Nat) → List Nat
  | 0, _ => []
  | count + 1, v => (v * g % n) :: (if v * g % n = 1 then [] else traceFrom g n count (v * g % n))

/-- `trace(g, n)` (R156). -/
def powerTrace (g n : Nat) : List Nat := traceFrom g n (n - 1) 1

end Sys2Proof.Machine
end

