-- ==== Sys2Proof/Machine/Flags.lean ====
section
/-! DEFINITION. The numbers of the errors, the words `STATUS` and `CTRL` as a host reads them, and the interrupt
output (rules R31, R36, R200, R201, R208). -/

namespace Sys2Proof.Machine

/-- The value of `STATUS.ERRCODE` for an error (R200). -/
def codeNumber : ErrCode → Nat
  | .none => 0
  | .noInverse => 1
  | .msgTooLarge => 2
  | .timeout => 3
  | .keygen => 4
  | .operand => 5
  | .notPrime => 6
  | .aborted => 7
  | .illegal => 8

/-- The number of a failed operand check (R201). -/
def checkNumber : OperandCheck → Nat
  | .emptyRange => 1
  | .zeroModulus => 2
  | .countTooLarge => 3
  | .modulusTooLarge => 4
  | .rangeTooLarge => 5

/-- The code of an error (R200). -/
def errorCode : CmdError → ErrCode
  | .noInverse _ => .noInverse
  | .msgTooLarge _ => .msgTooLarge
  | .timeout => .timeout
  | .keygen => .keygen
  | .operand _ => .operand
  | .notPrime => .notPrime
  | .aborted => .aborted
  | .illegal _ => .illegal

/-- What `ERRINFO` records of an error (R200, R201). -/
def errorInfo : CmdError → Nat
  | .noInverse gcd => gcd
  | .msgTooLarge index => index
  | .timeout => 0
  | .keygen => 0
  | .operand check => checkNumber check
  | .notPrime => 0
  | .aborted => 0
  | .illegal word => word

/-- `STATUS.ERR` is not storage: 1 exactly when `ERRCODE != 0` (R31, R34). -/
def errFlag (s : State) : Bool := s.errcode != .none

/-- The word a read of `STATUS` returns: `BUSY` bit 0, `DONE` bit 1, `ERR` bit 2, `ACCERR` bit 3, `ERRCODE` bits 11:8,
every other bit 0 (R31). -/
def statusWord (s : State) : Nat :=
  s.busy.toNat + 2 * s.done.toNat + 4 * (errFlag s).toNat + 8 * s.accerr.toNat + 256 * codeNumber s.errcode

/-- The word a read of `CTRL` returns: bit 0 is `IE`, every other bit 0 (R36, R61). -/
def ctrlWord (s : State) : Nat := s.ie.toNat

/-- The interrupt output, a level: `STATUS.DONE and CTRL.IE` (R47, R208). -/
def irq (s : State) : Bool := s.done && s.ie

end Sys2Proof.Machine
end

