-- ==== Sys2Proof/Machine/Ops.lean ====
section
/-! DEFINITION. The operations the meanings share: the buffer, starting a command, its two completions (the error
completion is what this machine has in place of taking an exception) and the draw (10_state.md, 40_execution_model.md). -/

namespace Sys2Proof.Machine

/-! ### The buffer -/

/-- The word listed for index `i`, if any. -/
def findCell : List (Nat × Nat) → Nat → Option Nat
  | [], _ => none
  | (j, w) :: rest, i => if i = j then some w else findCell rest i

/-- The cells with `v` listed for index `i`, in rising order. -/
def putCell : List (Nat × Nat) → Nat → Nat → List (Nat × Nat)
  | [], i, v => [(i, v)]
  | (j, w) :: rest, i, v =>
    if i < j then (i, v) :: (j, w) :: rest
    else if i = j then (i, v) :: rest
    else (j, w) :: putCell rest i v

/-- `BUF[i]`: what was last written to it, or `none`, the mark "unwritten" (R40, R41, U6). -/
def bufAt (m : Memory) (i : Nat) : Option Nat := findCell m.cells i

/-- `BUF[i] <- v` (R40). -/
def bufPut (m : Memory) (i : Nat) (v : Nat) : Memory := { cells := putCell m.cells i v }

/-- `BUF[i] <- v0`, `BUF[i+1] <- v1`, .. (R71: the engine's index runs upward). -/
def bufPutFrom (m : Memory) : (i : Nat) → List Nat → Memory
  | _, [] => m
  | i, v :: vs => bufPutFrom (bufPut m i v) (i + 1) vs

/-- The arbitrary word that reading the unwritten `BUF[i]` returns now: a free value on `W` lines (R41). -/
def unwrittenNow (s : State) (i : Nat) : Nat := lines s.cfg.width (Config.unwrittenWord s.freeCount i)

/-- The word that reading `BUF[i]` returns now (R40, R41). -/
def bufRead (s : State) (i : Nat) : Nat := (bufAt s.buf i).getD (unwrittenNow s i)

/-- The state after words of `BUF` were read: a new free value is due where one was unwritten (R41: two reads are not
promised equal). -/
def afterReading (allWritten : Bool) (s : State) : State :=
  if allWritten then s else { s with freeCount := s.freeCount + 1 }

/-! ### Start and end of a command -/

/-- What an accepted write of `c` to `CMD` does, all in one transaction (R110). -/
def startCommand (c : Nat) (s : State) : State :=
  { s with cmd := c, busy := true, done := false, errcode := .none, errinfo := 0, tries := 0, abortreq := false }

/-- Success completion `complete(r0, r1, r2)` (R113); the hidden phase of `GENKEY` is discarded (R173). -/
def complete (r0 r1 r2 : Nat) (s : State) : State :=
  { s with res0 := r0, res1 := r1, res2 := r2, busy := false, done := true, abortreq := false, genkey := none }

/-- Success completion that also writes `words` to `BUF[0]`, `BUF[1]`, .. in the same step (R113, R71). -/
def completeWriting (r0 r1 r2 : Nat) (words : List Nat) (s : State) : State :=
  complete r0 r1 r2 { s with buf := bufPutFrom s.buf 0 words }

/-- Error completion `raise E(info)` (R114, R206): it saves the code and the detail, and nothing else but `BUSY`,
`DONE` and `ABORTREQ` changes; the hidden phase of `GENKEY` is discarded (R173). -/
def raiseError (e : CmdError) (s : State) : State :=
  { s with
    errcode := errorCode e, errinfo := errorInfo e, busy := false, done := true, abortreq := false, genkey := none }

/-- What stands in place of a return from an exception: the host's write of `v` to `STATUS` clears `DONE` where bit 1
is written 1 and `ACCERR` where bit 3 is written 1 (R31, R207). -/
def acknowledge (v : Nat) (s : State) : State :=
  { s with done := s.done && !v.testBit 1, accerr := s.accerr && !v.testBit 3 }

/-! ### Draws -/

/-- `TRIES <- TRIES + 1`, saturating at `2^W - 1`; the request is answered (R38, R116). -/
def countDraw (s : State) : State :=
  { s with tries := min (s.tries + 1) (2 ^ s.cfg.width - 1), outstanding := none }

/-- The free value of `[lo, hi]` that an unscripted source answers now (R76, R116); a range of one value has only that
one, and no free value is needed to say it. -/
def freeAnswer (lo hi : Nat) (s : State) : Nat :=
  if hi ≤ lo then lo else lo + Config.freeDraw s.freeCount % (hi - lo + 1)

/-- What comes of the pre-draw check and the draw after it. -/
inductive DrawResult where
  /-- The source answered `v`. -/
  | drew (v : Nat) (s : State)
  /-- The engine's step is over: the pre-draw check raised an error, or the source withholds its answer. -/
  | stopped (s : State)
  /-- The source answered outside the range (U7). -/
  | outOfRange
deriving DecidableEq, Repr

/-- The pre-draw check of R117, then `Draw(lo, hi)` of R116. While a request is outstanding the check is not made
again: an abort is looked at only before a request (R76). -/
def draw (lo hi : Nat) (s : State) : DrawResult :=
  if s.outstanding = none ∧ s.abortreq = true then .stopped (raiseError .aborted s)
  else if s.outstanding = none ∧ s.retrylim ≠ 0 ∧ s.tries = s.retrylim then .stopped (raiseError .timeout s)
  else match s.source with
    | .free => .drew (freeAnswer lo hi s) (countDraw { s with freeCount := s.freeCount + 1 })
    | .scripted [] => .stopped { s with outstanding := some (lo, hi) }
    | .scripted (v :: rest) =>
      if lo ≤ v ∧ v ≤ hi then .drew v (countDraw { s with source := .scripted rest }) else .outOfRange

end Sys2Proof.Machine
end

