-- ==== Sys2Proof/Machine/Operands.lean ====
section
/-! DEFINITION. Where a command finds its operands (30_encoding.md rule R94): the operand registers, and a prefix of
`BUF`. A command reads nothing else but `EFIX` and `RETRYLIM`. -/

namespace Sys2Proof.Machine

/-- The data register `x[i]`; the names `OPA` .. `RES2` are aliases of `x[0]` .. `x[5]` (R20). -/
def dataReg (s : State) : Fin 6 → Nat
  | 0 => s.opa
  | 1 => s.opb
  | 2 => s.opc
  | 3 => s.res0
  | 4 => s.res1
  | 5 => s.res2

/-- Operand A, `x[0]`: `n`, `lo`, `base`, `a`, `g` or `count` (R94). -/
def operandA (s : State) : Nat := dataReg s 0

/-- Operand B, `x[1]`: `hi` or the exponent (R94). -/
def operandB (s : State) : Nat := dataReg s 1

/-- Operand C, `x[2]`: the modulus (R94). -/
def operandC (s : State) : Nat := dataReg s 2

/-- The words `BUF[0 .. count-1]` (R71, R94). -/
def bufPrefix (s : State) (count : Nat) : List Nat := (List.range count).map (bufRead s)

/-- Whether every word of `BUF[0 .. count-1]` has been written since reset (U6). -/
def prefixWritten (s : State) (count : Nat) : Bool := (List.range count).all (fun i => (bufAt s.buf i).isSome)

end Sys2Proof.Machine
end

