-- ==== Sys2Proof/Machine/Bus.lean ====
section
/-! DEFINITION. The register window: the address map, host reads and host writes (20_memory.md rules R61 to R67). -/

namespace Sys2Proof.Machine

/-- The word address of a register (R20, R66). -/
def regAddr : Reg → Addr
  | .opa => 0x0000
  | .opb => 0x0001
  | .opc => 0x0002
  | .res0 => 0x0003
  | .res1 => 0x0004
  | .res2 => 0x0005
  | .cmd => 0x0008
  | .status => 0x0009
  | .ctrl => 0x000A
  | .errinfo => 0x000B
  | .retrylim => 0x000C
  | .efix => 0x000D
  | .tries => 0x000E

/-- The word address of `BUF[i]`, `0x0100 + i` (R40, R66). The spec has no `BUF[i]` for `i >= BUFDEPTH`; DESIGN CHOICE
(notes/assumptions/17.md): there this is `0x0100 + i` on the 16 address lines, which is unmapped up to `0xFFFF` and from
`i = 65280` on begins again at `0x0000`. -/
def bufAddr (i : Nat) : Addr := BitVec.ofNat 16 (0x0100 + i)

/-- The register at a word index of the window, if one is mapped there (R66). -/
def regAt : Nat → Option Reg
  | 0x00 => some .opa
  | 0x01 => some .opb
  | 0x02 => some .opc
  | 0x03 => some .res0
  | 0x04 => some .res1
  | 0x05 => some .res2
  | 0x08 => some .cmd
  | 0x09 => some .status
  | 0x0A => some .ctrl
  | 0x0B => some .errinfo
  | 0x0C => some .retrylim
  | 0x0D => some .efix
  | 0x0E => some .tries
  | _ => none

/-- What a word address denotes in a machine with the parameters `c` (R66). -/
def locate (c : Config) (a : Addr) : Location :=
  if 0x0100 ≤ a.toNat ∧ a.toNat < 0x0100 + c.bufDepth then .buf (a.toNat - 0x0100)
  else match regAt a.toNat with
    | some r => .reg r
    | none => .unmapped

/-- `STATUS.ACCERR <- 1`: a host access was dropped or refused (R35). -/
def accessError (s : State) : State := { s with accerr := true }

/-- The value a host read of a register returns (R61). -/
def regValue (s : State) : Reg → Nat
  | .opa => dataReg s 0
  | .opb => dataReg s 1
  | .opc => dataReg s 2
  | .res0 => dataReg s 3
  | .res1 => dataReg s 4
  | .res2 => dataReg s 5
  | .cmd => s.cmd
  | .status => statusWord s
  | .ctrl => ctrlWord s
  | .errinfo => s.errinfo
  | .retrylim => s.retrylim
  | .efix => s.efix
  | .tries => s.tries

/-- `MemRead(addr, 1)`: the value returned stands on `h_rdata` (R61, R64, R67). -/
def busRead (a : Addr) (s : State) : State :=
  match locate s.cfg a with
  | .reg r => { s with hRdata := regValue s r }
  | .buf i =>
    if s.busy then accessError { s with hRdata := 0 }
    else afterReading (bufAt s.buf i).isSome { s with hRdata := bufRead s i }
  | .unmapped => accessError { s with hRdata := 0 }

/-- A write that is dropped while a command runs: the busy lock (R64). -/
def unlessBusy (write : State → State) (s : State) : State := if s.busy then accessError s else write s

/-- What a host write of `v` to `CTRL` does: `IE <- v[0]`; an abort request where bit 1 is written 1 while a command
runs (R36, R212). -/
def writeCtrl (v : Nat) (s : State) : State :=
  { s with ie := v.testBit 0, abortreq := s.abortreq || (v.testBit 1 && s.busy) }

/-- What a host write of `v` to a register does (R62, R65). -/
def regWrite (v : Nat) : Reg → State → State
  | .opa => unlessBusy (fun s => { s with opa := v })
  | .opb => unlessBusy (fun s => { s with opb := v })
  | .opc => unlessBusy (fun s => { s with opc := v })
  | .res0 => accessError
  | .res1 => accessError
  | .res2 => accessError
  | .cmd => unlessBusy (startCommand v)
  | .status => acknowledge v
  | .ctrl => writeCtrl v
  | .errinfo => accessError
  | .retrylim => unlessBusy (fun s => { s with retrylim := v })
  | .efix => unlessBusy (fun s => { s with efix := v })
  | .tries => accessError

/-- `MemWrite(addr, 1, v)`, for the `v` on the `W` lines of `h_wdata` (R62, R64, R65, R67). -/
def busWrite (a : Addr) (v : Nat) (s : State) : State :=
  match locate s.cfg a with
  | .reg r => regWrite v r s
  | .buf i => unlessBusy (fun s => { s with buf := bufPut s.buf i v }) s
  | .unmapped => accessError s

/-- One host bus transaction, atomic and always answered (R60, R70). -/
def busTransaction (s : State) : Transaction → State
  | .read a => busRead a s
  | .write a v => busWrite a (lines s.cfg.width v) s

end Sys2Proof.Machine
end

