-- ==== Sys2Proof/Machine/NumberTheory.lean ====
section
/-! DEFINITION. The Number Theory Utilities: `ISPRIME`, `GENPRIME`, `MODPOW`, `MODINV` (41_number_theory.md). Each
definition is one engine step of the running command (R111). -/

namespace Sys2Proof.Machine

/-- `ISPRIME` (R131). -/
def execIsprime (s : State) : Host.Outcome State Fault Refusal :=
  .next (complete (isPrime (operandA s)).toNat 0 0 s)

/-- `GENPRIME`: one iteration of the loop of R132, with the range check before it. The check stands at every iteration:
the busy lock keeps its operands as they were at the first (R21). -/
def execGenprime (s : State) : Host.Outcome State Fault Refusal :=
  if operandA s > operandB s then .next (raiseError (.operand .emptyRange) s)
  else match draw (operandA s) (operandB s) s with
    | .drew v t => .next (if isPrime v then complete v 0 0 t else t)
    | .stopped t => .next t
    | .outOfRange => .refused .drawOutOfRange

/-- `MODPOW` (R135). -/
def execModpow (s : State) : Host.Outcome State Fault Refusal :=
  if operandC s = 0 then .next (raiseError (.operand .zeroModulus) s)
  else .next (complete (modPow (operandA s) (operandB s) (operandC s)) 0 0 s)

/-- `MODINV` (R138). -/
def execModinv (s : State) : Host.Outcome State Fault Refusal :=
  if operandC s = 0 then .next (raiseError (.operand .zeroModulus) s)
  else if Nat.gcd (operandA s) (operandC s) ≠ 1 then
    .next (raiseError (.noInverse (Nat.gcd (operandA s) (operandC s))) s)
  else .next (complete (modInverse (operandA s) (operandC s)) 0 0 s)

end Sys2Proof.Machine
end

