-- ==== Sys2Proof/Machine/PrimitiveRoot.lean ====
section
/-! DEFINITION. The Primitive Root Analyzer: `ISPROOT`, `FINDROOTS`, `TRACE` (42_primitive_root.md). Each definition is
the command's one engine step (R111). -/

namespace Sys2Proof.Machine

/-- `ISPROOT` (R151, R152). -/
def execIsproot (s : State) : Host.Outcome State Fault Refusal :=
  if isPrime (operandC s) = false then .next (raiseError .notPrime s)
  else .next (complete (isPrimitiveRoot (operandA s) (operandC s)).toNat 0 0 s)

/-- `FINDROOTS` (R151, R154). -/
def execFindroots (s : State) : Host.Outcome State Fault Refusal :=
  if isPrime (operandC s) = false then .next (raiseError .notPrime s)
  else if operandC s - 1 > s.cfg.bufDepth then .next (raiseError (.operand .modulusTooLarge) s)
  else .next (completeWriting (findPrimitiveRoots (operandC s)).length 0 0 (findPrimitiveRoots (operandC s)) s)

/-- `TRACE` (R151, R157). -/
def execTrace (s : State) : Host.Outcome State Fault Refusal :=
  if isPrime (operandC s) = false then .next (raiseError .notPrime s)
  else if operandC s - 1 > s.cfg.bufDepth then .next (raiseError (.operand .modulusTooLarge) s)
  else .next (completeWriting (powerTrace (operandA s) (operandC s)).length
    (isPrimitiveRoot (operandA s) (operandC s)).toNat 0 (powerTrace (operandA s) (operandC s)) s)

end Sys2Proof.Machine
end

