-- ==== Sys2Proof/Machine/Rsa.lean ====
section
/-! DEFINITION. The RSA Engine: `GENKEY`, `ENCRYPT`, `DECRYPT` (43_rsa.md). -/

namespace Sys2Proof.Machine

/-- The end of a key generation: `d = mod_inverse(e, phi)`, `complete(e, d, n)` (R172). -/
def finishKey (e n phi : Nat) (s : State) : State := complete e (modInverse e phi) n s

/-- Phase `P` has drawn `v` (R173): it is the first prime, or the phase goes on. -/
def afterFirstDraw (v : Nat) (s : State) : State :=
  if isPrime v then { s with genkey := some (.q v) } else { s with genkey := some .p }

/-- What follows the two primes: `EFIX` where it is coprime to `phi`, no key where no exponent exists, else phase `E`
(R173, R174). -/
def choosePublicExponent (p q : Nat) (s : State) : State :=
  if Nat.gcd s.efix ((p - 1) * (q - 1)) = 1 then finishKey s.efix (p * q) ((p - 1) * (q - 1)) s
  else if (p - 1) * (q - 1) < 3 then raiseError .keygen s
  else { s with genkey := some (.e p q ((p - 1) * (q - 1))) }

/-- Phase `Q` has drawn `v` (R173): it is the second prime, different from `p`, or the phase goes on. -/
def afterSecondDraw (p v : Nat) (s : State) : State :=
  if isPrime v = true ∧ v ≠ p then choosePublicExponent p v s else s

/-- Phase `E` has drawn `v` (R173): it is the public exponent, or the phase goes on. -/
def afterExponentDraw (p q phi v : Nat) (s : State) : State :=
  if Nat.gcd v phi = 1 then finishKey v (p * q) phi s else s

/-- One iteration of a loop of `GENKEY`: a draw, and what the phase does with the value (R111, R173). -/
def keyStep (lo hi : Nat) (accept : Nat → State → State) (s : State) : Host.Outcome State Fault Refusal :=
  match draw lo hi s with
  | .drew v t => .next (accept v t)
  | .stopped t => .next t
  | .outOfRange => .refused .drawOutOfRange

/-- `GENKEY`: one engine step (R172, R173). No phase is held before the first step, which makes the operand checks. -/
def execGenkey (s : State) : Host.Outcome State Fault Refusal :=
  match s.genkey with
  | none =>
    if operandA s > operandB s then .next (raiseError (.operand .emptyRange) s)
    else if operandB s ≥ s.cfg.half then .next (raiseError (.operand .rangeTooLarge) s)
    else keyStep (operandA s) (operandB s) afterFirstDraw s
  | some .p => keyStep (operandA s) (operandB s) afterFirstDraw s
  | some (.q p) => keyStep (operandA s) (operandB s) (afterSecondDraw p) s
  | some (.e p q phi) => keyStep 2 (phi - 1) (afterExponentDraw p q phi) s

/-- The lowest index of a message word that is not below `n` (R178). -/
def firstTooLarge (message : List Nat) (n : Nat) : Option Nat := message.findIdx? (fun m => decide (n ≤ m))

/-- `ENCRYPT`: the check pass over the message, then the transform pass (R178, R179). -/
def execEncrypt (s : State) : Host.Outcome State Fault Refusal :=
  if operandC s = 0 then .next (raiseError (.operand .zeroModulus) s)
  else if operandA s > s.cfg.bufDepth then .next (raiseError (.operand .countTooLarge) s)
  else match firstTooLarge (bufPrefix s (operandA s)) (operandC s) with
    | some i => .next (raiseError (.msgTooLarge i) (afterReading (prefixWritten s (operandA s)) s))
    | none => .next (completeWriting (operandA s) 0 0
        ((bufPrefix s (operandA s)).map (fun m => modPow m (operandB s) (operandC s)))
        (afterReading (prefixWritten s (operandA s)) s))

/-- `DECRYPT`: the transform pass, with no check of the ciphertext (R180). -/
def execDecrypt (s : State) : Host.Outcome State Fault Refusal :=
  if operandC s = 0 then .next (raiseError (.operand .zeroModulus) s)
  else if operandA s > s.cfg.bufDepth then .next (raiseError (.operand .countTooLarge) s)
  else .next (completeWriting (operandA s) 0 0
    ((bufPrefix s (operandA s)).map (fun c => modPow c (operandB s) (operandC s)))
    (afterReading (prefixWritten s (operandA s)) s))

end Sys2Proof.Machine
end

