-- ==== Sys2Proof/Machine/Dispatch.lean ====
section
/-! DEFINITION. Which meaning a command has: one engine step of it (40_execution_model.md rule R111). -/

namespace Sys2Proof.Machine

def exec (i : Instr) (s : State) : Host.Outcome State Fault Refusal :=
  match i with
  | .isprime => Sys2Proof.Machine.execIsprime s
  | .genprime => Sys2Proof.Machine.execGenprime s
  | .modpow => Sys2Proof.Machine.execModpow s
  | .modinv => Sys2Proof.Machine.execModinv s
  | .isproot => Sys2Proof.Machine.execIsproot s
  | .findroots => Sys2Proof.Machine.execFindroots s
  | .trace => Sys2Proof.Machine.execTrace s
  | .genkey => Sys2Proof.Machine.execGenkey s
  | .encrypt => Sys2Proof.Machine.execEncrypt s
  | .decrypt => Sys2Proof.Machine.execDecrypt s

end Sys2Proof.Machine
end

