-- ==== Sys2Proof/Machine/Engine.lean ====
section
/-! DEFINITION. The engine's step, reset, and the next event of the script (00_scope.md rules R8, R9;
40_execution_model.md rules R111, R112; 70_reset_and_hazards.md rule R230). -/

namespace Sys2Proof.Machine

/-- One engine step (R111, R112): decode `CMD`, then the command; an illegal word's only step raises `ERR_ILLEGAL`
(R96). The engine takes no step when no command is running. -/
def engineStep (s : State) : Host.Outcome State Fault Refusal :=
  if s.busy then
    match decode s.cmd with
    | .ok i => exec i s
    | .error _ => .next (raiseError (.illegal s.cmd) s)
  else .next s

/-- Assertion of `rst`: every piece of the machine's state takes its reset value (R50, R51, R230). The environment (what
it has still to do, its randomness source, what it last read) is not the machine's. -/
def resetInput (s : State) : State :=
  { State.resetFor s.cfg with
    script := s.script, source := s.source, freeCount := s.freeCount, hRdata := s.hRdata }

/-- The reads of `BUF[i]` for `i` in `0 .. RES0-1` that a host issues which has read `RES0` (R99); after an error `RES0` is
an older command's, and there are no words beyond `BUF[BUFDEPTH-1]` to read (R40, R98). -/
def resultReads (s : State) : List Event :=
  (List.range (min s.res0 s.cfg.bufDepth)).map (fun i => .host (.read (bufAddr i)))

/-- The next thing that happens (R8, R9): the script's first event or, with none left, an engine step (the engine is
weakly fair, R243). A `wait` lets the engine run and then reads `STATUS` with `BUSY = 0` (R98). At `readResults` the host
settles which reads come next (R99, notes/assumptions/12.md); no agent moves. -/
def nextEvent (s : State) : Host.Outcome State Fault Refusal :=
  match s.script with
  | [] => engineStep s
  | .host t :: rest => .next (busTransaction { s with script := rest } t)
  | .engine :: rest => engineStep { s with script := rest }
  | .wait :: rest =>
    if s.busy then engineStep s
    else .next (busTransaction { s with script := rest } (.read (regAddr .status)))
  | .readResults :: rest => .next { s with script := resultReads s ++ rest }
  | .rst :: rest => .next (resetInput { s with script := rest })

/-- The command word `w` started by an accepted write to `CMD`, with the engine to move next: how an instruction comes
to run on a machine that fetches none (R26, R110). -/
def placeCommand (w : Nat) (s : State) : State :=
  { startCommand (lines s.cfg.width w) s with script := [], genkey := none, outstanding := none }

end Sys2Proof.Machine
end

