-- ==== Sys2Proof/Machine/Step.lean ====
section
/-! DEFINITION. One step of the machine, and how an instruction is placed where the next step runs it. -/

namespace Sys2Proof.Machine

/-- One step: the next event, atomic (00_scope.md rule R9). -/
def step (s : State) : Host.Outcome State Fault Refusal := nextEvent s

/-- `s` with the command word that the `nbits` low bits of `w` are, as an accepted write to `CMD` leaves it. -/
def State.withFetchWord (s : State) (nbits w : Nat) : State := placeCommand (lines nbits w) s

end Sys2Proof.Machine
end

