-- ==== Sys2Proof/Machine/HostProgram.lean ====
section
/-! DEFINITION. The notation for host programs (30_encoding.md rules R98, R99): statements, their transactions, the
pseudo-statements named after the document's functions, and how a program is put before the machine. -/

namespace Sys2Proof.Machine

/-- The `reg` of a statement: one of the thirteen registers, or `BUF[i]` (R98). -/
inductive Place where
  | reg (r : Reg)
  | buf (i : Nat)
deriving DecidableEq, Repr

/-- One line of a host program (R98). -/
inductive Stmt where
  | wr (p : Place) (v : Nat)
  | rd (p : Place)
  | cmd (i : Instr)
  | wait
  /-- `RD BUF[i]` for `i` in `0 .. RES0-1`, `RES0` being what the host has read (R99): a loop of the host, as `WAIT` is. -/
  | rdResults
  /-- No host statement: the randomness source answers the engine's next draw with `v`. -/
  | draw (v : Nat)
deriving DecidableEq, Repr

/-- `addr(reg)`: the word address of a place (R98, R66); for a `BUF[i]` beyond the buffer, the model's choice that `bufAddr`
makes (notes/assumptions/17.md). -/
def placeAddr : Place → Addr
  | .reg r => regAddr r
  | .buf i => bufAddr i

/-- The events a statement stands for (R98). A `DRAW` line marks the engine step in which its value is drawn. -/
def stmtEvents : Stmt → List Event
  | .wr p v => [.host (.write (placeAddr p) v)]
  | .rd p => [.host (.read (placeAddr p))]
  | .cmd i => [.host (.write (regAddr .cmd) (encode i))]
  | .wait => [.wait]
  | .rdResults => [.readResults]
  | .draw _ => [.engine]

/-- The answer of the randomness source that a statement tells of. -/
def stmtAnswer : Stmt → Option Nat
  | .draw v => some v
  | _ => none

/-- The answers that the `DRAW` lines of a program tell of, in order (R98). -/
def drawAnswers (p : List Stmt) : List Nat := p.filterMap stmtAnswer

/-- The source as a program tells of it. DESIGN CHOICE (notes/assumptions/12.md): R98 does not say what the source does
with a draw beyond the `DRAW` lines. Here a program with `DRAW` lines tells of all the answers there are, so that a draw
beyond them is never answered (U8); a program without any leaves the source as it stands (free, after reset). -/
def toldSource (p : List Stmt) (source : Source) : Source :=
  if drawAnswers p = [] then source else .scripted (drawAnswers p)

/-- The machine `s` with the host program `p` still to come, and the source as `toldSource` has it: the answer to a draw
beyond the `DRAW` lines of `p` is the model's choice (notes/assumptions/12.md). -/
def loadProgram (p : List Stmt) (s : State) : State :=
  { s with script := p.flatMap stmtEvents, source := toldSource p s.source }

/-- The pseudo-statements of R99. -/
inductive Pseudo where
  | isPrime (n : Nat)
  | generatePrime (lo hi : Nat)
  | modPow (b e m : Nat)
  | modInverse (a m : Nat)
  | isPrimitiveRoot (g n : Nat)
  | findPrimitiveRoots (n : Nat)
  | trace (g n : Nat)
  /-- `trace g, n` for `g = 1, 2, .., n-1` (R159). -/
  | tracePowers (n : Nat)
  | generateKeypair (lo hi : Nat)
  | encrypt (message : List Nat) (e n : Nat)
  | decrypt (ciphertext : List Nat) (d n : Nat)
  | ack
  | clracc
  | irqon
  | irqoff
  | abort
deriving DecidableEq, Repr

/-- `RD BUF[i]` for `i` in `0 .. k-1`, all of them; what one beyond `BUF[BUFDEPTH-1]` stands for is the model's choice
(notes/assumptions/17.md). -/
def readBuffer (k : Nat) : List Stmt := (List.range k).map (fun i => .rd (.buf i))

/-- `WR BUF[i], vi` for the `i`-th of the words, all of them; what one beyond `BUF[BUFDEPTH-1]` stands for is the model's
choice (notes/assumptions/17.md). -/
def writeBuffer (words : List Nat) : List Stmt := words.mapIdx (fun i v => .wr (.buf i) v)

/-- `trace g, n` (R99). -/
def traceStmts (g n : Nat) : List Stmt :=
  [.wr (.reg .opa) g, .wr (.reg .opc) n, .cmd .trace, .wait, .rd (.reg .res0), .rd (.reg .res1), .rdResults]

/-- The expansions of R99, in a program that last gave `CTRL.IE` the value `ie`; only `ABORT` needs to know it. -/
def expandPseudo (ie : Bool) : Pseudo → List Stmt
  | .isPrime n => [.wr (.reg .opa) n, .cmd .isprime, .wait, .rd (.reg .res0)]
  | .generatePrime lo hi => [.wr (.reg .opa) lo, .wr (.reg .opb) hi, .cmd .genprime, .wait, .rd (.reg .res0)]
  | .modPow b e m =>
    [.wr (.reg .opa) b, .wr (.reg .opb) e, .wr (.reg .opc) m, .cmd .modpow, .wait, .rd (.reg .res0)]
  | .modInverse a m => [.wr (.reg .opa) a, .wr (.reg .opc) m, .cmd .modinv, .wait, .rd (.reg .res0)]
  | .isPrimitiveRoot g n => [.wr (.reg .opa) g, .wr (.reg .opc) n, .cmd .isproot, .wait, .rd (.reg .res0)]
  | .findPrimitiveRoots n => [.wr (.reg .opc) n, .cmd .findroots, .wait, .rd (.reg .res0), .rdResults]
  | .trace g n => traceStmts g n
  | .tracePowers n => (List.range' 1 (n - 1)).flatMap (fun g => traceStmts g n)
  | .generateKeypair lo hi =>
    [.wr (.reg .opa) lo, .wr (.reg .opb) hi, .cmd .genkey, .wait,
      .rd (.reg .res0), .rd (.reg .res1), .rd (.reg .res2)]
  | .encrypt message e n =>
    writeBuffer message ++
      [.wr (.reg .opa) message.length, .wr (.reg .opb) e, .wr (.reg .opc) n, .cmd .encrypt, .wait]
      ++ readBuffer message.length
  | .decrypt ciphertext d n =>
    writeBuffer ciphertext ++
      [.wr (.reg .opa) ciphertext.length, .wr (.reg .opb) d, .wr (.reg .opc) n, .cmd .decrypt, .wait]
      ++ readBuffer ciphertext.length
  | .ack => [.wr (.reg .status) 0x2]
  | .clracc => [.wr (.reg .status) 0x8]
  | .irqon => [.wr (.reg .ctrl) 0x1]
  | .irqoff => [.wr (.reg .ctrl) 0x0]
  | .abort => [.wr (.reg .ctrl) (0x2 + ie.toNat)]

/-- The value that the statements last give `CTRL.IE`, bit 0 of a write to `CTRL` (R36), where it had the value `ie`. -/
def ieAfter (ie : Bool) : List Stmt → Bool
  | [] => ie
  | .wr (.reg .ctrl) v :: rest => ieAfter (v.testBit 0) rest
  | _ :: rest => ieAfter ie rest

/-- A line of a program written with pseudo-statements (R98, R99). -/
inductive Line where
  | stmt (s : Stmt)
  | pseudo (p : Pseudo)
deriving DecidableEq, Repr

/-- The statements a line stands for, in a program that last gave `CTRL.IE` the value `ie`. -/
def expandLine (ie : Bool) : Line → List Stmt
  | .stmt s => [s]
  | .pseudo p => expandPseudo ie p

/-- The statements the lines stand for; `ABORT` writes the value of `CTRL.IE` that the program last gave it (R99). -/
def expandLines (ie : Bool) : List Line → List Stmt
  | [] => []
  | l :: rest => expandLine ie l ++ expandLines (ieAfter ie (expandLine ie l)) rest

/-- A whole program written out; a program that has given `CTRL.IE` no value counts as having given it 0 (R99). -/
def expandProgram (p : List Line) : List Stmt := expandLines false p

end Sys2Proof.Machine
end

