-- ==== Sys2Proof/Safety.lean ====
section
/-! DEFINITION. The terms in which claims speak: the two completions written out from their rules, the invariant of the
machine, and what a command's success means. Nothing here is used by the machine. -/

namespace Sys2Proof.Safety

open Sys2Proof.Machine

/-! ### Completions, written out from R113 and R114 -/

/-- `s` after `complete(r0, r1, r2)` without buffer writes: R113, and the hidden phase discarded (R173). -/
def afterSuccess (r0 r1 r2 : Nat) (s : State) : State :=
  { s with res0 := r0, res1 := r1, res2 := r2, busy := false, done := true, abortreq := false, genkey := none }

/-- `s` after `raise` of the error with this code and this `ERRINFO`: R114, and the hidden phase discarded (R173). -/
def afterError (code : ErrCode) (info : Nat) (s : State) : State :=
  { s with errcode := code, errinfo := info, busy := false, done := true, abortreq := false, genkey := none }

/-- `s` after a draw that used the scripted answer before `rest`: one more in `TRIES`, saturating (R38, R116). -/
def afterScriptedDraw (rest : List Nat) (s : State) : State :=
  { s with tries := min (s.tries + 1) (2 ^ s.cfg.width - 1), source := .scripted rest, outstanding := none }

/-- `s` after a draw from the free source: one more in `TRIES`, saturating (R38, R116). -/
def afterFreeDraw (s : State) : State :=
  { s with tries := min (s.tries + 1) (2 ^ s.cfg.width - 1), freeCount := s.freeCount + 1, outstanding := none }

/-- The pre-draw check of R117 finds nothing: no abort is requested and the retry ceiling is not reached. -/
def NoAbortNoTimeout (s : State) : Prop :=
  s.abortreq = false ∧ (s.retrylim = 0 ∨ s.tries ≠ s.retrylim)

/-- A draw from `[lo, hi]` in the state `s` gives `v` and leaves `t`: the pre-draw check finds nothing (it is not made
while a request is outstanding), and `v`, of the range, is the next scripted answer or the free value due (R116, R117). -/
def DrawGives (s : State) (lo hi v : Nat) (t : State) : Prop :=
  lo ≤ v ∧ v ≤ hi ∧ (s.outstanding = none → NoAbortNoTimeout s)
  ∧ ((∃ rest, s.source = .scripted (v :: rest) ∧ t = afterScriptedDraw rest s)
    ∨ (s.source = .free ∧ v = freeAnswer lo hi s ∧ t = afterFreeDraw s))

/-! ### Mathematics of the document -/

/-- The document's definition of a primitive root: the set of the powers of `g` modulo `n` for the exponents `1..n-1`
is the set `1..n-1` (R150). -/
def PrimitiveRootOf (n g : Nat) : Prop :=
  (Finset.Icc 1 (n - 1)).image (fun k => g ^ k % n) = Finset.Icc 1 (n - 1)

/-- `d` inverts `e` modulo `phi` (R137, R170). -/
def InverseMod (e phi d : Nat) : Prop := d < phi ∧ e * d % phi = 1 % phi

/-! ### The invariant -/

/-- Every word the state holds fits `W` bits, and `BUF` lists words of `BUF[0 .. BUFDEPTH-1]` only (R5, R40, R118). -/
def WordsFit (s : State) : Prop :=
  s.opa < 2 ^ s.cfg.width ∧ s.opb < 2 ^ s.cfg.width ∧ s.opc < 2 ^ s.cfg.width
  ∧ s.res0 < 2 ^ s.cfg.width ∧ s.res1 < 2 ^ s.cfg.width ∧ s.res2 < 2 ^ s.cfg.width
  ∧ s.cmd < 2 ^ s.cfg.width ∧ s.errinfo < 2 ^ s.cfg.width ∧ s.retrylim < 2 ^ s.cfg.width
  ∧ s.efix < 2 ^ s.cfg.width ∧ s.tries < 2 ^ s.cfg.width ∧ s.hRdata < 2 ^ s.cfg.width
  ∧ ∀ c ∈ s.buf.cells, c.1 < s.cfg.bufDepth ∧ c.2 < 2 ^ s.cfg.width

/-- `BUSY` and `DONE` are never both 1 (R33); no error stands while a command runs, and no detail without an error (R34,
R39); an abort request stands only while a command runs (R45). -/
def StatusConsistent (s : State) : Prop :=
  (s.busy = true → s.done = false ∧ s.errcode = .none)
  ∧ (s.errcode = .none → s.errinfo = 0)
  ∧ (s.abortreq = true → s.busy = true)

/-- A prime that `GENKEY` may have drawn from its range (R172, R173). -/
def PrimeOfRange (s : State) (p : Nat) : Prop := p.Prime ∧ s.opa ≤ p ∧ p ≤ s.opb

/-- What the hidden phase holds while `GENKEY` runs (R46, R173): primes of the range, different, and in phase `E` their
totient, at least 3 and not coprime to `EFIX`. No other command holds a phase. -/
def PhaseConsistent (s : State) : Prop :=
  match s.genkey with
  | none => True
  | some phase =>
    s.busy = true ∧ s.cmd = 0x20 ∧ s.opa ≤ s.opb ∧ s.opb < s.cfg.half
    ∧ match phase with
      | .p => True
      | .q p => PrimeOfRange s p
      | .e p q phi =>
        PrimeOfRange s p ∧ PrimeOfRange s q ∧ p ≠ q ∧ phi = (p - 1) * (q - 1) ∧ 3 ≤ phi ∧ Nat.gcd s.efix phi ≠ 1

/-- The range `(lo, hi)` of the draw that the running command makes next, if it makes one (R132, R173). -/
def nextDrawRange (s : State) : Option (Nat × Nat) :=
  if s.cmd = 0x02 then (if s.opa ≤ s.opb then some (s.opa, s.opb) else none)
  else if s.cmd = 0x20 then
    match s.genkey with
    | none => if s.opa ≤ s.opb ∧ s.opb < s.cfg.half then some (s.opa, s.opb) else none
    | some .p => some (s.opa, s.opb)
    | some (.q _) => some (s.opa, s.opb)
    | some (.e _ _ phi) => some (2, phi - 1)
  else none

/-- A running command has made no more draws than `RETRYLIM` allows (R38, R117), and a request that the source has not
answered is the one the running command makes, on a range that is not empty (R76). -/
def DrawsConsistent (s : State) : Prop :=
  (s.busy = true → s.retrylim ≠ 0 → s.tries ≤ s.retrylim)
  ∧ ∀ r, s.outstanding = some r →
      s.busy = true ∧ nextDrawRange s = some r ∧ r.1 ≤ r.2 ∧ (s.retrylim ≠ 0 → s.tries < s.retrylim)

/-- The invariant that every step keeps. -/
structure Inv (s : State) : Prop where
  config : s.cfg.wellFormed = true
  memory : s.buf.wf
  words : WordsFit s
  status : StatusConsistent s
  phase : PhaseConsistent s
  draws : DrawsConsistent s

/-! ### Runs -/

/-- `(e, d, n)` is what one success completion of `GENKEY` left in `RES0`, `RES1`, `RES2`, from a state that satisfies
the invariant (R171, R175). -/
def KeyFromGenkey (e d n : Nat) : Prop :=
  ∃ s t, Inv s ∧ s.busy = true ∧ s.cmd = 0x20 ∧ exec .genkey s = .next t
    ∧ t.busy = false ∧ t.errcode = .none ∧ e = t.res0 ∧ d = t.res1 ∧ n = t.res2

/-- The commands that make no draw (R111). -/
def DrawsNothing (i : Instr) : Prop := i ≠ .genprime ∧ i ≠ .genkey

/-- The states `s` and `s'` agree on the explicit inputs of the command `i` (R13): the operand registers it reads, and for
`ENCRYPT` and `DECRYPT` the words of the buffer prefix (the table of R94; configuration and draws play no part for a
command that draws nothing, R120). -/
def SameInputs (i : Instr) (s s' : State) : Prop :=
  match i with
  | .isprime => s.opa = s'.opa
  | .genprime => s.opa = s'.opa ∧ s.opb = s'.opb
  | .modpow => s.opa = s'.opa ∧ s.opb = s'.opb ∧ s.opc = s'.opc
  | .modinv => s.opa = s'.opa ∧ s.opc = s'.opc
  | .isproot => s.opa = s'.opa ∧ s.opc = s'.opc
  | .findroots => s.opc = s'.opc
  | .trace => s.opa = s'.opa ∧ s.opc = s'.opc
  | .genkey => s.opa = s'.opa ∧ s.opb = s'.opb
  | .encrypt => s.opa = s'.opa ∧ s.opb = s'.opb ∧ s.opc = s'.opc ∧ ∀ k, k < s.opa → bufRead s k = bufRead s' k
  | .decrypt => s.opa = s'.opa ∧ s.opb = s'.opb ∧ s.opc = s'.opc ∧ ∀ k, k < s.opa → bufRead s k = bufRead s' k

/-- The host access `t`, made in the state `s`, breaks an access rule: a write or a buffer read that the busy lock
refuses, a write to a read-only register, any access to an unmapped address (R64, R65, R67). -/
def BreaksAccessRule (s : State) : Transaction → Prop
  | .read a =>
    match locate s.cfg a with
    | .reg _ => False
    | .buf _ => s.busy = true
    | .unmapped => True
  | .write a _ =>
    match locate s.cfg a with
    | .reg .status => False
    | .reg .ctrl => False
    | .reg .res0 => True
    | .reg .res1 => True
    | .reg .res2 => True
    | .reg .errinfo => True
    | .reg .tries => True
    | .reg _ => s.busy = true
    | .buf _ => s.busy = true
    | .unmapped => True

end Sys2Proof.Safety
end

