-- ==== Sys2Proof/Certificates/Slice0/Obligations.lean ====
section
/-! DEFINITION. The statements for the provers, from the numbered rules of spec/. A completion is written out by
`afterSuccess` and `afterError` of Safety.lean (R113, R114), a draw by `afterScriptedDraw` and `afterFreeDraw` (R116). -/

open Sys2Proof Sys2Proof.Machine Sys2Proof.Safety

/-! ### Encoding -/

/-- R90, R92, R96: the decoder accepts exactly the ten command words, each for the command the opcode map gives it. -/
def Obligations.DecoderAcceptsExactlyTheTenWords : Prop :=
  ∀ (w : Nat) (i : Instr), decode w = .ok i ↔
    (w, i) ∈ [(0x01, Instr.isprime), (0x02, .genprime), (0x03, .modpow), (0x04, .modinv), (0x10, .isproot),
      (0x11, .findroots), (0x12, .trace), (0x20, .genkey), (0x21, .encrypt), (0x22, .decrypt)]

/-- R92: a few command words, written out from the map, decode to their commands or are refused by name; and for every
command, decoding its encoding gives it back, the encoding fitting a word of every width the spec admits. -/
def Obligations.CommandWordsRoundTrip : Prop :=
  (decode 0x00000003 = .ok .modpow ∧ decode 0x00000012 = .ok .trace ∧ decode 0x00000020 = .ok .genkey
    ∧ decode 0x00000103 = .error .nonzeroField ∧ decode 0x00000005 = .error .undefinedOpcode
    ∧ decode 0 = .error .undefinedOpcode)
  ∧ ∀ i : Instr, decode (encode i) = .ok i ∧ decodeTableWord 32 (encode i) = some i
      ∧ ∀ c : Config, c.wellFormed = true → encode i < 2 ^ c.width

/-- R95: the listing of a well-formed transaction has `17 + W` bits and stands for that transaction, and every listing
of `17 + W` bits stands for some transaction, a write being listed in one way only. -/
def Obligations.TransactionListingRoundTrip : Prop :=
  ∀ c : Config,
    (∀ t : Transaction, t.wellFormed c = true →
      encodeTransaction c.width t < 2 ^ (17 + c.width)
        ∧ decodeTransaction c.width (encodeTransaction c.width t) = some t)
    ∧ ∀ bits, bits < 2 ^ (17 + c.width) →
        ∃ t, decodeTransaction c.width bits = some t ∧ t.wellFormed c = true
          ∧ (2 ^ (16 + c.width) ≤ bits → encodeTransaction c.width t = bits)

/-! ### The step -/

/-- R111, R112: while a command runs, a step in which the engine moves is that command's step. Which agent moves is the
script's (notes/assumptions/2.md): the engine moves when the script is empty, at `engine`, and at `wait`. -/
def Obligations.StepRunsTheDecodedCommand : Prop :=
  ∀ (s : State) (i : Instr), s.busy = true → decode s.cmd = .ok i →
    (s.script = [] → step s = exec i s)
    ∧ (∀ rest, s.script = .engine :: rest → step s = exec i { s with script := rest })
    ∧ (∀ rest, s.script = .wait :: rest → step s = exec i s)

/-- The model's placing of an instruction: the word is started as by an accepted write to `CMD` (R110), and the next
step runs it. -/
def Obligations.PlacedCommandRunsNext : Prop :=
  ∀ (s : State) (w : Nat) (i : Instr), s.cfg.wellFormed = true → decodeTableWord 32 w = some i →
    (s.withFetchWord 32 w).cmd = encode i ∧ (s.withFetchWord 32 w).busy = true
    ∧ step (s.withFetchWord 32 w) = exec i (s.withFetchWord 32 w)

/-- R96: a word that is none of the ten is accepted like any other, and its one step is the error completion with
`ERRCODE` 8 and the word in `ERRINFO`. -/
def Obligations.IllegalWordRaisesErrIllegal : Prop :=
  ∀ (s : State) (w : Nat), s.busy = false → s.script = [] → w < 2 ^ s.cfg.width →
    w ∉ [0x01, 0x02, 0x03, 0x04, 0x10, 0x11, 0x12, 0x20, 0x21, 0x22] →
    ∃ t, busTransaction s (.write 0x0008 w) = t ∧ t.busy = true ∧ t.cmd = w
      ∧ step t = .next (afterError .illegal w t) ∧ codeNumber .illegal = 8

/-- R111, R231: the engine takes no step when no command is running. That an idle machine with an empty script steps to
itself, and that an `engine` event is then only taken off the script, is the model's choice (notes/assumptions/2.md). -/
def Obligations.IdleEngineTakesNoStep : Prop :=
  ∀ s : State, s.busy = false →
    (s.script = [] → step s = .next s)
    ∧ (∀ rest, s.script = .engine :: rest → step s = .next { s with script := rest })

/-- R60, R70: a host transaction is always answered, in one step, whatever the engine does, and that step moves nothing
of the engine: the result registers, `TRIES`, `ERRINFO`, the hidden phase and the draw request stay, unless the
transaction is an accepted write to `CMD`. -/
def Obligations.BusNeverStallsNorMovesTheEngine : Prop :=
  ∀ (s : State) (tr : Transaction) (rest : List Event), s.script = .host tr :: rest →
    ∃ t, step s = .next t ∧ t = busTransaction { s with script := rest } tr ∧ t.script = rest
      ∧ t.res0 = s.res0 ∧ t.res1 = s.res1 ∧ t.res2 = s.res2 ∧ t.genkey = s.genkey
      ∧ t.outstanding = s.outstanding ∧ t.source = s.source ∧ t.cfg = s.cfg
      ∧ ((¬ ∃ v, tr = .write 0x0008 v) →
          t.cmd = s.cmd ∧ t.busy = s.busy ∧ t.tries = s.tries ∧ t.errinfo = s.errinfo ∧ t.errcode = s.errcode)

/-- No step faults, and the one refusal is an answer of the randomness source outside the requested range, which the
engine met in a draw of `GENPRIME` or `GENKEY` (U7's treatment, notes/assumptions/5.md). With a source that answers
freely, every step has a next state. -/
def Obligations.OnlyAnOutOfRangeAnswerStopsAStep : Prop :=
  ∀ s : State,
    (∀ f, step s ≠ .fault f)
    ∧ (∀ r, step s = .refused r → r = .drawOutOfRange ∧ s.busy = true ∧ (s.cmd = 0x02 ∨ s.cmd = 0x20)
        ∧ ∃ lo hi v rest, nextDrawRange s = some (lo, hi) ∧ s.source = .scripted (v :: rest) ∧ (v < lo ∨ hi < v))
    ∧ (s.source = .free → ∃ t, step s = .next t)

/-! ### Reset and the invariant -/

/-- R50, R51, R230: after the reset input every register has its reset value, every word of `BUF` is unspecified (it
carries the mark "unwritten"), and no command runs, whatever ran before. The rest is the model's: that the parameters stay
(notes/assumptions/1.md), that a reset of `State.reset` gives `State.reset`, environment and all (notes/assumptions/7.md,
notes/assumptions/9.md), and the number 65537 there (PRESUMED, notes/assumptions/11.md). -/
def Obligations.ResetGivesEveryRegisterItsValue : Prop :=
  (∀ (s : State) (rest : List Event), s.script = .rst :: rest →
    ∃ t, step s = .next t
      ∧ t.opa = 0 ∧ t.opb = 0 ∧ t.opc = 0 ∧ t.res0 = 0 ∧ t.res1 = 0 ∧ t.res2 = 0
      ∧ t.cmd = 0 ∧ t.busy = false ∧ t.done = false ∧ t.accerr = false ∧ t.errcode = .none ∧ errFlag t = false
      ∧ t.ie = false ∧ t.errinfo = 0 ∧ t.retrylim = 0 ∧ t.efix = s.cfg.efixReset ∧ t.tries = 0
      ∧ t.abortreq = false ∧ t.genkey = none ∧ irq t = false ∧ t.cfg = s.cfg ∧ ∀ i, bufAt t.buf i = none)
  ∧ (∃ t, step { State.reset with script := [.rst] } = .next t ∧ t = State.reset)
  ∧ State.reset.efix = 65537

/-- The invariant holds right after reset, for all parameters the spec admits. -/
def Obligations.ResetSatisfiesTheInvariant : Prop :=
  (∀ c : Config, c.wellFormed = true → Inv (State.resetFor c)) ∧ Inv State.reset

/-- Every step keeps the invariant: every word written fits `W` bits (R118), the buffer stays in canonical form, `BUSY`
and `DONE` are never both 1 (R33), the hidden phase holds what R173 says, and a command never makes more draws than
`RETRYLIM` allows (R38). -/
def Obligations.EveryStepKeepsTheInvariant : Prop :=
  ∀ s t : State, Inv s → step s = .next t → Inv t

/-- R76, R116: the engine never asks for a value of an empty range: a request that a step leaves presented on the
randomness port is for a range `lo <= hi` of words, and an answer that a step uses was of the range due, of words. The
request lines hold a request only while the source withholds its answer (notes/assumptions/5.md); the source of `s` being
any, one that withholds it shows the range of every draw. -/
def Obligations.NoDrawIsAskedOnAnEmptyRange : Prop :=
  (∀ (s t : State) (lo hi : Nat), Inv s → step s = .next t → t.outstanding = some (lo, hi) →
    lo ≤ hi ∧ hi < 2 ^ s.cfg.width)
  ∧ ∀ (s t : State) (v : Nat) (rest : List Nat), Inv s → s.source = .scripted (v :: rest) →
      step s = .next t → t.source = .scripted rest →
      ∃ lo hi, lo ≤ v ∧ v ≤ hi ∧ hi < 2 ^ s.cfg.width ∧ nextDrawRange s = some (lo, hi)

/-! ### Registers: the whole-machine rules -/

/-- R32: `BUSY` is set by an accepted write to `CMD` and cleared by the completion step of that command and by reset,
and nothing else changes it. -/
def Obligations.BusyChangesOnlyAtStartCompletionAndReset : Prop :=
  ∀ s t : State, step s = .next t →
    (s.busy = false → (t.busy = true ↔ ∃ v rest, s.script = .host (.write 0x0008 v) :: rest))
    ∧ (s.busy = true → t.busy = false →
        (∃ rest, s.script = .rst :: rest)
        ∨ (t.done = true ∧ t.abortreq = false ∧ t.genkey = none
            ∧ (s.script = [] ∨ ∃ rest, s.script = .engine :: rest ∨ s.script = .wait :: rest)))

/-- R33: `DONE` is set by every completion step and by nothing else, and it is cleared by an accepted write to `CMD`, by a
write of 1 to bit 1 of `STATUS`, and by reset, and by nothing else; hence `BUSY` and `DONE`, not both 1 before a step, are
not both 1 after it. -/
def Obligations.DoneChangesOnlyAsRuled : Prop :=
  ∀ s t : State, s.cfg.wellFormed = true → step s = .next t →
    (s.done = false →
      (t.done = true ↔ s.busy = true ∧ t.busy = false ∧ ¬ ∃ rest, s.script = .rst :: rest))
    ∧ (s.done = true →
      (t.done = false ↔
        (s.busy = false ∧ ∃ v rest, s.script = .host (.write 0x0008 v) :: rest)
        ∨ (∃ v rest, s.script = .host (.write 0x0009 v) :: rest ∧ v.testBit 1 = true)
        ∨ ∃ rest, s.script = .rst :: rest))
    ∧ ((s.busy = true → s.done = false) → t.busy = true → t.done = false)

/-- R34, R39: `ERRCODE` and `ERRINFO` are set to 0 by an accepted write to `CMD` and by reset, set by an error
completion, and change in no other way. -/
def Obligations.ErrorCodeChangesOnlyAsRuled : Prop :=
  ∀ s t : State, step s = .next t →
    ((s.busy = false ∧ (∃ v rest, s.script = .host (.write 0x0008 v) :: rest)) ∨ (∃ rest, s.script = .rst :: rest) →
      t.errcode = .none ∧ t.errinfo = 0)
    ∧ (t.errcode ≠ s.errcode ∨ t.errinfo ≠ s.errinfo →
      (s.busy = false ∧ ∃ v rest, s.script = .host (.write 0x0008 v) :: rest)
      ∨ (s.busy = true ∧ t.busy = false ∧ t.done = true ∧ t.errcode ≠ .none)
      ∨ ∃ rest, s.script = .rst :: rest)

/-- R35: `ACCERR` is set by exactly the host accesses that break an access rule, and cleared by a write of 1 to bit 3 of
`STATUS` and by reset, and by nothing else. -/
def Obligations.AccerrIsSetExactlyByBrokenAccesses : Prop :=
  ∀ s t : State, s.cfg.wellFormed = true → step s = .next t →
    (s.accerr = false → (t.accerr = true ↔ ∃ tr rest, s.script = .host tr :: rest ∧ BreaksAccessRule s tr))
    ∧ (s.accerr = true →
      (t.accerr = false ↔
        (∃ v rest, s.script = .host (.write 0x0009 v) :: rest ∧ v.testBit 3 = true)
        ∨ ∃ rest, s.script = .rst :: rest))

/-- R45, R36, R212: an abort request is made by a write to `CTRL` with bit 1 set while a command runs, and withdrawn by
an accepted write to `CMD`, by every step that ends a command and by reset, and by nothing else. -/
def Obligations.AbortRequestChangesOnlyAsRuled : Prop :=
  ∀ s t : State, s.cfg.wellFormed = true → step s = .next t →
    (s.abortreq = false →
      (t.abortreq = true ↔
        s.busy = true ∧ ∃ v rest, s.script = .host (.write 0x000A v) :: rest ∧ v.testBit 1 = true))
    ∧ (s.abortreq = true →
      (t.abortreq = false ↔
        (s.busy = false ∧ ∃ v rest, s.script = .host (.write 0x0008 v) :: rest)
        ∨ (s.busy = true ∧ t.busy = false)
        ∨ ∃ rest, s.script = .rst :: rest))

/-- R21, R25: the operand registers are written only by a host write to them while no command runs (and take 0 at
reset). -/
def Obligations.OperandsAreWrittenOnlyByAnIdleHostWrite : Prop :=
  ∀ s t : State, step s = .next t → (¬ ∃ rest, s.script = .rst :: rest) →
    (t.opa ≠ s.opa → s.busy = false ∧ ∃ v rest, s.script = .host (.write 0x0000 v) :: rest ∧ t.opa = lines s.cfg.width v)
    ∧ (t.opb ≠ s.opb → s.busy = false ∧ ∃ v rest, s.script = .host (.write 0x0001 v) :: rest ∧ t.opb = lines s.cfg.width v)
    ∧ (t.opc ≠ s.opc → s.busy = false ∧ ∃ v rest, s.script = .host (.write 0x0002 v) :: rest ∧ t.opc = lines s.cfg.width v)

/-- R22: the result registers are written only by a success completion (and take 0 at reset). -/
def Obligations.ResultsAreWrittenOnlyBySuccessCompletions : Prop :=
  ∀ s t : State, Inv s → step s = .next t → (¬ ∃ rest, s.script = .rst :: rest) →
    (t.res0 ≠ s.res0 ∨ t.res1 ≠ s.res1 ∨ t.res2 ≠ s.res2) →
    s.busy = true ∧ t.busy = false ∧ t.done = true ∧ t.errcode = .none ∧ t.errinfo = 0

/-- R40: a word of `BUF` changes only by a host write to it while no command runs, and by a success completion of
`ENCRYPT`, `DECRYPT`, `FINDROOTS` or `TRACE` (and is unspecified after reset). -/
def Obligations.BufferChangesOnlyAsRuled : Prop :=
  ∀ (s t : State) (i : Nat), Inv s → step s = .next t → (¬ ∃ rest, s.script = .rst :: rest) →
    bufAt t.buf i ≠ bufAt s.buf i →
    i < s.cfg.bufDepth
    ∧ ((s.busy = false ∧ ∃ v rest, s.script = .host (.write (bufAddr i) v) :: rest
          ∧ bufAt t.buf i = some (lines s.cfg.width v))
      ∨ (s.busy = true ∧ t.busy = false ∧ t.errcode = .none
          ∧ (s.cmd = 0x11 ∨ s.cmd = 0x12 ∨ s.cmd = 0x21 ∨ s.cmd = 0x22)))

/-- R45, R46: the hidden state is not readable: what a host read returns does not depend on it. -/
def Obligations.HiddenStateIsNotReadable : Prop :=
  ∀ (s : State) (a : Addr) (abortreq : Bool) (phase : Option KeyPhase),
    (busTransaction { s with abortreq := abortreq, genkey := phase } (.read a)).hRdata
      = (busTransaction s (.read a)).hRdata
    ∧ (busTransaction { s with abortreq := abortreq, genkey := phase } (.read a)).accerr
      = (busTransaction s (.read a)).accerr

/-! ### The bus -/

/-- R61: the table of host reads. A buffer word is here one that has been written; for the others see the next
statement. -/
def Obligations.HostReadTable : Prop :=
  ∀ s : State, s.cfg.wellFormed = true →
    busTransaction s (.read 0x0000) = { s with hRdata := s.opa }
    ∧ busTransaction s (.read 0x0001) = { s with hRdata := s.opb }
    ∧ busTransaction s (.read 0x0002) = { s with hRdata := s.opc }
    ∧ busTransaction s (.read 0x0003) = { s with hRdata := s.res0 }
    ∧ busTransaction s (.read 0x0004) = { s with hRdata := s.res1 }
    ∧ busTransaction s (.read 0x0005) = { s with hRdata := s.res2 }
    ∧ busTransaction s (.read 0x0008) = { s with hRdata := s.cmd }
    ∧ busTransaction s (.read 0x0009) = { s with hRdata := statusWord s }
    ∧ busTransaction s (.read 0x000A) = { s with hRdata := if s.ie then 1 else 0 }
    ∧ busTransaction s (.read 0x000B) = { s with hRdata := s.errinfo }
    ∧ busTransaction s (.read 0x000C) = { s with hRdata := s.retrylim }
    ∧ busTransaction s (.read 0x000D) = { s with hRdata := s.efix }
    ∧ busTransaction s (.read 0x000E) = { s with hRdata := s.tries }
    ∧ (∀ i w, i < s.cfg.bufDepth → s.busy = false → bufAt s.buf i = some w →
        busTransaction s (.read (bufAddr i)) = { s with hRdata := w })
    ∧ (∀ i, i < s.cfg.bufDepth → s.busy = true →
        busTransaction s (.read (bufAddr i)) = { s with hRdata := 0, accerr := true })
    ∧ ∀ a : Addr, (a.toNat = 6 ∨ a.toNat = 7 ∨ (0x0F ≤ a.toNat ∧ a.toNat ≤ 0xFF) ∨ 0x0100 + s.cfg.bufDepth ≤ a.toNat) →
        busTransaction s (.read a) = { s with hRdata := 0, accerr := true }

/-- The model's choice for R41 (notes/assumptions/3.md): reading a word of `BUF` that nothing has written since reset
returns a free word of `W` bits, sets no `ACCERR`, and advances the counter that the next such reading's free value is
taken at; the two values may be equal or not. -/
def Obligations.UnwrittenBufferWordReadsFree : Prop :=
  ∀ (s : State) (i : Nat), s.cfg.wellFormed = true → i < s.cfg.bufDepth → s.busy = false → bufAt s.buf i = none →
    ∃ w, w = Config.unwrittenWord s.freeCount i % 2 ^ s.cfg.width ∧ w < 2 ^ s.cfg.width
      ∧ busTransaction s (.read (bufAddr i)) = { s with hRdata := w, freeCount := s.freeCount + 1 }

/-- R62, R64, R65, R67: the table of host writes. -/
def Obligations.HostWriteTable : Prop :=
  ∀ (s : State) (v : Nat), s.cfg.wellFormed = true → v < 2 ^ s.cfg.width →
    (s.busy = false →
      busTransaction s (.write 0x0000 v) = { s with opa := v }
      ∧ busTransaction s (.write 0x0001 v) = { s with opb := v }
      ∧ busTransaction s (.write 0x0002 v) = { s with opc := v }
      ∧ busTransaction s (.write 0x000C v) = { s with retrylim := v }
      ∧ busTransaction s (.write 0x000D v) = { s with efix := v }
      ∧ busTransaction s (.write 0x000A v) = { s with ie := v.testBit 0 }
      ∧ ∀ i, i < s.cfg.bufDepth → ∃ m, busTransaction s (.write (bufAddr i) v) = { s with buf := m }
          ∧ bufAt m i = some v ∧ ∀ j, j ≠ i → bufAt m j = bufAt s.buf j)
    ∧ (s.busy = true →
      busTransaction s (.write 0x000A v) = { s with ie := v.testBit 0, abortreq := s.abortreq || v.testBit 1 }
      ∧ (∀ a : Addr, a.toNat ∈ [0x00, 0x01, 0x02, 0x08, 0x0C, 0x0D] →
          busTransaction s (.write a v) = { s with accerr := true })
      ∧ ∀ i, i < s.cfg.bufDepth → busTransaction s (.write (bufAddr i) v) = { s with accerr := true })
    ∧ busTransaction s (.write 0x0009 v)
        = { s with done := s.done && !v.testBit 1, accerr := s.accerr && !v.testBit 3 }
    ∧ (∀ a : Addr, (a.toNat ∈ [0x03, 0x04, 0x05, 0x0B, 0x0E] ∨ a.toNat = 6 ∨ a.toNat = 7
          ∨ (0x0F ≤ a.toNat ∧ a.toNat ≤ 0xFF) ∨ 0x0100 + s.cfg.bufDepth ≤ a.toNat) →
        busTransaction s (.write a v) = { s with accerr := true })

/-- R110: what an accepted write to `CMD` does, and that it changes nothing else. -/
def Obligations.CommandStartWritesExactlyThese : Prop :=
  ∀ (s : State) (c : Nat), s.busy = false → c < 2 ^ s.cfg.width →
    busTransaction s (.write 0x0008 c)
      = { s with cmd := c, busy := true, done := false, errcode := .none, errinfo := 0, tries := 0, abortreq := false }

/-- R31: the layout of `STATUS`, bit by bit, and its reset value; R200: the numbers of the errors, the values of
`ERRCODE`. -/
def Obligations.StatusWordLayout : Prop :=
  (∀ s : State,
    (statusWord s).testBit 0 = s.busy ∧ (statusWord s).testBit 1 = s.done
    ∧ ((statusWord s).testBit 2 = true ↔ codeNumber s.errcode ≠ 0) ∧ (statusWord s).testBit 3 = s.accerr
    ∧ (∀ i, 4 ≤ i → i ≤ 7 → (statusWord s).testBit i = false)
    ∧ statusWord s / 2 ^ 8 % 16 = codeNumber s.errcode
    ∧ (∀ i, 12 ≤ i → (statusWord s).testBit i = false))
  ∧ (∀ c : Config, statusWord (State.resetFor c) = 0)
  ∧ codeNumber .none = 0 ∧ codeNumber .noInverse = 1 ∧ codeNumber .msgTooLarge = 2 ∧ codeNumber .timeout = 3
  ∧ codeNumber .keygen = 4 ∧ codeNumber .operand = 5 ∧ codeNumber .notPrime = 6 ∧ codeNumber .aborted = 7
  ∧ codeNumber .illegal = 8

/-- R208, R209: `irq` is the level `DONE and IE`: the step that ends a command raises it when `IE` is set, whether the
command succeeds or fails; an acknowledging write of 1 to bit 1 of `STATUS`, an accepted write to `CMD`, or a write of 0
to bit 0 of `CTRL`, lowers it; and setting `IE` while `DONE` is 1 raises it at once. -/
def Obligations.InterruptFollowsDoneAndEnable : Prop :=
  (∀ s : State, irq s = true ↔ s.done = true ∧ s.ie = true)
  ∧ (∀ s t : State, s.busy = true → step s = .next t → t.busy = false → (¬ ∃ rest, s.script = .rst :: rest) →
    irq t = s.ie)
  ∧ ∀ (s : State) (v : Nat), s.cfg.wellFormed = true →
      (v.testBit 1 = true → irq (busTransaction s (.write 0x0009 v)) = false)
      ∧ (s.busy = false → irq (busTransaction s (.write 0x0008 v)) = false)
      ∧ (v.testBit 0 = false → irq (busTransaction s (.write 0x000A v)) = false)
      ∧ (v.testBit 0 = true → irq (busTransaction s (.write 0x000A v)) = s.done)

/-! ### What every engine step leaves alone -/

/-- R13, R21, R25: no engine step of any command changes an operand, `CMD`, `IE`, `ACCERR`, `RETRYLIM`, `EFIX`, the
parameters, or what the host has read. -/
def Obligations.EngineStepFrame : Prop :=
  ∀ (i : Instr) (s t : State), exec i s = .next t →
    t.opa = s.opa ∧ t.opb = s.opb ∧ t.opc = s.opc ∧ t.cmd = s.cmd ∧ t.ie = s.ie ∧ t.accerr = s.accerr
    ∧ t.retrylim = s.retrylim ∧ t.efix = s.efix ∧ t.cfg = s.cfg ∧ t.hRdata = s.hRdata ∧ t.script = s.script
    ∧ (i ∉ [Instr.findroots, .trace, .encrypt, .decrypt] → t.buf = s.buf)
    ∧ (DrawsNothing i → t.tries = s.tries ∧ t.source = s.source ∧ t.outstanding = s.outstanding)

/-- R114, R203: an error completion, of any command, leaves the result registers and every word of `BUF` as they were. -/
def Obligations.ErrorCompletionMutatesNothing : Prop :=
  ∀ (i : Instr) (s t : State), s.errcode = .none → exec i s = .next t → t.errcode ≠ .none →
    t.busy = false ∧ t.done = true ∧ t.abortreq = false ∧ t.genkey = none
    ∧ t.res0 = s.res0 ∧ t.res1 = s.res1 ∧ t.res2 = s.res2 ∧ t.buf = s.buf
    ∧ ∀ k, bufAt t.buf k = bufAt s.buf k

/-- R111, R115: a command without a draw is exactly one step, a completion step. -/
def Obligations.DrawlessCommandsEndInOneStep : Prop :=
  ∀ (i : Instr) (s : State), DrawsNothing i →
    ∃ t, exec i s = .next t ∧ t.busy = false ∧ t.done = true ∧ t.abortreq = false ∧ t.tries = s.tries

/-- R202: a command ends with no error code other than those its row of the table admits. -/
def Obligations.ErrorCodesPerCommand : Prop :=
  ∀ (i : Instr) (s t : State), s.errcode = .none → exec i s = .next t → t.errcode ≠ .none →
    match i with
    | .isprime => False
    | .genprime =>
      t.errcode = .timeout ∨ t.errcode = .aborted ∨ (t.errcode = .operand ∧ t.errinfo = 1)
    | .modpow => t.errcode = .operand ∧ t.errinfo = 2
    | .modinv => t.errcode = .noInverse ∨ (t.errcode = .operand ∧ t.errinfo = 2)
    | .isproot => t.errcode = .notPrime
    | .findroots => t.errcode = .notPrime ∨ (t.errcode = .operand ∧ t.errinfo = 4)
    | .trace => t.errcode = .notPrime ∨ (t.errcode = .operand ∧ t.errinfo = 4)
    | .genkey =>
      t.errcode = .timeout ∨ t.errcode = .keygen ∨ t.errcode = .aborted
        ∨ (t.errcode = .operand ∧ (t.errinfo = 1 ∨ t.errinfo = 5))
    | .encrypt => t.errcode = .msgTooLarge ∨ (t.errcode = .operand ∧ (t.errinfo = 2 ∨ t.errinfo = 3))
    | .decrypt => t.errcode = .operand ∧ (t.errinfo = 2 ∨ t.errinfo = 3)

/-- R212, R45: an abort request made during a command without draws has no effect. -/
def Obligations.AbortDoesNothingToDrawlessCommands : Prop :=
  ∀ (i : Instr) (s : State) (request : Bool), DrawsNothing i → exec i { s with abortreq := request } = exec i s

/-- R13, R94: the outcome of a command without draws depends on the operand registers it reads, for `ENCRYPT` and
`DECRYPT` on the words of the buffer prefix, and on the parameters, only: from two states that agree on these (and in which
no error stands), the same error or the same results and the same words written. -/
def Obligations.DrawlessCommandsArePure : Prop :=
  ∀ (i : Instr) (s s' t t' : State), DrawsNothing i →
    s.cfg = s'.cfg → SameInputs i s s' →
    s.errcode = .none → s'.errcode = .none → s.errinfo = 0 → s'.errinfo = 0 →
    exec i s = .next t → exec i s' = .next t' →
    t.errcode = t'.errcode ∧ t.errinfo = t'.errinfo
    ∧ (t.errcode = .none →
        t.res0 = t'.res0 ∧ t.res1 = t'.res1 ∧ t.res2 = t'.res2
        ∧ ∀ k, bufAt t.buf k = bufAt t'.buf k
            ∨ (bufAt t.buf k = bufAt s.buf k ∧ bufAt t'.buf k = bufAt s'.buf k))

/-! ### Number Theory Utilities -/

/-- R130: `is_prime(n)` is true exactly when `n` is a prime number. -/
def Obligations.IsPrimeDecidesPrimality : Prop := ∀ n : Nat, isPrime n = true ↔ n.Prime

/-- R131: `ISPRIME` completes, always, with 1 or 0. -/
def Obligations.IsprimeTestsItsOperand : Prop :=
  decode 0x01 = .ok .isprime
  ∧ ∀ s : State, exec .isprime s = .next (afterSuccess (if s.opa.Prime then 1 else 0) 0 0 s)

/-- R134, R136: repeated squaring computes `b^e mod m`, in `[0, m)`. -/
def Obligations.ModPowIsThePower : Prop :=
  ∀ b e m : Nat, 1 ≤ m → modPow b e m = b ^ e % m ∧ modPow b e m < m

/-- R135: `MODPOW`. -/
def Obligations.ModpowComputesTheResidue : Prop :=
  decode 0x03 = .ok .modpow
  ∧ ∀ s : State,
      (s.opc = 0 → exec .modpow s = .next (afterError .operand 2 s))
      ∧ (s.opc ≠ 0 → exec .modpow s = .next (afterSuccess (s.opa ^ s.opb % s.opc) 0 0 s))

/-- R137, R139: the extended Euclidean algorithm ends with `r0 = gcd(a, m)`, and where that is 1, `t0 mod m` is the
unique inverse in `[0, m)`. -/
def Obligations.EuclidFindsGcdAndInverse : Prop :=
  ∀ a m : Nat, 1 ≤ m →
    (bezout a m).1 = Nat.gcd a m
    ∧ (Nat.gcd a m = 1 →
        InverseMod a m (modInverse a m) ∧ ∀ x, InverseMod a m x → x = modInverse a m)

/-- R138: `MODINV`. -/
def Obligations.ModinvFindsTheInverse : Prop :=
  decode 0x04 = .ok .modinv
  ∧ ∀ s : State,
      (s.opc = 0 → exec .modinv s = .next (afterError .operand 2 s))
      ∧ (s.opc ≠ 0 → Nat.gcd s.opa s.opc ≠ 1 →
          exec .modinv s = .next (afterError .noInverse (Nat.gcd s.opa s.opc) s))
      ∧ (s.opc ≠ 0 → Nat.gcd s.opa s.opc = 1 →
          ∃ x, InverseMod s.opa s.opc x ∧ exec .modinv s = .next (afterSuccess x 0 0 s))

/-- R132, R116, R117: `GENPRIME`: the range check; then, per draw, abort before timeout; then the drawn value, which ends
the command when it is prime and is counted when it is not. That a late answer to an outstanding request is drawn with no
new pre-draw check is the model's reading of R76 and U8 (notes/assumptions/5.md). -/
def Obligations.GenprimeDrawsUntilPrime : Prop :=
  decode 0x02 = .ok .genprime
  ∧ ∀ s : State,
      (s.opa > s.opb → exec .genprime s = .next (afterError .operand 1 s))
      ∧ (s.opa ≤ s.opb → s.outstanding = none → s.abortreq = true →
          exec .genprime s = .next (afterError .aborted 0 s))
      ∧ (s.opa ≤ s.opb → s.outstanding = none → s.abortreq = false → s.retrylim ≠ 0 → s.tries = s.retrylim →
          exec .genprime s = .next (afterError .timeout 0 s))
      ∧ ∀ v t, DrawGives s s.opa s.opb v t →
          exec .genprime s = .next (if v.Prime then afterSuccess v 0 0 t else t)

/-- R117, R116: the pre-draw check and the draw, for any range: abort wins over timeout, and past the check the source's
answer is drawn and counted. -/
def Obligations.PreDrawCheckThenDraw : Prop :=
  ∀ (s : State) (lo hi : Nat), lo ≤ hi → s.outstanding = none →
    (s.abortreq = true → draw lo hi s = .stopped (afterError .aborted 0 s))
    ∧ (s.abortreq = false → s.retrylim ≠ 0 → s.tries = s.retrylim → draw lo hi s = .stopped (afterError .timeout 0 s))
    ∧ (∀ v t, DrawGives s lo hi v t → draw lo hi s = .drew v t)
    ∧ (NoAbortNoTimeout s → s.source = .free → ∃ v t, DrawGives s lo hi v t)

/-- The model of U8, U7 and R76 (notes/assumptions/5.md): a source that answers no more leaves the command stuck: the
first attempt presents the range, and from then on no engine step changes anything, an abort request included. An answer
outside the requested range is refused by name, at once when the pre-draw check finds nothing, and late, to an outstanding
request, as well. -/
def Obligations.SourceThatBreaksItsDuty : Prop :=
  ∀ (s : State) (lo hi : Nat), Inv s → s.busy = true → s.script = [] → nextDrawRange s = some (lo, hi) →
    (s.source = .scripted [] →
      (s.outstanding = none → NoAbortNoTimeout s → step s = .next { s with outstanding := some (lo, hi) })
      ∧ (s.outstanding ≠ none → step s = .next s))
    ∧ (∀ v rest, (s.outstanding = none → NoAbortNoTimeout s) → s.source = .scripted (v :: rest) → (v < lo ∨ hi < v) →
        step s = .refused .drawOutOfRange)

/-- R115, U3: the infinite execution in which every drawn value is rejected is admitted: without a retry ceiling, as
many composite draws as one likes leave `GENPRIME` running, and are counted. -/
def Obligations.GenprimeMayRunForever : Prop :=
  ∀ (k : Nat) (s : State) (v : Nat), s.busy = true → s.cmd = 0x02 → s.script = [] → s.outstanding = none →
    s.abortreq = false → s.retrylim = 0 → s.opa ≤ v → v ≤ s.opb → ¬ v.Prime → s.tries < 2 ^ s.cfg.width →
    s.source = .scripted (List.replicate k v) →
    ∃ t, Host.Core.run Sys2Proof.core k s = .next t ∧ t.busy = true ∧ t.cmd = 0x02
      ∧ t.tries = min (s.tries + k) (2 ^ s.cfg.width - 1)

/-- R38, R117, R243: with a retry ceiling and a source that answers, every command ends, at the latest one step after
its last allowed draw. -/
def Obligations.RetryCeilingEndsEveryCommand : Prop :=
  ∀ s : State, Inv s → s.busy = true → s.script = [] → s.source = .free → s.retrylim ≠ 0 →
    ∃ k t, k ≤ s.retrylim - s.tries + 1 ∧ Host.Core.run Sys2Proof.core k s = .next t ∧ t.busy = false ∧ t.done = true

/-! ### Primitive Root Analyzer -/

/-- R150: the test is the document's equality of two sets. -/
def Obligations.PrimitiveRootTestIsTheSetEquality : Prop :=
  ∀ g n : Nat, 2 ≤ n → (isPrimitiveRoot g n = true ↔ PrimitiveRootOf n g)

/-- R151, R152: `ISPROOT`. -/
def Obligations.IsprootTestsThePowers : Prop :=
  decode 0x10 = .ok .isproot
  ∧ ∀ s : State,
      (¬ s.opc.Prime → exec .isproot s = .next (afterError .notPrime 0 s))
      ∧ (s.opc.Prime → PrimitiveRootOf s.opc s.opa → exec .isproot s = .next (afterSuccess 1 0 0 s))
      ∧ (s.opc.Prime → ¬ PrimitiveRootOf s.opc s.opa → exec .isproot s = .next (afterSuccess 0 0 0 s))

/-- R153, R154: `FINDROOTS` lists exactly the primitive roots of `1 .. n-1`, in ascending order, in `BUF[0 .. k-1]`, and
leaves the other words. -/
def Obligations.FindrootsListsThePrimitiveRoots : Prop :=
  decode 0x11 = .ok .findroots
  ∧ ∀ s : State,
      (¬ s.opc.Prime → exec .findroots s = .next (afterError .notPrime 0 s))
      ∧ (s.opc.Prime → s.opc - 1 > s.cfg.bufDepth → exec .findroots s = .next (afterError .operand 4 s))
      ∧ (s.opc.Prime → s.opc - 1 ≤ s.cfg.bufDepth →
          ∃ (roots : List Nat) (m : Memory),
            exec .findroots s = .next { afterSuccess roots.length 0 0 s with buf := m }
            ∧ roots.Pairwise (· < ·) ∧ (∀ g, g ∈ roots ↔ 1 ≤ g ∧ g ≤ s.opc - 1 ∧ PrimitiveRootOf s.opc g)
            ∧ (∀ i, (h : i < roots.length) → bufAt m i = some roots[i])
            ∧ ∀ i, roots.length ≤ i → bufAt m i = bufAt s.buf i)

/-- R156: the trace of `g`: the powers `g^1, g^2, ..` modulo `n`, ending with the first that is 1, or at `g^(n-1)`. -/
def Obligations.TraceIsThePowersUpToTheFirstOne : Prop :=
  ∀ g n : Nat, 2 ≤ n →
    1 ≤ (powerTrace g n).length ∧ (powerTrace g n).length ≤ n - 1
    ∧ (∀ i, (h : i < (powerTrace g n).length) → (powerTrace g n)[i] = g ^ (i + 1) % n)
    ∧ (∀ i, i + 1 < (powerTrace g n).length → g ^ (i + 1) % n ≠ 1)
    ∧ ((powerTrace g n).length < n - 1 → g ^ (powerTrace g n).length % n = 1)

/-- R157: `TRACE` writes the trace of `g` to `BUF[0 .. L-1]`, its length and the primitive-root flag to the results, and
leaves the other words. -/
def Obligations.TraceWritesThePowers : Prop :=
  decode 0x12 = .ok .trace
  ∧ ∀ s : State,
      (¬ s.opc.Prime → exec .trace s = .next (afterError .notPrime 0 s))
      ∧ (s.opc.Prime → s.opc - 1 > s.cfg.bufDepth → exec .trace s = .next (afterError .operand 4 s))
      ∧ (s.opc.Prime → s.opc - 1 ≤ s.cfg.bufDepth →
          ∃ (len flag : Nat) (m : Memory),
            exec .trace s = .next { afterSuccess len flag 0 s with buf := m }
            ∧ 1 ≤ len ∧ len ≤ s.opc - 1
            ∧ (∀ k, 1 ≤ k → k < len → s.opa ^ k % s.opc ≠ 1) ∧ (len < s.opc - 1 → s.opa ^ len % s.opc = 1)
            ∧ (PrimitiveRootOf s.opc s.opa → flag = 1) ∧ (¬ PrimitiveRootOf s.opc s.opa → flag = 0)
            ∧ (∀ i, i < len → bufAt m i = some (s.opa ^ (i + 1) % s.opc))
            ∧ ∀ i, len ≤ i → bufAt m i = bufAt s.buf i)

/-! ### RSA Engine -/

/-- R172, R173: the first step of `GENKEY` makes the operand checks, in this order, before any draw. -/
def Obligations.GenkeyChecksItsRange : Prop :=
  decode 0x20 = .ok .genkey
  ∧ ∀ s : State, s.genkey = none →
      (s.opa > s.opb → exec .genkey s = .next (afterError .operand 1 s))
      ∧ (s.opa ≤ s.opb → 2 ^ (s.cfg.width / 2) ≤ s.opb → exec .genkey s = .next (afterError .operand 5 s))

/-- R117, R173: in every phase of `GENKEY` a draw that is due is not made when an abort is requested, or when the retry
ceiling is reached. -/
def Obligations.GenkeyHonoursAbortAndCeiling : Prop :=
  ∀ (s : State) (r : Nat × Nat), s.cmd = 0x20 → nextDrawRange s = some r → s.outstanding = none →
    (s.abortreq = true → exec .genkey s = .next (afterError .aborted 0 s))
    ∧ (s.abortreq = false → s.retrylim ≠ 0 → s.tries = s.retrylim → exec .genkey s = .next (afterError .timeout 0 s))

/-- R173, phase `P` (and the first step): a composite value leaves the phase, a prime one becomes `p`. The case of a late
answer to an outstanding request, drawn with no new pre-draw check, is the model's (notes/assumptions/5.md). -/
def Obligations.GenkeyFirstPrime : Prop :=
  ∀ (s t : State) (v : Nat),
    (s.genkey = none ∧ s.opb < 2 ^ (s.cfg.width / 2)) ∨ s.genkey = some .p → DrawGives s s.opa s.opb v t →
    (v.Prime → exec .genkey s = .next { t with genkey := some (.q v) })
    ∧ (¬ v.Prime → exec .genkey s = .next { t with genkey := some .p })

/-- R173, R174, phase `Q`: a composite value or `p` again leaves the phase; another prime becomes `q`, and then `EFIX`
coprime to `phi` completes the command in this step, `phi < 3` ends it with `ERR_KEYGEN`, and else phase `E` begins. The
case of a late answer to an outstanding request, drawn with no new pre-draw check, is the model's (notes/assumptions/5.md). -/
def Obligations.GenkeySecondPrime : Prop :=
  ∀ (s t : State) (p v : Nat), s.genkey = some (.q p) → p.Prime → DrawGives s s.opa s.opb v t →
    ((¬ v.Prime ∨ v = p) → exec .genkey s = .next t)
    ∧ (v.Prime → v ≠ p →
        (Nat.gcd s.efix ((p - 1) * (v - 1)) = 1 →
          ∃ d, InverseMod s.efix ((p - 1) * (v - 1)) d ∧ exec .genkey s = .next (afterSuccess s.efix d (p * v) t))
        ∧ (Nat.gcd s.efix ((p - 1) * (v - 1)) ≠ 1 → (p - 1) * (v - 1) < 3 →
          exec .genkey s = .next (afterError .keygen 0 t))
        ∧ (Nat.gcd s.efix ((p - 1) * (v - 1)) ≠ 1 → 3 ≤ (p - 1) * (v - 1) →
          exec .genkey s = .next { t with genkey := some (.e p v ((p - 1) * (v - 1))) }))

/-- R173, phase `E`: a value that is not coprime to `phi` leaves the phase, a coprime one is the public exponent. The
case of a late answer to an outstanding request, drawn with no new pre-draw check, is the model's (notes/assumptions/5.md). -/
def Obligations.GenkeyPublicExponent : Prop :=
  ∀ (s t : State) (p q phi v : Nat), s.genkey = some (.e p q phi) → 3 ≤ phi → DrawGives s 2 (phi - 1) v t →
    (Nat.gcd v phi ≠ 1 → exec .genkey s = .next t)
    ∧ (Nat.gcd v phi = 1 → ∃ d, InverseMod v phi d ∧ exec .genkey s = .next (afterSuccess v d (p * q) t))

/-- R175: what a success completion of `GENKEY` guarantees. -/
def Obligations.GenkeySuccessIsAKeypair : Prop :=
  ∀ s t : State, Inv s → s.busy = true → s.cmd = 0x20 → exec .genkey s = .next t → t.busy = false → t.errcode = .none →
    ∃ p q phi, PrimeOfRange s p ∧ PrimeOfRange s q ∧ p ≠ q ∧ t.res2 = p * q ∧ phi = (p - 1) * (q - 1)
      ∧ Nat.gcd t.res0 phi = 1 ∧ InverseMod t.res0 phi t.res1
      ∧ (Nat.gcd s.efix phi = 1 → t.res0 = s.efix)
      ∧ (Nat.gcd s.efix phi ≠ 1 → 2 ≤ t.res0 ∧ t.res0 ≤ phi - 1)

/-- R171: the round-trip law of every keypair that `GENKEY` makes. -/
def Obligations.KeypairRoundTrip : Prop :=
  ∀ e d n m : Nat, KeyFromGenkey e d n → m < n → (m ^ e % n) ^ d % n = m

/-- R178, R179: `ENCRYPT`: the checks in their order, the lowest offending index, and the words it writes; an error
writes none. That an unwritten message word enters as a free value, the same in both passes, and that free values are
counted, is the model's choice (notes/assumptions/3.md). -/
def Obligations.EncryptMapsThePrefix : Prop :=
  decode 0x21 = .ok .encrypt
  ∧ ∀ s : State,
      (s.opc = 0 → exec .encrypt s = .next (afterError .operand 2 s))
      ∧ (s.opc ≠ 0 → s.opa > s.cfg.bufDepth → exec .encrypt s = .next (afterError .operand 3 s))
      ∧ (∀ i, s.opc ≠ 0 → s.opa ≤ s.cfg.bufDepth → i < s.opa → s.opc ≤ bufRead s i → (∀ j, j < i → bufRead s j < s.opc) →
          ∃ k, exec .encrypt s = .next { afterError .msgTooLarge i s with freeCount := k }
            ∧ ((∀ j, j < s.opa → bufAt s.buf j ≠ none) → k = s.freeCount))
      ∧ (s.opc ≠ 0 → s.opa ≤ s.cfg.bufDepth → (∀ i, i < s.opa → bufRead s i < s.opc) →
          ∃ m k, exec .encrypt s = .next { afterSuccess s.opa 0 0 s with buf := m, freeCount := k }
            ∧ (∀ i, i < s.opa → bufAt m i = some (bufRead s i ^ s.opb % s.opc))
            ∧ (∀ i, s.opa ≤ i → bufAt m i = bufAt s.buf i)
            ∧ ((∀ j, j < s.opa → bufAt s.buf j ≠ none) → k = s.freeCount))

/-- R180: `DECRYPT`: the same map with no check of the words. That an unwritten word enters as a free value, and that free
values are counted, is the model's choice (notes/assumptions/3.md). -/
def Obligations.DecryptMapsThePrefix : Prop :=
  decode 0x22 = .ok .decrypt
  ∧ ∀ s : State,
      (s.opc = 0 → exec .decrypt s = .next (afterError .operand 2 s))
      ∧ (s.opc ≠ 0 → s.opa > s.cfg.bufDepth → exec .decrypt s = .next (afterError .operand 3 s))
      ∧ (s.opc ≠ 0 → s.opa ≤ s.cfg.bufDepth →
          ∃ m k, exec .decrypt s = .next { afterSuccess s.opa 0 0 s with buf := m, freeCount := k }
            ∧ (∀ i, i < s.opa → bufAt m i = some (bufRead s i ^ s.opb % s.opc))
            ∧ (∀ i, s.opa ≤ i → bufAt m i = bufAt s.buf i)
            ∧ ((∀ j, j < s.opa → bufAt s.buf j ≠ none) → k = s.freeCount))

/-- R181: with a key that `GENKEY` made, `DECRYPT` after a successful `ENCRYPT` restores the message word for word, and
with it the whole buffer. -/
def Obligations.DecryptRestoresTheMessage : Prop :=
  ∀ (e d n : Nat) (s t u : State), KeyFromGenkey e d n → s.opb = e → s.opc = n → s.errcode = .none →
    (∀ i, i < s.opa → bufAt s.buf i ≠ none) → exec .encrypt s = .next t → t.errcode = .none →
    exec .decrypt { t with opb := d } = .next u →
    u.errcode = .none ∧ ∀ i, bufAt u.buf i = bufAt s.buf i
end

