-- ==== Sys2Proof/Laws/Arith.lean ====
section
/-! SUPPORT. One lemma per arithmetic loop: what the loop computes from any of its states. -/

namespace Sys2Proof.Machine

/-- With fuel enough, trial division from `d` finds a divisor among `d, d + 2, ..` up to the square root, or none. -/
theorem noDivisorFrom_iff (n : Nat) : ∀ (fuel d : Nat), n < (d + 2 * fuel) * (d + 2 * fuel) →
    (noDivisorFrom n fuel d = true ↔ ∀ k, (d + 2 * k) * (d + 2 * k) ≤ n → n % (d + 2 * k) ≠ 0)
  | 0, d, h => by
    simp only [noDivisorFrom, true_iff]
    intro k hk
    have : d * d ≤ (d + 2 * k) * (d + 2 * k) := Nat.mul_le_mul (by omega) (by omega)
    simp at h
    omega
  | fuel + 1, d, h => by
    have ih := noDivisorFrom_iff n fuel (d + 2) (by rw [show d + 2 + 2 * fuel = d + 2 * (fuel + 1) by ring]; exact h)
    simp only [noDivisorFrom]
    split_ifs with h1 h2
    · simp only [false_iff, not_forall]
      exact ⟨0, by simpa using h1, by simpa using h2⟩
    · rw [ih]
      constructor
      · intro H k hk
        cases k with
        | zero => simpa using h2
        | succ k => simpa [show d + 2 * (k + 1) = d + 2 + 2 * k by ring] using H k (by
            rwa [show d + 2 + 2 * k = d + 2 * (k + 1) by ring])
      · intro H k hk
        have := H (k + 1) (by rwa [show d + 2 * (k + 1) = d + 2 + 2 * k by ring])
        rwa [show d + 2 * (k + 1) = d + 2 + 2 * k by ring] at this
    · simp only [true_iff]
      intro k hk
      have : d * d ≤ (d + 2 * k) * (d + 2 * k) := Nat.mul_le_mul (by omega) (by omega)
      omega

/-- With fuel enough, the loop of repeated squaring multiplies its accumulator by `s^k`, modulo `m`. -/
theorem squareMultiply_eq (m : Nat) : ∀ (fuel r s k : Nat), k ≤ fuel → r < m →
    squareMultiply m fuel r s k = r * s ^ k % m
  | 0, r, s, k, hk, hr => by
    obtain rfl : k = 0 := by omega
    simp [squareMultiply, Nat.mod_eq_of_lt hr]
  | fuel + 1, r, s, k, hk, hr => by
    simp only [squareMultiply]
    split_ifs with h0 h1
    · subst h0; simp [Nat.mod_eq_of_lt hr]
    · have hm : 0 < m := by omega
      rw [squareMultiply_eq m fuel _ _ _ (by omega) (Nat.mod_lt _ hm)]
      conv_rhs => rw [show k = 2 * (k / 2) + 1 by omega, pow_succ, pow_mul, pow_two]
      calc r * s % m * (s * s % m) ^ (k / 2) % m
          = r * s * (s * s) ^ (k / 2) % m := by
            rw [Nat.mul_mod, Nat.mod_mod, Nat.pow_mod, Nat.mod_mod, ← Nat.pow_mod, ← Nat.mul_mod]
        _ = r * ((s * s) ^ (k / 2) * s) % m := by congr 1; ring
    · have hm : 0 < m := by omega
      rw [squareMultiply_eq m fuel _ _ _ (by omega) hr]
      conv_rhs => rw [show k = 2 * (k / 2) by omega, pow_mul, pow_two]
      rw [Nat.mul_mod, Nat.pow_mod, Nat.mod_mod, ← Nat.pow_mod, ← Nat.mul_mod]

/-- With fuel enough, the loop of Euclid ends with the greatest common divisor, and keeps the congruences `r0 ≡ t0 * a`
and `r1 ≡ t1 * a` modulo `m` (R137). -/
theorem euclid_spec (a m : Int) : ∀ (fuel r0 r1 : Nat) (t0 t1 : Int), r1 < fuel →
    m ∣ r0 - t0 * a → m ∣ r1 - t1 * a →
    (euclid fuel r0 r1 t0 t1).1 = Nat.gcd r0 r1
      ∧ m ∣ ((euclid fuel r0 r1 t0 t1).1 : Int) - (euclid fuel r0 r1 t0 t1).2 * a
  | fuel + 1, r0, r1, t0, t1, hf, h0, h1 => by
    simp only [euclid]
    split_ifs with hr
    · subst hr; exact ⟨by simp, h0⟩
    · have hmod : r0 - r0 / r1 * r1 = r0 % r1 := by
        have := Nat.div_add_mod' r0 r1; omega
      have hlt : r0 % r1 < r1 := Nat.mod_lt _ (by omega)
      rw [hmod]
      have hz : ((r0 % r1 : Nat) : Int) = r0 - ((r0 / r1 : Nat) : Int) * r1 := by
        have := Nat.div_add_mod' r0 r1
        have h2 : ((r0 / r1 : Nat) : Int) * (r1 : Int) + ((r0 % r1 : Nat) : Int) = r0 := by exact_mod_cast this
        omega
      have := euclid_spec a m fuel r1 (r0 % r1) t1 (t0 - ((r0 / r1 : Nat) : Int) * t1) (by omega) h1 (by
        obtain ⟨c0, e0⟩ := h0
        obtain ⟨c1, e1⟩ := h1
        exact ⟨c0 - ((r0 / r1 : Nat) : Int) * c1, by rw [hz]; linear_combination e0 - ((r0 / r1 : Nat) : Int) * e1⟩)
      refine ⟨?_, this.2⟩
      rw [this.1, Nat.gcd_comm r0 r1, Nat.gcd_rec r1 r0, Nat.gcd_comm]

/-- A bit of the set of powers is set exactly for the members: those seen before, and the next `count` powers. -/
theorem testBit_powerSet (g n : Nat) : ∀ (count v seen x : Nat),
    (powerSet g n count (v % n) seen).testBit x = true
      ↔ seen.testBit x = true ∨ ∃ k, 1 ≤ k ∧ k ≤ count ∧ v * g ^ k % n = x
  | 0, v, seen, x => by
    simp only [powerSet]
    constructor
    · exact .inl
    · rintro (h | ⟨k, h1, h2, -⟩)
      · exact h
      · omega
  | count + 1, v, seen, x => by
    simp only [powerSet]
    rw [show v % n * g % n = v * g % n by rw [Nat.mul_mod, Nat.mod_mod, ← Nat.mul_mod],
      testBit_powerSet g n count (v * g)]
    rw [Nat.testBit_or, Bool.or_eq_true, Nat.one_shiftLeft, Nat.testBit_two_pow]
    constructor
    · rintro ((h | h) | ⟨k, h1, h2, h3⟩)
      · exact .inl h
      · exact .inr ⟨1, le_refl _, by omega, by simpa using h⟩
      · exact .inr ⟨k + 1, by omega, by omega, by rw [pow_succ', ← mul_assoc]; exact h3⟩
    · rintro (h | ⟨k, h1, h2, h3⟩)
      · exact .inl (.inl h)
      · obtain ⟨j, rfl⟩ : ∃ j, k = j + 1 := ⟨k - 1, by omega⟩
        rcases Nat.eq_zero_or_pos j with rfl | hj
        · exact .inl (.inr (by simpa using h3))
        · exact .inr ⟨j, hj, by omega, by rw [pow_succ', ← mul_assoc] at h3; exact h3⟩

/-- The entries of a trace, its length, and where it ends. -/
theorem traceFrom_spec (g n : Nat) : ∀ (count v : Nat),
    (traceFrom g n count (v % n)).length ≤ count
    ∧ (0 < count → 0 < (traceFrom g n count (v % n)).length)
    ∧ (∀ i, (h : i < (traceFrom g n count (v % n)).length) →
        (traceFrom g n count (v % n))[i] = v * g ^ (i + 1) % n)
    ∧ (∀ i, i + 1 < (traceFrom g n count (v % n)).length → v * g ^ (i + 1) % n ≠ 1)
    ∧ ((traceFrom g n count (v % n)).length < count → v * g ^ (traceFrom g n count (v % n)).length % n = 1)
  | 0, v => by simp [traceFrom]
  | count + 1, v => by
    have hv : v % n * g % n = v * g % n := by rw [Nat.mul_mod, Nat.mod_mod, ← Nat.mul_mod]
    simp only [traceFrom, hv]
    split_ifs with h1
    · refine ⟨by simp, by simp, ?_, by simp, by simpa using fun _ => h1⟩
      intro i hi
      obtain rfl : i = 0 := by simpa using hi
      simp
    · obtain ⟨a, b, c, d, e⟩ := traceFrom_spec g n count (v * g)
      refine ⟨by simpa using a, by simp, ?_, ?_, ?_⟩
      · intro i hi
        cases i with
        | zero => simp
        | succ i =>
          simp only [List.getElem_cons_succ]
          rw [c i (by simpa using hi), pow_succ' g (i + 1), ← mul_assoc]
      · intro i hi
        cases i with
        | zero => simpa using h1
        | succ i =>
          have := d i (by simpa using hi)
          rwa [pow_succ' g (i + 1), ← mul_assoc]
      · intro h
        have := e (by simpa using h)
        rw [List.length_cons, pow_succ', ← mul_assoc]
        exact this

end Sys2Proof.Machine
end

