-- ==== Sys2Proof/Laws/State.lean ====
section
/-! SUPPORT. The fields of the state after each update: one lemma per field and update, true by `rfl`. -/

namespace Sys2Proof.Machine

/-! ### `complete` -/

@[simp] theorem complete_opa (r0 r1 r2 : Nat) (s : State) : (complete r0 r1 r2 s).opa = s.opa := rfl
@[simp] theorem complete_opb (r0 r1 r2 : Nat) (s : State) : (complete r0 r1 r2 s).opb = s.opb := rfl
@[simp] theorem complete_opc (r0 r1 r2 : Nat) (s : State) : (complete r0 r1 r2 s).opc = s.opc := rfl
@[simp] theorem complete_res0 (r0 r1 r2 : Nat) (s : State) : (complete r0 r1 r2 s).res0 = r0 := rfl
@[simp] theorem complete_res1 (r0 r1 r2 : Nat) (s : State) : (complete r0 r1 r2 s).res1 = r1 := rfl
@[simp] theorem complete_res2 (r0 r1 r2 : Nat) (s : State) : (complete r0 r1 r2 s).res2 = r2 := rfl
@[simp] theorem complete_cmd (r0 r1 r2 : Nat) (s : State) : (complete r0 r1 r2 s).cmd = s.cmd := rfl
@[simp] theorem complete_busy (r0 r1 r2 : Nat) (s : State) : (complete r0 r1 r2 s).busy = false := rfl
@[simp] theorem complete_done (r0 r1 r2 : Nat) (s : State) : (complete r0 r1 r2 s).done = true := rfl
@[simp] theorem complete_accerr (r0 r1 r2 : Nat) (s : State) : (complete r0 r1 r2 s).accerr = s.accerr := rfl
@[simp] theorem complete_errcode (r0 r1 r2 : Nat) (s : State) : (complete r0 r1 r2 s).errcode = s.errcode := rfl
@[simp] theorem complete_ie (r0 r1 r2 : Nat) (s : State) : (complete r0 r1 r2 s).ie = s.ie := rfl
@[simp] theorem complete_errinfo (r0 r1 r2 : Nat) (s : State) : (complete r0 r1 r2 s).errinfo = s.errinfo := rfl
@[simp] theorem complete_retrylim (r0 r1 r2 : Nat) (s : State) : (complete r0 r1 r2 s).retrylim = s.retrylim := rfl
@[simp] theorem complete_efix (r0 r1 r2 : Nat) (s : State) : (complete r0 r1 r2 s).efix = s.efix := rfl
@[simp] theorem complete_tries (r0 r1 r2 : Nat) (s : State) : (complete r0 r1 r2 s).tries = s.tries := rfl
@[simp] theorem complete_buf (r0 r1 r2 : Nat) (s : State) : (complete r0 r1 r2 s).buf = s.buf := rfl
@[simp] theorem complete_abortreq (r0 r1 r2 : Nat) (s : State) : (complete r0 r1 r2 s).abortreq = false := rfl
@[simp] theorem complete_genkey (r0 r1 r2 : Nat) (s : State) : (complete r0 r1 r2 s).genkey = none := rfl
@[simp] theorem complete_hRdata (r0 r1 r2 : Nat) (s : State) : (complete r0 r1 r2 s).hRdata = s.hRdata := rfl
@[simp] theorem complete_cfg (r0 r1 r2 : Nat) (s : State) : (complete r0 r1 r2 s).cfg = s.cfg := rfl
@[simp] theorem complete_script (r0 r1 r2 : Nat) (s : State) : (complete r0 r1 r2 s).script = s.script := rfl
@[simp] theorem complete_source (r0 r1 r2 : Nat) (s : State) : (complete r0 r1 r2 s).source = s.source := rfl
@[simp] theorem complete_outstanding (r0 r1 r2 : Nat) (s : State) : (complete r0 r1 r2 s).outstanding = s.outstanding := rfl
@[simp] theorem complete_freeCount (r0 r1 r2 : Nat) (s : State) : (complete r0 r1 r2 s).freeCount = s.freeCount := rfl

/-! ### `completeWriting` -/

@[simp] theorem completeWriting_opa (r0 r1 r2 : Nat) (ws : List Nat) (s : State) : (completeWriting r0 r1 r2 ws s).opa = s.opa := rfl
@[simp] theorem completeWriting_opb (r0 r1 r2 : Nat) (ws : List Nat) (s : State) : (completeWriting r0 r1 r2 ws s).opb = s.opb := rfl
@[simp] theorem completeWriting_opc (r0 r1 r2 : Nat) (ws : List Nat) (s : State) : (completeWriting r0 r1 r2 ws s).opc = s.opc := rfl
@[simp] theorem completeWriting_res0 (r0 r1 r2 : Nat) (ws : List Nat) (s : State) : (completeWriting r0 r1 r2 ws s).res0 = r0 := rfl
@[simp] theorem completeWriting_res1 (r0 r1 r2 : Nat) (ws : List Nat) (s : State) : (completeWriting r0 r1 r2 ws s).res1 = r1 := rfl
@[simp] theorem completeWriting_res2 (r0 r1 r2 : Nat) (ws : List Nat) (s : State) : (completeWriting r0 r1 r2 ws s).res2 = r2 := rfl
@[simp] theorem completeWriting_cmd (r0 r1 r2 : Nat) (ws : List Nat) (s : State) : (completeWriting r0 r1 r2 ws s).cmd = s.cmd := rfl
@[simp] theorem completeWriting_busy (r0 r1 r2 : Nat) (ws : List Nat) (s : State) : (completeWriting r0 r1 r2 ws s).busy = false := rfl
@[simp] theorem completeWriting_done (r0 r1 r2 : Nat) (ws : List Nat) (s : State) : (completeWriting r0 r1 r2 ws s).done = true := rfl
@[simp] theorem completeWriting_accerr (r0 r1 r2 : Nat) (ws : List Nat) (s : State) : (completeWriting r0 r1 r2 ws s).accerr = s.accerr := rfl
@[simp] theorem completeWriting_errcode (r0 r1 r2 : Nat) (ws : List Nat) (s : State) : (completeWriting r0 r1 r2 ws s).errcode = s.errcode := rfl
@[simp] theorem completeWriting_ie (r0 r1 r2 : Nat) (ws : List Nat) (s : State) : (completeWriting r0 r1 r2 ws s).ie = s.ie := rfl
@[simp] theorem completeWriting_errinfo (r0 r1 r2 : Nat) (ws : List Nat) (s : State) : (completeWriting r0 r1 r2 ws s).errinfo = s.errinfo := rfl
@[simp] theorem completeWriting_retrylim (r0 r1 r2 : Nat) (ws : List Nat) (s : State) : (completeWriting r0 r1 r2 ws s).retrylim = s.retrylim := rfl
@[simp] theorem completeWriting_efix (r0 r1 r2 : Nat) (ws : List Nat) (s : State) : (completeWriting r0 r1 r2 ws s).efix = s.efix := rfl
@[simp] theorem completeWriting_tries (r0 r1 r2 : Nat) (ws : List Nat) (s : State) : (completeWriting r0 r1 r2 ws s).tries = s.tries := rfl
@[simp] theorem completeWriting_buf (r0 r1 r2 : Nat) (ws : List Nat) (s : State) : (completeWriting r0 r1 r2 ws s).buf = bufPutFrom s.buf 0 ws := rfl
@[simp] theorem completeWriting_abortreq (r0 r1 r2 : Nat) (ws : List Nat) (s : State) : (completeWriting r0 r1 r2 ws s).abortreq = false := rfl
@[simp] theorem completeWriting_genkey (r0 r1 r2 : Nat) (ws : List Nat) (s : State) : (completeWriting r0 r1 r2 ws s).genkey = none := rfl
@[simp] theorem completeWriting_hRdata (r0 r1 r2 : Nat) (ws : List Nat) (s : State) : (completeWriting r0 r1 r2 ws s).hRdata = s.hRdata := rfl
@[simp] theorem completeWriting_cfg (r0 r1 r2 : Nat) (ws : List Nat) (s : State) : (completeWriting r0 r1 r2 ws s).cfg = s.cfg := rfl
@[simp] theorem completeWriting_script (r0 r1 r2 : Nat) (ws : List Nat) (s : State) : (completeWriting r0 r1 r2 ws s).script = s.script := rfl
@[simp] theorem completeWriting_source (r0 r1 r2 : Nat) (ws : List Nat) (s : State) : (completeWriting r0 r1 r2 ws s).source = s.source := rfl
@[simp] theorem completeWriting_outstanding (r0 r1 r2 : Nat) (ws : List Nat) (s : State) : (completeWriting r0 r1 r2 ws s).outstanding = s.outstanding := rfl
@[simp] theorem completeWriting_freeCount (r0 r1 r2 : Nat) (ws : List Nat) (s : State) : (completeWriting r0 r1 r2 ws s).freeCount = s.freeCount := rfl

/-! ### `raiseError` -/

@[simp] theorem raiseError_opa (e : CmdError) (s : State) : (raiseError e s).opa = s.opa := rfl
@[simp] theorem raiseError_opb (e : CmdError) (s : State) : (raiseError e s).opb = s.opb := rfl
@[simp] theorem raiseError_opc (e : CmdError) (s : State) : (raiseError e s).opc = s.opc := rfl
@[simp] theorem raiseError_res0 (e : CmdError) (s : State) : (raiseError e s).res0 = s.res0 := rfl
@[simp] theorem raiseError_res1 (e : CmdError) (s : State) : (raiseError e s).res1 = s.res1 := rfl
@[simp] theorem raiseError_res2 (e : CmdError) (s : State) : (raiseError e s).res2 = s.res2 := rfl
@[simp] theorem raiseError_cmd (e : CmdError) (s : State) : (raiseError e s).cmd = s.cmd := rfl
@[simp] theorem raiseError_busy (e : CmdError) (s : State) : (raiseError e s).busy = false := rfl
@[simp] theorem raiseError_done (e : CmdError) (s : State) : (raiseError e s).done = true := rfl
@[simp] theorem raiseError_accerr (e : CmdError) (s : State) : (raiseError e s).accerr = s.accerr := rfl
@[simp] theorem raiseError_errcode (e : CmdError) (s : State) : (raiseError e s).errcode = errorCode e := rfl
@[simp] theorem raiseError_ie (e : CmdError) (s : State) : (raiseError e s).ie = s.ie := rfl
@[simp] theorem raiseError_errinfo (e : CmdError) (s : State) : (raiseError e s).errinfo = errorInfo e := rfl
@[simp] theorem raiseError_retrylim (e : CmdError) (s : State) : (raiseError e s).retrylim = s.retrylim := rfl
@[simp] theorem raiseError_efix (e : CmdError) (s : State) : (raiseError e s).efix = s.efix := rfl
@[simp] theorem raiseError_tries (e : CmdError) (s : State) : (raiseError e s).tries = s.tries := rfl
@[simp] theorem raiseError_buf (e : CmdError) (s : State) : (raiseError e s).buf = s.buf := rfl
@[simp] theorem raiseError_abortreq (e : CmdError) (s : State) : (raiseError e s).abortreq = false := rfl
@[simp] theorem raiseError_genkey (e : CmdError) (s : State) : (raiseError e s).genkey = none := rfl
@[simp] theorem raiseError_hRdata (e : CmdError) (s : State) : (raiseError e s).hRdata = s.hRdata := rfl
@[simp] theorem raiseError_cfg (e : CmdError) (s : State) : (raiseError e s).cfg = s.cfg := rfl
@[simp] theorem raiseError_script (e : CmdError) (s : State) : (raiseError e s).script = s.script := rfl
@[simp] theorem raiseError_source (e : CmdError) (s : State) : (raiseError e s).source = s.source := rfl
@[simp] theorem raiseError_outstanding (e : CmdError) (s : State) : (raiseError e s).outstanding = s.outstanding := rfl
@[simp] theorem raiseError_freeCount (e : CmdError) (s : State) : (raiseError e s).freeCount = s.freeCount := rfl

/-! ### `startCommand` -/

@[simp] theorem startCommand_opa (c : Nat) (s : State) : (startCommand c s).opa = s.opa := rfl
@[simp] theorem startCommand_opb (c : Nat) (s : State) : (startCommand c s).opb = s.opb := rfl
@[simp] theorem startCommand_opc (c : Nat) (s : State) : (startCommand c s).opc = s.opc := rfl
@[simp] theorem startCommand_res0 (c : Nat) (s : State) : (startCommand c s).res0 = s.res0 := rfl
@[simp] theorem startCommand_res1 (c : Nat) (s : State) : (startCommand c s).res1 = s.res1 := rfl
@[simp] theorem startCommand_res2 (c : Nat) (s : State) : (startCommand c s).res2 = s.res2 := rfl
@[simp] theorem startCommand_cmd (c : Nat) (s : State) : (startCommand c s).cmd = c := rfl
@[simp] theorem startCommand_busy (c : Nat) (s : State) : (startCommand c s).busy = true := rfl
@[simp] theorem startCommand_done (c : Nat) (s : State) : (startCommand c s).done = false := rfl
@[simp] theorem startCommand_accerr (c : Nat) (s : State) : (startCommand c s).accerr = s.accerr := rfl
@[simp] theorem startCommand_errcode (c : Nat) (s : State) : (startCommand c s).errcode = .none := rfl
@[simp] theorem startCommand_ie (c : Nat) (s : State) : (startCommand c s).ie = s.ie := rfl
@[simp] theorem startCommand_errinfo (c : Nat) (s : State) : (startCommand c s).errinfo = 0 := rfl
@[simp] theorem startCommand_retrylim (c : Nat) (s : State) : (startCommand c s).retrylim = s.retrylim := rfl
@[simp] theorem startCommand_efix (c : Nat) (s : State) : (startCommand c s).efix = s.efix := rfl
@[simp] theorem startCommand_tries (c : Nat) (s : State) : (startCommand c s).tries = 0 := rfl
@[simp] theorem startCommand_buf (c : Nat) (s : State) : (startCommand c s).buf = s.buf := rfl
@[simp] theorem startCommand_abortreq (c : Nat) (s : State) : (startCommand c s).abortreq = false := rfl
@[simp] theorem startCommand_genkey (c : Nat) (s : State) : (startCommand c s).genkey = s.genkey := rfl
@[simp] theorem startCommand_hRdata (c : Nat) (s : State) : (startCommand c s).hRdata = s.hRdata := rfl
@[simp] theorem startCommand_cfg (c : Nat) (s : State) : (startCommand c s).cfg = s.cfg := rfl
@[simp] theorem startCommand_script (c : Nat) (s : State) : (startCommand c s).script = s.script := rfl
@[simp] theorem startCommand_source (c : Nat) (s : State) : (startCommand c s).source = s.source := rfl
@[simp] theorem startCommand_outstanding (c : Nat) (s : State) : (startCommand c s).outstanding = s.outstanding := rfl
@[simp] theorem startCommand_freeCount (c : Nat) (s : State) : (startCommand c s).freeCount = s.freeCount := rfl

/-! ### `acknowledge` -/

@[simp] theorem acknowledge_opa (v : Nat) (s : State) : (acknowledge v s).opa = s.opa := rfl
@[simp] theorem acknowledge_opb (v : Nat) (s : State) : (acknowledge v s).opb = s.opb := rfl
@[simp] theorem acknowledge_opc (v : Nat) (s : State) : (acknowledge v s).opc = s.opc := rfl
@[simp] theorem acknowledge_res0 (v : Nat) (s : State) : (acknowledge v s).res0 = s.res0 := rfl
@[simp] theorem acknowledge_res1 (v : Nat) (s : State) : (acknowledge v s).res1 = s.res1 := rfl
@[simp] theorem acknowledge_res2 (v : Nat) (s : State) : (acknowledge v s).res2 = s.res2 := rfl
@[simp] theorem acknowledge_cmd (v : Nat) (s : State) : (acknowledge v s).cmd = s.cmd := rfl
@[simp] theorem acknowledge_busy (v : Nat) (s : State) : (acknowledge v s).busy = s.busy := rfl
@[simp] theorem acknowledge_done (v : Nat) (s : State) : (acknowledge v s).done = (s.done && !v.testBit 1) := rfl
@[simp] theorem acknowledge_accerr (v : Nat) (s : State) : (acknowledge v s).accerr = (s.accerr && !v.testBit 3) := rfl
@[simp] theorem acknowledge_errcode (v : Nat) (s : State) : (acknowledge v s).errcode = s.errcode := rfl
@[simp] theorem acknowledge_ie (v : Nat) (s : State) : (acknowledge v s).ie = s.ie := rfl
@[simp] theorem acknowledge_errinfo (v : Nat) (s : State) : (acknowledge v s).errinfo = s.errinfo := rfl
@[simp] theorem acknowledge_retrylim (v : Nat) (s : State) : (acknowledge v s).retrylim = s.retrylim := rfl
@[simp] theorem acknowledge_efix (v : Nat) (s : State) : (acknowledge v s).efix = s.efix := rfl
@[simp] theorem acknowledge_tries (v : Nat) (s : State) : (acknowledge v s).tries = s.tries := rfl
@[simp] theorem acknowledge_buf (v : Nat) (s : State) : (acknowledge v s).buf = s.buf := rfl
@[simp] theorem acknowledge_abortreq (v : Nat) (s : State) : (acknowledge v s).abortreq = s.abortreq := rfl
@[simp] theorem acknowledge_genkey (v : Nat) (s : State) : (acknowledge v s).genkey = s.genkey := rfl
@[simp] theorem acknowledge_hRdata (v : Nat) (s : State) : (acknowledge v s).hRdata = s.hRdata := rfl
@[simp] theorem acknowledge_cfg (v : Nat) (s : State) : (acknowledge v s).cfg = s.cfg := rfl
@[simp] theorem acknowledge_script (v : Nat) (s : State) : (acknowledge v s).script = s.script := rfl
@[simp] theorem acknowledge_source (v : Nat) (s : State) : (acknowledge v s).source = s.source := rfl
@[simp] theorem acknowledge_outstanding (v : Nat) (s : State) : (acknowledge v s).outstanding = s.outstanding := rfl
@[simp] theorem acknowledge_freeCount (v : Nat) (s : State) : (acknowledge v s).freeCount = s.freeCount := rfl

/-! ### `countDraw` -/

@[simp] theorem countDraw_opa (s : State) : (countDraw s).opa = s.opa := rfl
@[simp] theorem countDraw_opb (s : State) : (countDraw s).opb = s.opb := rfl
@[simp] theorem countDraw_opc (s : State) : (countDraw s).opc = s.opc := rfl
@[simp] theorem countDraw_res0 (s : State) : (countDraw s).res0 = s.res0 := rfl
@[simp] theorem countDraw_res1 (s : State) : (countDraw s).res1 = s.res1 := rfl
@[simp] theorem countDraw_res2 (s : State) : (countDraw s).res2 = s.res2 := rfl
@[simp] theorem countDraw_cmd (s : State) : (countDraw s).cmd = s.cmd := rfl
@[simp] theorem countDraw_busy (s : State) : (countDraw s).busy = s.busy := rfl
@[simp] theorem countDraw_done (s : State) : (countDraw s).done = s.done := rfl
@[simp] theorem countDraw_accerr (s : State) : (countDraw s).accerr = s.accerr := rfl
@[simp] theorem countDraw_errcode (s : State) : (countDraw s).errcode = s.errcode := rfl
@[simp] theorem countDraw_ie (s : State) : (countDraw s).ie = s.ie := rfl
@[simp] theorem countDraw_errinfo (s : State) : (countDraw s).errinfo = s.errinfo := rfl
@[simp] theorem countDraw_retrylim (s : State) : (countDraw s).retrylim = s.retrylim := rfl
@[simp] theorem countDraw_efix (s : State) : (countDraw s).efix = s.efix := rfl
@[simp] theorem countDraw_tries (s : State) : (countDraw s).tries = min (s.tries + 1) (2 ^ s.cfg.width - 1) := rfl
@[simp] theorem countDraw_buf (s : State) : (countDraw s).buf = s.buf := rfl
@[simp] theorem countDraw_abortreq (s : State) : (countDraw s).abortreq = s.abortreq := rfl
@[simp] theorem countDraw_genkey (s : State) : (countDraw s).genkey = s.genkey := rfl
@[simp] theorem countDraw_hRdata (s : State) : (countDraw s).hRdata = s.hRdata := rfl
@[simp] theorem countDraw_cfg (s : State) : (countDraw s).cfg = s.cfg := rfl
@[simp] theorem countDraw_script (s : State) : (countDraw s).script = s.script := rfl
@[simp] theorem countDraw_source (s : State) : (countDraw s).source = s.source := rfl
@[simp] theorem countDraw_outstanding (s : State) : (countDraw s).outstanding = none := rfl
@[simp] theorem countDraw_freeCount (s : State) : (countDraw s).freeCount = s.freeCount := rfl

/-! ### `accessError` -/

@[simp] theorem accessError_opa (s : State) : (accessError s).opa = s.opa := rfl
@[simp] theorem accessError_opb (s : State) : (accessError s).opb = s.opb := rfl
@[simp] theorem accessError_opc (s : State) : (accessError s).opc = s.opc := rfl
@[simp] theorem accessError_res0 (s : State) : (accessError s).res0 = s.res0 := rfl
@[simp] theorem accessError_res1 (s : State) : (accessError s).res1 = s.res1 := rfl
@[simp] theorem accessError_res2 (s : State) : (accessError s).res2 = s.res2 := rfl
@[simp] theorem accessError_cmd (s : State) : (accessError s).cmd = s.cmd := rfl
@[simp] theorem accessError_busy (s : State) : (accessError s).busy = s.busy := rfl
@[simp] theorem accessError_done (s : State) : (accessError s).done = s.done := rfl
@[simp] theorem accessError_accerr (s : State) : (accessError s).accerr = true := rfl
@[simp] theorem accessError_errcode (s : State) : (accessError s).errcode = s.errcode := rfl
@[simp] theorem accessError_ie (s : State) : (accessError s).ie = s.ie := rfl
@[simp] theorem accessError_errinfo (s : State) : (accessError s).errinfo = s.errinfo := rfl
@[simp] theorem accessError_retrylim (s : State) : (accessError s).retrylim = s.retrylim := rfl
@[simp] theorem accessError_efix (s : State) : (accessError s).efix = s.efix := rfl
@[simp] theorem accessError_tries (s : State) : (accessError s).tries = s.tries := rfl
@[simp] theorem accessError_buf (s : State) : (accessError s).buf = s.buf := rfl
@[simp] theorem accessError_abortreq (s : State) : (accessError s).abortreq = s.abortreq := rfl
@[simp] theorem accessError_genkey (s : State) : (accessError s).genkey = s.genkey := rfl
@[simp] theorem accessError_hRdata (s : State) : (accessError s).hRdata = s.hRdata := rfl
@[simp] theorem accessError_cfg (s : State) : (accessError s).cfg = s.cfg := rfl
@[simp] theorem accessError_script (s : State) : (accessError s).script = s.script := rfl
@[simp] theorem accessError_source (s : State) : (accessError s).source = s.source := rfl
@[simp] theorem accessError_outstanding (s : State) : (accessError s).outstanding = s.outstanding := rfl
@[simp] theorem accessError_freeCount (s : State) : (accessError s).freeCount = s.freeCount := rfl

/-! ### `writeCtrl` -/

@[simp] theorem writeCtrl_opa (v : Nat) (s : State) : (writeCtrl v s).opa = s.opa := rfl
@[simp] theorem writeCtrl_opb (v : Nat) (s : State) : (writeCtrl v s).opb = s.opb := rfl
@[simp] theorem writeCtrl_opc (v : Nat) (s : State) : (writeCtrl v s).opc = s.opc := rfl
@[simp] theorem writeCtrl_res0 (v : Nat) (s : State) : (writeCtrl v s).res0 = s.res0 := rfl
@[simp] theorem writeCtrl_res1 (v : Nat) (s : State) : (writeCtrl v s).res1 = s.res1 := rfl
@[simp] theorem writeCtrl_res2 (v : Nat) (s : State) : (writeCtrl v s).res2 = s.res2 := rfl
@[simp] theorem writeCtrl_cmd (v : Nat) (s : State) : (writeCtrl v s).cmd = s.cmd := rfl
@[simp] theorem writeCtrl_busy (v : Nat) (s : State) : (writeCtrl v s).busy = s.busy := rfl
@[simp] theorem writeCtrl_done (v : Nat) (s : State) : (writeCtrl v s).done = s.done := rfl
@[simp] theorem writeCtrl_accerr (v : Nat) (s : State) : (writeCtrl v s).accerr = s.accerr := rfl
@[simp] theorem writeCtrl_errcode (v : Nat) (s : State) : (writeCtrl v s).errcode = s.errcode := rfl
@[simp] theorem writeCtrl_ie (v : Nat) (s : State) : (writeCtrl v s).ie = v.testBit 0 := rfl
@[simp] theorem writeCtrl_errinfo (v : Nat) (s : State) : (writeCtrl v s).errinfo = s.errinfo := rfl
@[simp] theorem writeCtrl_retrylim (v : Nat) (s : State) : (writeCtrl v s).retrylim = s.retrylim := rfl
@[simp] theorem writeCtrl_efix (v : Nat) (s : State) : (writeCtrl v s).efix = s.efix := rfl
@[simp] theorem writeCtrl_tries (v : Nat) (s : State) : (writeCtrl v s).tries = s.tries := rfl
@[simp] theorem writeCtrl_buf (v : Nat) (s : State) : (writeCtrl v s).buf = s.buf := rfl
@[simp] theorem writeCtrl_abortreq (v : Nat) (s : State) : (writeCtrl v s).abortreq = (s.abortreq || (v.testBit 1 && s.busy)) := rfl
@[simp] theorem writeCtrl_genkey (v : Nat) (s : State) : (writeCtrl v s).genkey = s.genkey := rfl
@[simp] theorem writeCtrl_hRdata (v : Nat) (s : State) : (writeCtrl v s).hRdata = s.hRdata := rfl
@[simp] theorem writeCtrl_cfg (v : Nat) (s : State) : (writeCtrl v s).cfg = s.cfg := rfl
@[simp] theorem writeCtrl_script (v : Nat) (s : State) : (writeCtrl v s).script = s.script := rfl
@[simp] theorem writeCtrl_source (v : Nat) (s : State) : (writeCtrl v s).source = s.source := rfl
@[simp] theorem writeCtrl_outstanding (v : Nat) (s : State) : (writeCtrl v s).outstanding = s.outstanding := rfl
@[simp] theorem writeCtrl_freeCount (v : Nat) (s : State) : (writeCtrl v s).freeCount = s.freeCount := rfl

/-! ### `resetInput` -/

@[simp] theorem resetInput_opa (s : State) : (resetInput s).opa = 0 := rfl
@[simp] theorem resetInput_opb (s : State) : (resetInput s).opb = 0 := rfl
@[simp] theorem resetInput_opc (s : State) : (resetInput s).opc = 0 := rfl
@[simp] theorem resetInput_res0 (s : State) : (resetInput s).res0 = 0 := rfl
@[simp] theorem resetInput_res1 (s : State) : (resetInput s).res1 = 0 := rfl
@[simp] theorem resetInput_res2 (s : State) : (resetInput s).res2 = 0 := rfl
@[simp] theorem resetInput_cmd (s : State) : (resetInput s).cmd = 0 := rfl
@[simp] theorem resetInput_busy (s : State) : (resetInput s).busy = false := rfl
@[simp] theorem resetInput_done (s : State) : (resetInput s).done = false := rfl
@[simp] theorem resetInput_accerr (s : State) : (resetInput s).accerr = false := rfl
@[simp] theorem resetInput_errcode (s : State) : (resetInput s).errcode = .none := rfl
@[simp] theorem resetInput_ie (s : State) : (resetInput s).ie = false := rfl
@[simp] theorem resetInput_errinfo (s : State) : (resetInput s).errinfo = 0 := rfl
@[simp] theorem resetInput_retrylim (s : State) : (resetInput s).retrylim = 0 := rfl
@[simp] theorem resetInput_efix (s : State) : (resetInput s).efix = s.cfg.efixReset := rfl
@[simp] theorem resetInput_tries (s : State) : (resetInput s).tries = 0 := rfl
@[simp] theorem resetInput_buf (s : State) : (resetInput s).buf = ⟨[]⟩ := rfl
@[simp] theorem resetInput_abortreq (s : State) : (resetInput s).abortreq = false := rfl
@[simp] theorem resetInput_genkey (s : State) : (resetInput s).genkey = none := rfl
@[simp] theorem resetInput_hRdata (s : State) : (resetInput s).hRdata = s.hRdata := rfl
@[simp] theorem resetInput_cfg (s : State) : (resetInput s).cfg = s.cfg := rfl
@[simp] theorem resetInput_script (s : State) : (resetInput s).script = s.script := rfl
@[simp] theorem resetInput_source (s : State) : (resetInput s).source = s.source := rfl
@[simp] theorem resetInput_outstanding (s : State) : (resetInput s).outstanding = none := rfl
@[simp] theorem resetInput_freeCount (s : State) : (resetInput s).freeCount = s.freeCount := rfl

/-! ### `afterReading`: only the count of free values may change -/

@[simp] theorem afterReading_opa (b : Bool) (s : State) : (afterReading b s).opa = s.opa := by cases b <;> rfl
@[simp] theorem afterReading_opb (b : Bool) (s : State) : (afterReading b s).opb = s.opb := by cases b <;> rfl
@[simp] theorem afterReading_opc (b : Bool) (s : State) : (afterReading b s).opc = s.opc := by cases b <;> rfl
@[simp] theorem afterReading_res0 (b : Bool) (s : State) : (afterReading b s).res0 = s.res0 := by cases b <;> rfl
@[simp] theorem afterReading_res1 (b : Bool) (s : State) : (afterReading b s).res1 = s.res1 := by cases b <;> rfl
@[simp] theorem afterReading_res2 (b : Bool) (s : State) : (afterReading b s).res2 = s.res2 := by cases b <;> rfl
@[simp] theorem afterReading_cmd (b : Bool) (s : State) : (afterReading b s).cmd = s.cmd := by cases b <;> rfl
@[simp] theorem afterReading_busy (b : Bool) (s : State) : (afterReading b s).busy = s.busy := by cases b <;> rfl
@[simp] theorem afterReading_done (b : Bool) (s : State) : (afterReading b s).done = s.done := by cases b <;> rfl
@[simp] theorem afterReading_accerr (b : Bool) (s : State) : (afterReading b s).accerr = s.accerr := by cases b <;> rfl
@[simp] theorem afterReading_errcode (b : Bool) (s : State) : (afterReading b s).errcode = s.errcode := by cases b <;> rfl
@[simp] theorem afterReading_ie (b : Bool) (s : State) : (afterReading b s).ie = s.ie := by cases b <;> rfl
@[simp] theorem afterReading_errinfo (b : Bool) (s : State) : (afterReading b s).errinfo = s.errinfo := by cases b <;> rfl
@[simp] theorem afterReading_retrylim (b : Bool) (s : State) : (afterReading b s).retrylim = s.retrylim := by cases b <;> rfl
@[simp] theorem afterReading_efix (b : Bool) (s : State) : (afterReading b s).efix = s.efix := by cases b <;> rfl
@[simp] theorem afterReading_tries (b : Bool) (s : State) : (afterReading b s).tries = s.tries := by cases b <;> rfl
@[simp] theorem afterReading_buf (b : Bool) (s : State) : (afterReading b s).buf = s.buf := by cases b <;> rfl
@[simp] theorem afterReading_abortreq (b : Bool) (s : State) : (afterReading b s).abortreq = s.abortreq := by cases b <;> rfl
@[simp] theorem afterReading_genkey (b : Bool) (s : State) : (afterReading b s).genkey = s.genkey := by cases b <;> rfl
@[simp] theorem afterReading_hRdata (b : Bool) (s : State) : (afterReading b s).hRdata = s.hRdata := by cases b <;> rfl
@[simp] theorem afterReading_cfg (b : Bool) (s : State) : (afterReading b s).cfg = s.cfg := by cases b <;> rfl
@[simp] theorem afterReading_script (b : Bool) (s : State) : (afterReading b s).script = s.script := by cases b <;> rfl
@[simp] theorem afterReading_source (b : Bool) (s : State) : (afterReading b s).source = s.source := by cases b <;> rfl
@[simp] theorem afterReading_outstanding (b : Bool) (s : State) : (afterReading b s).outstanding = s.outstanding := by cases b <;> rfl
@[simp] theorem afterReading_true (s : State) : afterReading true s = s := rfl
@[simp] theorem afterReading_false (s : State) :
    afterReading false s = { s with freeCount := s.freeCount + 1 } := rfl

end Sys2Proof.Machine
end

