-- ==== Sys2Proof/Laws/Memory.lean ====
section
/-! SUPPORT. The laws of the buffer: a read after a write, and the canonical form kept by every memory operation. -/

namespace Sys2Proof.Machine

theorem findCell_putCell_same (cells : List (Nat × Nat)) (i : Nat) (v : Nat) :
    findCell (putCell cells i v) i = some v := by
  induction cells with
  | nil => simp [putCell, findCell]
  | cons c rest ih =>
    obtain ⟨j, w⟩ := c
    simp only [putCell]
    split_ifs with h1 h2
    · simp [findCell]
    · simp [findCell]
    · simp [findCell, h2, ih]

theorem findCell_putCell_other (cells : List (Nat × Nat)) (i k : Nat) (v : Nat) (hk : k ≠ i) :
    findCell (putCell cells i v) k = findCell cells k := by
  induction cells with
  | nil => simp [putCell, findCell, hk]
  | cons c rest ih =>
    obtain ⟨j, w⟩ := c
    simp only [putCell]
    split_ifs with h1 h2
    · simp [findCell, hk]
    · subst h2; simp [findCell, hk]
    · simp only [findCell, ih]

/-- The word written is the word read. -/
@[simp] theorem bufAt_bufPut_same (m : Memory) (i : Nat) (v : Nat) : bufAt (bufPut m i v) i = some v :=
  findCell_putCell_same m.cells i v

/-- A write leaves every other word alone. -/
theorem bufAt_bufPut_other (m : Memory) (i k : Nat) (v : Nat) (hk : k ≠ i) :
    bufAt (bufPut m i v) k = bufAt m k :=
  findCell_putCell_other m.cells i k v hk

/-- What every word of the buffer is after a run of writes from index `i` on. -/
theorem bufAt_bufPutFrom (vs : List Nat) (m : Memory) (i k : Nat) :
    bufAt (bufPutFrom m i vs) k
      = if i ≤ k ∧ k < i + vs.length then vs[k - i]? else bufAt m k := by
  induction vs generalizing m i with
  | nil => simp [bufPutFrom]
  | cons v vs ih =>
    rw [bufPutFrom, ih]
    rcases Nat.lt_trichotomy k i with h | h | h
    · rw [if_neg (by omega), if_neg (by omega), bufAt_bufPut_other _ _ _ _ (by omega)]
    · subst h
      rw [if_neg (by omega), if_pos (by simp), bufAt_bufPut_same]; simp
    · by_cases hk : k < i + 1 + vs.length
      · rw [if_pos ⟨by omega, hk⟩, if_pos ⟨by omega, by simp; omega⟩]
        rw [show k - i = (k - (i + 1)) + 1 by omega, List.getElem?_cons_succ]
      · rw [if_neg (by omega), if_neg (by simp; omega), bufAt_bufPut_other _ _ _ _ (by omega)]

theorem mem_putCell (cells : List (Nat × Nat)) (i : Nat) (v : Nat) (c : Nat × Nat)
    (h : c ∈ putCell cells i v) : c = (i, v) ∨ c ∈ cells := by
  induction cells with
  | nil => simpa [putCell] using h
  | cons d rest ih =>
    obtain ⟨j, w⟩ := d
    simp only [putCell] at h
    split_ifs at h with h1 h2
    · simpa using h
    · rcases List.mem_cons.1 h with h | h
      · exact .inl h
      · exact .inr (List.mem_cons_of_mem _ h)
    · rcases List.mem_cons.1 h with h | h
      · exact .inr (by simp [h])
      · rcases ih h with h | h
        · exact .inl h
        · exact .inr (List.mem_cons_of_mem _ h)

theorem putCell_rising (cells : List (Nat × Nat)) (i : Nat) (v : Nat)
    (h : (cells.map Prod.fst).Pairwise (· < ·)) : ((putCell cells i v).map Prod.fst).Pairwise (· < ·) := by
  induction cells with
  | nil => simp [putCell]
  | cons d rest ih =>
    obtain ⟨j, w⟩ := d
    rw [List.map_cons, List.pairwise_cons] at h
    simp only [putCell]
    split_ifs with h1 h2
    · simp only [List.map_cons, List.pairwise_cons]
      refine ⟨fun a ha => ?_, h⟩
      rcases List.mem_cons.1 ha with rfl | ha
      · exact h1
      · exact h1.trans (h.1 a ha)
    · subst h2
      simpa only [List.map_cons, List.pairwise_cons] using h
    · simp only [List.map_cons, List.pairwise_cons]
      refine ⟨fun a ha => ?_, ih h.2⟩
      obtain ⟨c, hc, rfl⟩ := List.mem_map.1 ha
      rcases mem_putCell _ _ _ _ hc with rfl | hc
      · exact lt_of_le_of_ne (not_lt.1 h1) (fun e => h2 e.symm)
      · exact h.1 _ (List.mem_map_of_mem hc)

/-- A write keeps the canonical form. -/
theorem bufPut_wf (m : Memory) (i : Nat) (v : Nat) (h : m.wf) : (bufPut m i v).wf :=
  putCell_rising m.cells i v h

/-- A run of writes keeps the canonical form. -/
theorem bufPutFrom_wf (vs : List Nat) (m : Memory) (i : Nat) (h : m.wf) : (bufPutFrom m i vs).wf := by
  induction vs generalizing m i with
  | nil => exact h
  | cons v vs ih => exact ih _ _ (bufPut_wf m i v h)

/-- Every cell after a run of writes is one of the writes' or was there before. -/
theorem mem_bufPutFrom (vs : List Nat) (m : Memory) (i : Nat) (c : Nat × Nat)
    (h : c ∈ (bufPutFrom m i vs).cells) : (i ≤ c.1 ∧ c.1 < i + vs.length ∧ c.2 ∈ vs) ∨ c ∈ m.cells := by
  induction vs generalizing m i with
  | nil => exact .inr h
  | cons v vs ih =>
    rcases ih _ _ h with ⟨h1, h2, h3⟩ | h
    · exact .inl ⟨by omega, by simp; omega, List.mem_cons_of_mem _ h3⟩
    · rcases mem_putCell _ _ _ _ h with rfl | h
      · exact .inl ⟨le_refl _, by simp, by simp⟩
      · exact .inr h

/-- The memory after reset has the canonical form. -/
theorem reset_memory_wf (c : Config) : (State.resetFor c).buf.wf := List.Pairwise.nil

/-- A listed word is found in the list of cells. -/
theorem mem_cells_of_bufAt (m : Memory) (i : Nat) (w : Nat) (h : bufAt m i = some w) : (i, w) ∈ m.cells := by
  unfold bufAt at h
  generalize m.cells = cells at h
  induction cells with
  | nil => simp [findCell] at h
  | cons c rest ih =>
    obtain ⟨j, x⟩ := c
    simp only [findCell] at h
    split_ifs at h with hij
    · simp_all
    · exact List.mem_cons_of_mem _ (ih h)

end Sys2Proof.Machine
end

