-- ==== Sys2Proof/Laws/Ops.lean ====
section
/-! SUPPORT. What the shared operations can do, each said once: the draw, one engine step of any command, one host
transaction, one event. Later proofs cite these instead of unfolding the operations. -/

namespace Sys2Proof.Machine

/-! ### Completions and flags -/

theorem completeWriting_nil (r0 r1 r2 : Nat) (s : State) : completeWriting r0 r1 r2 [] s = complete r0 r1 r2 s := rfl

@[simp] theorem operandA_eq (s : State) : operandA s = s.opa := rfl
@[simp] theorem operandB_eq (s : State) : operandB s = s.opb := rfl
@[simp] theorem operandC_eq (s : State) : operandC s = s.opc := rfl

theorem errorCode_ne_none (e : CmdError) : errorCode e ≠ .none := by cases e <;> simp [errorCode]

theorem codeNumber_le (e : ErrCode) : codeNumber e ≤ 8 := by cases e <;> simp [codeNumber]

theorem lines_lt (width v : Nat) : lines width v < 2 ^ width := Nat.mod_lt _ (by positivity)

theorem lines_of_lt {width v : Nat} (h : v < 2 ^ width) : lines width v = v := Nat.mod_eq_of_lt h

theorem testBit_lines (width v i : Nat) : (lines width v).testBit i = (decide (i < width) && v.testBit i) :=
  Nat.testBit_mod_two_pow v width i

theorem testBit_of_lines {width v i : Nat} (h : (lines width v).testBit i = true) : v.testBit i = true := by
  rw [testBit_lines, Bool.and_eq_true] at h; exact h.2

/-! ### The decoder -/

theorem instrOfOpcode_eq_some {x : Nat} {i : Instr} (h : instrOfOpcode x = some i) : x = opcodeOf i := by
  unfold instrOfOpcode at h
  split at h <;> cases h <;> rfl

theorem decode_eq_ok {w : Nat} {i : Instr} (h : decode w = .ok i) : w = encode i := by
  unfold decode zeroField opcodeField at h
  split_ifs at h with hz
  rw [show w % 256 = w by omega] at h
  split at h
  · rename_i j hj
    cases h
    exact instrOfOpcode_eq_some hj
  · cases h

theorem decode_encode (i : Instr) : decode (encode i) = .ok i := by cases i <;> rfl

/-! ### The buffer as commands read it -/

theorem bufRead_of_written {s : State} {i : Nat} {w : Nat} (h : bufAt s.buf i = some w) : bufRead s i = w := by
  simp [bufRead, h]

theorem length_bufPrefix (s : State) (count : Nat) : (bufPrefix s count).length = count := by simp [bufPrefix]

theorem getElem_bufPrefix (s : State) (count i : Nat) (h : i < (bufPrefix s count).length) :
    (bufPrefix s count)[i] = bufRead s i := by simp [bufPrefix]

theorem prefixWritten_iff (s : State) (count : Nat) :
    prefixWritten s count = true ↔ ∀ i, i < count → bufAt s.buf i ≠ none := by
  simp [prefixWritten, List.all_eq_true, Option.isSome_iff_ne_none]

/-- The check pass stops at `i` exactly when word `i` is the first that is not below `n`. -/
theorem firstTooLarge_eq_some_iff (s : State) (count i : Nat) (n : Nat) :
    firstTooLarge (bufPrefix s count) n = some i
      ↔ i < count ∧ n ≤ bufRead s i ∧ ∀ j, j < i → bufRead s j < n := by
  unfold firstTooLarge
  rw [List.findIdx?_eq_some_iff_getElem]
  constructor
  · rintro ⟨h, h1, h2⟩
    rw [getElem_bufPrefix] at h1
    refine ⟨by simpa [length_bufPrefix] using h, by simpa using h1, fun j hj => ?_⟩
    have := h2 j hj
    rw [getElem_bufPrefix] at this
    simpa using this
  · rintro ⟨h, h1, h2⟩
    refine ⟨by simpa [length_bufPrefix] using h, by rw [getElem_bufPrefix]; simpa using h1, fun j hj => ?_⟩
    rw [getElem_bufPrefix]
    simpa using h2 j hj

/-- The check pass finds nothing exactly when every word is below `n`. -/
theorem firstTooLarge_eq_none_iff (s : State) (count : Nat) (n : Nat) :
    firstTooLarge (bufPrefix s count) n = none ↔ ∀ i, i < count → bufRead s i < n := by
  unfold firstTooLarge
  simp [List.findIdx?_eq_none_iff, bufPrefix]

/-! ### The draw -/

theorem freeAnswer_mem {lo hi : Nat} (s : State) (h : lo ≤ hi) :
    lo ≤ freeAnswer lo hi s ∧ freeAnswer lo hi s ≤ hi := by
  have := Nat.mod_lt (Config.freeDraw s.freeCount) (Nat.succ_pos (hi - lo))
  unfold freeAnswer
  simp only [Nat.succ_eq_add_one] at this
  split <;> omega

/-- Everything the pre-draw check and the draw can do. -/
theorem draw_cases (lo hi : Nat) (s : State) :
    (s.outstanding = none ∧ s.abortreq = true ∧ draw lo hi s = .stopped (raiseError .aborted s))
    ∨ (s.outstanding = none ∧ s.abortreq = false ∧ s.retrylim ≠ 0 ∧ s.tries = s.retrylim
        ∧ draw lo hi s = .stopped (raiseError .timeout s))
    ∨ ((s.outstanding = none → s.abortreq = false ∧ (s.retrylim = 0 ∨ s.tries ≠ s.retrylim))
      ∧ ((s.source = .free
            ∧ draw lo hi s = .drew (freeAnswer lo hi s) (countDraw { s with freeCount := s.freeCount + 1 }))
        ∨ (s.source = .scripted [] ∧ draw lo hi s = .stopped { s with outstanding := some (lo, hi) })
        ∨ ∃ v rest, s.source = .scripted (v :: rest)
            ∧ ((lo ≤ v ∧ v ≤ hi ∧ draw lo hi s = .drew v (countDraw { s with source := .scripted rest }))
              ∨ ((v < lo ∨ hi < v) ∧ draw lo hi s = .outOfRange)))) := by
  unfold draw
  split_ifs with h1 h2
  · exact .inl ⟨h1.1, h1.2, rfl⟩
  · refine .inr (.inl ⟨h2.1, ?_, h2.2.1, h2.2.2, rfl⟩)
    cases h : s.abortreq
    · rfl
    · exact absurd ⟨h2.1, h⟩ h1
  · refine .inr (.inr ⟨fun ho => ⟨?_, ?_⟩, ?_⟩)
    · cases h : s.abortreq
      · rfl
      · exact absurd ⟨ho, h⟩ h1
    · by_contra hc
      push Not at hc
      exact h2 ⟨ho, hc.1, hc.2⟩
    · cases h : s.source with
      | free => exact .inl ⟨rfl, rfl⟩
      | scripted l =>
        cases l with
        | nil => exact .inr (.inl ⟨rfl, rfl⟩)
        | cons v rest =>
          refine .inr (.inr ⟨v, rest, rfl, ?_⟩)
          by_cases hr : lo ≤ v ∧ v ≤ hi
          · exact .inl ⟨hr.1, hr.2, by simp [hr]⟩
          · exact .inr ⟨by omega, by simp [hr]⟩

/-! ### One engine step of any command -/

/-- `u` is `s` but for what a draw or a reading of unwritten words uses up. -/
def UsesUp (s u : State) : Prop :=
  ∃ tries source outstanding freeCount,
    u = { s with tries := tries, source := source, outstanding := outstanding, freeCount := freeCount }

theorem usesUp_refl (s : State) : UsesUp s s := ⟨s.tries, s.source, s.outstanding, s.freeCount, rfl⟩

theorem usesUp_afterReading (b : Bool) (s : State) : UsesUp s (afterReading b s) := by
  cases b
  · exact ⟨s.tries, s.source, s.outstanding, s.freeCount + 1, rfl⟩
  · exact usesUp_refl s

theorem usesUp_of_drew {lo hi v : Nat} {s u : State} (h : draw lo hi s = .drew v u) : UsesUp s u := by
  rcases draw_cases lo hi s with ⟨-, -, e⟩ | ⟨-, -, -, -, e⟩ | ⟨-, ⟨-, e⟩ | ⟨-, e⟩ | ⟨w, rest, -, ⟨-, -, e⟩ | ⟨-, e⟩⟩⟩ <;>
    rw [e] at h <;> cases h
  · exact ⟨_, _, _, _, rfl⟩
  · exact ⟨_, _, _, _, rfl⟩

theorem stopped_cases {lo hi : Nat} {s u : State} (h : draw lo hi s = .stopped u) :
    (∃ e, u = raiseError e s) ∨ u = { s with outstanding := some (lo, hi) } := by
  rcases draw_cases lo hi s with ⟨-, -, e⟩ | ⟨-, -, -, -, e⟩ | ⟨-, ⟨-, e⟩ | ⟨-, e⟩ | ⟨w, rest, -, ⟨-, -, e⟩ | ⟨-, e⟩⟩⟩ <;>
    rw [e] at h <;> cases h
  · exact .inl ⟨_, rfl⟩
  · exact .inl ⟨_, rfl⟩
  · exact .inr rfl

/-- The commands that write `BUF` (R40). -/
def WritesBuffer (i : Instr) : Prop := i = .findroots ∨ i = .trace ∨ i = .encrypt ∨ i = .decrypt

/-- How an engine step of `i` can leave the machine `u` that has used up what it needed: the command goes on, or it goes
on in another phase of `GENKEY`, or it ends with an error, or with a success. -/
def LeavesAs (i : Instr) (u t : State) : Prop :=
  ((i = .genprime ∨ i = .genkey) ∧ t = u)
  ∨ (i = .genkey ∧ ∃ phase, t = { u with genkey := some phase })
  ∨ (∃ e, t = raiseError e u)
  ∨ ∃ r0 r1 r2 words, (WritesBuffer i ∨ words = []) ∧ t = completeWriting r0 r1 r2 words u

theorem leavesAs_error (i : Instr) (u : State) (e : CmdError) : LeavesAs i u (raiseError e u) :=
  .inr (.inr (.inl ⟨e, rfl⟩))

theorem leavesAs_success (i : Instr) (u : State) (r0 r1 r2 : Nat) : LeavesAs i u (complete r0 r1 r2 u) :=
  .inr (.inr (.inr ⟨r0, r1, r2, [], .inr rfl, rfl⟩))

theorem leavesAs_writing {i : Instr} (u : State) (r0 r1 r2 : Nat) (words : List Nat) (h : WritesBuffer i) :
    LeavesAs i u (completeWriting r0 r1 r2 words u) :=
  .inr (.inr (.inr ⟨r0, r1, r2, words, .inl h, rfl⟩))

theorem leavesAs_choosePublicExponent (p q : Nat) (u : State) :
    LeavesAs .genkey u (choosePublicExponent p q u) := by
  unfold choosePublicExponent finishKey
  split_ifs
  · exact leavesAs_success _ _ _ _ _
  · exact leavesAs_error _ _ _
  · exact .inr (.inl ⟨rfl, _, rfl⟩)

theorem leavesAs_keyStep {lo hi : Nat} {accept : Nat → State → State} {s t : State}
    (ha : ∀ v u, LeavesAs .genkey u (accept v u)) (h : keyStep lo hi accept s = .next t) :
    ∃ u, UsesUp s u ∧ LeavesAs .genkey u t := by
  unfold keyStep at h
  split at h
  · rename_i v u hd
    cases h
    exact ⟨u, usesUp_of_drew hd, ha v u⟩
  · rename_i u hd
    cases h
    rcases stopped_cases hd with ⟨e, rfl⟩ | rfl
    · exact ⟨s, usesUp_refl s, leavesAs_error _ _ _⟩
    · exact ⟨_, ⟨s.tries, s.source, some (lo, hi), s.freeCount, rfl⟩, .inl ⟨.inr rfl, rfl⟩⟩
  · cases h

/-- Everything one engine step of a command can do. -/
theorem exec_cases {i : Instr} {s t : State} (h : exec i s = .next t) :
    ∃ u, UsesUp s u ∧ LeavesAs i u t := by
  cases i <;> simp only [exec] at h
  case isprime =>
    unfold execIsprime at h
    cases h
    exact ⟨s, usesUp_refl s, leavesAs_success _ _ _ _ _⟩
  case genprime =>
    unfold execGenprime at h
    split_ifs at h
    · cases h
      exact ⟨s, usesUp_refl s, leavesAs_error _ _ _⟩
    · split at h
      · rename_i v u hd
        cases h
        refine ⟨u, usesUp_of_drew hd, ?_⟩
        split_ifs
        · exact leavesAs_success _ _ _ _ _
        · exact .inl ⟨.inl rfl, rfl⟩
      · rename_i u hd
        cases h
        rcases stopped_cases hd with ⟨e, rfl⟩ | rfl
        · exact ⟨s, usesUp_refl s, leavesAs_error _ _ _⟩
        · exact ⟨_, ⟨s.tries, s.source, some _, s.freeCount, rfl⟩, .inl ⟨.inl rfl, rfl⟩⟩
      · cases h
  case modpow =>
    unfold execModpow at h
    split_ifs at h <;> cases h
    · exact ⟨s, usesUp_refl s, leavesAs_error _ _ _⟩
    · exact ⟨s, usesUp_refl s, leavesAs_success _ _ _ _ _⟩
  case modinv =>
    unfold execModinv at h
    split_ifs at h <;> cases h
    · exact ⟨s, usesUp_refl s, leavesAs_error _ _ _⟩
    · exact ⟨s, usesUp_refl s, leavesAs_error _ _ _⟩
    · exact ⟨s, usesUp_refl s, leavesAs_success _ _ _ _ _⟩
  case isproot =>
    unfold execIsproot at h
    split_ifs at h <;> cases h
    · exact ⟨s, usesUp_refl s, leavesAs_error _ _ _⟩
    · exact ⟨s, usesUp_refl s, leavesAs_success _ _ _ _ _⟩
  case findroots =>
    unfold execFindroots at h
    split_ifs at h <;> cases h
    · exact ⟨s, usesUp_refl s, leavesAs_error _ _ _⟩
    · exact ⟨s, usesUp_refl s, leavesAs_error _ _ _⟩
    · exact ⟨s, usesUp_refl s, leavesAs_writing _ _ _ _ _ (.inl rfl)⟩
  case trace =>
    unfold execTrace at h
    split_ifs at h <;> cases h
    · exact ⟨s, usesUp_refl s, leavesAs_error _ _ _⟩
    · exact ⟨s, usesUp_refl s, leavesAs_error _ _ _⟩
    · exact ⟨s, usesUp_refl s, leavesAs_writing _ _ _ _ _ (.inr (.inl rfl))⟩
  case genkey =>
    have hfirst : ∀ v u, LeavesAs .genkey u (afterFirstDraw v u) := by
      intro v u
      unfold afterFirstDraw
      split_ifs
      · exact .inr (.inl ⟨rfl, _, rfl⟩)
      · exact .inr (.inl ⟨rfl, _, rfl⟩)
    unfold execGenkey at h
    split at h
    · split_ifs at h
      · cases h
        exact ⟨s, usesUp_refl s, leavesAs_error _ _ _⟩
      · cases h
        exact ⟨s, usesUp_refl s, leavesAs_error _ _ _⟩
      · exact leavesAs_keyStep hfirst h
    · exact leavesAs_keyStep hfirst h
    · refine leavesAs_keyStep (fun v u => ?_) h
      unfold afterSecondDraw
      split_ifs
      · exact leavesAs_choosePublicExponent _ _ _
      · exact .inl ⟨.inr rfl, rfl⟩
    · refine leavesAs_keyStep (fun v u => ?_) h
      unfold afterExponentDraw finishKey
      split_ifs
      · exact leavesAs_success _ _ _ _ _
      · exact .inl ⟨.inr rfl, rfl⟩
  case encrypt =>
    unfold execEncrypt at h
    split_ifs at h
    · cases h
      exact ⟨s, usesUp_refl s, leavesAs_error _ _ _⟩
    · cases h
      exact ⟨s, usesUp_refl s, leavesAs_error _ _ _⟩
    · split at h <;> cases h
      · exact ⟨_, usesUp_afterReading _ _, leavesAs_error _ _ _⟩
      · exact ⟨_, usesUp_afterReading _ _, leavesAs_writing _ _ _ _ _ (.inr (.inr (.inl rfl)))⟩
  case decrypt =>
    unfold execDecrypt at h
    split_ifs at h <;> cases h
    · exact ⟨s, usesUp_refl s, leavesAs_error _ _ _⟩
    · exact ⟨s, usesUp_refl s, leavesAs_error _ _ _⟩
    · exact ⟨_, usesUp_afterReading _ _, leavesAs_writing _ _ _ _ _ (.inr (.inr (.inr rfl)))⟩

/-- Everything the engine can do in one step. -/
theorem engineStep_cases {s t : State} (h : engineStep s = .next t) :
    (s.busy = false ∧ t = s)
    ∨ (s.busy = true ∧ ∃ i u, decode s.cmd = .ok i ∧ exec i s = .next t ∧ UsesUp s u ∧ LeavesAs i u t)
    ∨ (s.busy = true ∧ (∃ e, decode s.cmd = .error e) ∧ t = raiseError (.illegal s.cmd) s) := by
  unfold engineStep at h
  split_ifs at h with hb
  · split at h
    · rename_i i hd
      obtain ⟨u, hu, hl⟩ := exec_cases h
      exact .inr (.inl ⟨hb, i, u, hd, h, hu, hl⟩)
    · rename_i e hd
      cases h
      exact .inr (.inr ⟨hb, ⟨e, hd⟩, rfl⟩)
  · cases h
    exact .inl ⟨by simpa using hb, rfl⟩

/-! ### One event -/

/-- Everything one step can do: the engine moves, the host performs a transaction or settles which reads come next, or
reset is asserted. -/
theorem nextEvent_cases {s t : State} (h : nextEvent s = .next t) :
    (∃ script, ((s.script = [] ∧ script = []) ∨ s.script = .engine :: script
          ∨ (s.busy = true ∧ script = s.script ∧ ∃ rest, s.script = .wait :: rest))
        ∧ engineStep { s with script := script } = .next t)
    ∨ (∃ tr rest, s.script = .host tr :: rest ∧ t = busTransaction { s with script := rest } tr)
    ∨ (∃ rest, s.script = .wait :: rest ∧ s.busy = false
        ∧ t = busTransaction { s with script := rest } (.read (regAddr .status)))
    ∨ (∃ rest, s.script = .readResults :: rest ∧ t = { s with script := resultReads s ++ rest })
    ∨ (∃ rest, s.script = .rst :: rest ∧ t = resetInput { s with script := rest }) := by
  unfold nextEvent at h
  split at h
  · rename_i hs
    refine .inl ⟨[], .inl ⟨hs, rfl⟩, ?_⟩
    rw [← hs]
    exact h
  · rename_i tr rest hs
    cases h
    exact .inr (.inl ⟨tr, rest, hs, rfl⟩)
  · rename_i rest hs
    exact .inl ⟨rest, .inr (.inl hs), h⟩
  · rename_i rest hs
    split_ifs at h with hb
    · exact .inl ⟨s.script, .inr (.inr ⟨hb, rfl, rest, hs⟩), h⟩
    · cases h
      exact .inr (.inr (.inl ⟨rest, hs, by simpa using hb, rfl⟩))
  · rename_i rest hs
    cases h
    exact .inr (.inr (.inr (.inl ⟨rest, hs, rfl⟩)))
  · rename_i rest hs
    cases h
    exact .inr (.inr (.inr (.inr ⟨rest, hs, rfl⟩)))

end Sys2Proof.Machine
end

