-- ==== Sys2Proof/Laws/Bus.lean ====
section
/-! SUPPORT. The address map read backwards, and everything one host transaction can do. -/

namespace Sys2Proof.Machine

open Sys2Proof.Safety

/-! ### The address map -/

theorem regAt_eq_some {x : Nat} {r : Reg} (h : regAt x = some r) : x = (regAddr r).toNat := by
  unfold regAt at h
  split at h <;> cases h <;> rfl

/-- An address that denotes a register is that register's address. -/
theorem locate_eq_reg {c : Config} {a : Addr} {r : Reg} (h : locate c a = .reg r) : a = regAddr r := by
  unfold locate at h
  split_ifs at h
  split at h
  · rename_i q hq
    cases h
    exact BitVec.eq_of_toNat_eq (regAt_eq_some hq)
  · cases h

/-- A register's address denotes that register, whatever the parameters. -/
theorem locate_regAddr (c : Config) (r : Reg) : locate c (regAddr r) = .reg r := by
  cases r <;> simp [locate, regAddr, regAt]

/-- An address that denotes a buffer word is that word's address. -/
theorem locate_eq_buf {c : Config} {a : Addr} {i : Nat} (h : locate c a = .buf i) :
    a = bufAddr i ∧ a.toNat = 256 + i ∧ i < c.bufDepth := by
  unfold locate at h
  split_ifs at h with hb
  · have hi : a.toNat - 256 = i := Location.buf.inj h
    refine ⟨BitVec.eq_of_toNat_eq ?_, by omega, by omega⟩
    have := a.isLt
    rw [bufAddr, BitVec.toNat_ofNat]
    omega
  · split at h <;> cases h

/-- The address of a buffer word denotes it, where the window holds the whole buffer (R6). -/
theorem locate_bufAddr {c : Config} {i : Nat} (h : i < c.bufDepth) (hd : c.bufDepth ≤ 65280) :
    locate c (bufAddr i) = .buf i := by
  have ha : (bufAddr i).toNat = 256 + i := by
    rw [bufAddr, BitVec.toNat_ofNat]
    omega
  unfold locate
  rw [ha, if_pos (by omega), Nat.add_sub_cancel_left]

/-- An address of the holes of the map, or above the buffer, denotes nothing (R66, R67). -/
theorem locate_hole {c : Config} {a : Addr} (h : a.toNat = 6 ∨ a.toNat = 7 ∨ (0x0F ≤ a.toNat ∧ a.toNat ≤ 0xFF)
    ∨ 0x0100 + c.bufDepth ≤ a.toNat) : locate c a = .unmapped := by
  unfold locate
  rw [if_neg (by omega)]
  split
  · rename_i r hr
    have ha := regAt_eq_some hr
    cases r <;> simp [regAddr] at ha <;> omega
  · rfl

/-- A host read of a register. -/
theorem read_reg (s : State) (r : Reg) :
    busTransaction s (.read (regAddr r)) = { s with hRdata := regValue s r } := by
  simp only [busTransaction, busRead, locate_regAddr]

/-- A host write to a register. -/
theorem write_reg (s : State) (r : Reg) (v : Nat) :
    busTransaction s (.write (regAddr r) v) = regWrite (lines s.cfg.width v) r s := by
  simp only [busTransaction, busWrite, locate_regAddr]

/-- A host read of an address that denotes nothing (R67). -/
theorem read_unmapped {s : State} {a : Addr} (h : locate s.cfg a = .unmapped) :
    busTransaction s (.read a) = accessError { s with hRdata := 0 } := by
  simp only [busTransaction, busRead, h]

/-- A host write to an address that denotes nothing (R67). -/
theorem write_unmapped {s : State} {a : Addr} (v : Nat) (h : locate s.cfg a = .unmapped) :
    busTransaction s (.write a v) = accessError s := by
  simp only [busTransaction, busWrite, h]

/-- A host read of a buffer word (R61). -/
theorem read_buf {s : State} {i : Nat} (hi : i < s.cfg.bufDepth) (hd : s.cfg.bufDepth ≤ 65280) :
    busTransaction s (.read (bufAddr i))
      = if s.busy then accessError { s with hRdata := 0 }
        else afterReading (bufAt s.buf i).isSome { s with hRdata := bufRead s i } := by
  simp only [busTransaction, busRead, locate_bufAddr hi hd]

/-- A host write of a buffer word (R62). -/
theorem write_buf {s : State} {i : Nat} (v : Nat) (hi : i < s.cfg.bufDepth) (hd : s.cfg.bufDepth ≤ 65280) :
    busTransaction s (.write (bufAddr i) v)
      = unlessBusy (fun s => { s with buf := bufPut s.buf i (lines s.cfg.width v) }) s := by
  simp only [busTransaction, busWrite, locate_bufAddr hi hd, unlessBusy]

/-! ### One host transaction -/

/-- What no host transaction changes, and what only an accepted write to `CMD` changes. -/
structure BusFrame (s t : State) : Prop where
  res0 : t.res0 = s.res0
  res1 : t.res1 = s.res1
  res2 : t.res2 = s.res2
  genkey : t.genkey = s.genkey
  outstanding : t.outstanding = s.outstanding
  source : t.source = s.source
  cfg : t.cfg = s.cfg
  script : t.script = s.script

theorem busFrame_refl (s : State) : BusFrame s s := ⟨rfl, rfl, rfl, rfl, rfl, rfl, rfl, rfl⟩

theorem busFrame_unlessBusy {f : State → State} (s : State) (h : BusFrame s (f s)) : BusFrame s (unlessBusy f s) := by
  unfold unlessBusy
  split_ifs
  · exact ⟨rfl, rfl, rfl, rfl, rfl, rfl, rfl, rfl⟩
  · exact h

theorem busFrame_busTransaction (s : State) (tr : Transaction) : BusFrame s (busTransaction s tr) := by
  cases tr with
  | read a =>
    simp only [busTransaction, busRead]
    split
    · exact ⟨rfl, rfl, rfl, rfl, rfl, rfl, rfl, rfl⟩
    · split_ifs
      · exact ⟨rfl, rfl, rfl, rfl, rfl, rfl, rfl, rfl⟩
      · constructor <;> simp
    · exact ⟨rfl, rfl, rfl, rfl, rfl, rfl, rfl, rfl⟩
  | write a v =>
    simp only [busTransaction, busWrite]
    split
    · rename_i r _
      cases r <;> simp only [regWrite] <;>
        first
          | exact ⟨rfl, rfl, rfl, rfl, rfl, rfl, rfl, rfl⟩
          | exact busFrame_unlessBusy s ⟨rfl, rfl, rfl, rfl, rfl, rfl, rfl, rfl⟩
    · exact busFrame_unlessBusy s ⟨rfl, rfl, rfl, rfl, rfl, rfl, rfl, rfl⟩
    · exact ⟨rfl, rfl, rfl, rfl, rfl, rfl, rfl, rfl⟩

/-- Everything a host read can do: a value on `h_rdata`, and `ACCERR` or a free value used up. -/
theorem busRead_cases (s : State) (a : Addr) :
    (∃ r, locate s.cfg a = .reg r ∧ busRead a s = { s with hRdata := regValue s r })
    ∨ (∃ i, locate s.cfg a = .buf i ∧ s.busy = false
        ∧ busRead a s = afterReading (bufAt s.buf i).isSome { s with hRdata := bufRead s i })
    ∨ (((∃ i, locate s.cfg a = .buf i ∧ s.busy = true) ∨ locate s.cfg a = .unmapped)
        ∧ busRead a s = { s with hRdata := 0, accerr := true }) := by
  unfold busRead
  split
  · rename_i r hr
    exact .inl ⟨r, hr, rfl⟩
  · rename_i i hi
    split_ifs with hb
    · exact .inr (.inr ⟨.inl ⟨i, hi, hb⟩, rfl⟩)
    · exact .inr (.inl ⟨i, hi, by simpa using hb, rfl⟩)
  · rename_i hu
    exact .inr (.inr ⟨.inr hu, rfl⟩)

/-- The registers that a host writes only while no command runs, with what the write does then. -/
def IdleWrite (v : Nat) (s : State) : Reg → Option State
  | .opa => some { s with opa := v }
  | .opb => some { s with opb := v }
  | .opc => some { s with opc := v }
  | .cmd => some (startCommand v s)
  | .retrylim => some { s with retrylim := v }
  | .efix => some { s with efix := v }
  | _ => none

/-- Everything a host write of `v` can do: where it breaks an access rule it is dropped and sets `ACCERR`, and else it
does what its register or word says. -/
theorem busWrite_cases (s : State) (a : Addr) (v w : Nat) :
    (BreaksAccessRule s (.write a w) ∧ busWrite a v s = accessError s)
    ∨ (¬ BreaksAccessRule s (.write a w) ∧
        ((∃ i, locate s.cfg a = .buf i ∧ s.busy = false ∧ busWrite a v s = { s with buf := bufPut s.buf i v })
        ∨ (∃ r t, a = regAddr r ∧ s.busy = false ∧ IdleWrite v s r = some t ∧ busWrite a v s = t)
        ∨ (a = regAddr .status ∧ busWrite a v s = acknowledge v s)
        ∨ (a = regAddr .ctrl ∧ busWrite a v s = writeCtrl v s))) := by
  cases hl : locate s.cfg a with
  | unmapped => exact .inl ⟨by simp [BreaksAccessRule, hl], by simp [busWrite, hl]⟩
  | buf i =>
    cases hb : s.busy
    · exact .inr ⟨by simp [BreaksAccessRule, hl, hb], .inl ⟨i, rfl, rfl, by simp [busWrite, hl, unlessBusy, hb]⟩⟩
    · exact .inl ⟨by simp [BreaksAccessRule, hl, hb], by simp [busWrite, hl, unlessBusy, hb]⟩
  | reg r =>
    have ha := locate_eq_reg hl
    have h2 : busWrite a v s = regWrite v r s := by simp [busWrite, hl]
    have locked : ∀ t, regWrite v r s = unlessBusy (fun _ => t) s →
        (BreaksAccessRule s (.write a w) ↔ s.busy = true) →
        (BreaksAccessRule s (.write a w) ∧ busWrite a v s = accessError s)
        ∨ (¬ BreaksAccessRule s (.write a w) ∧ s.busy = false ∧ busWrite a v s = t) := fun t hw hB => by
      cases hb : s.busy
      · exact .inr ⟨fun h => by simp [hB.1 h] at hb, rfl, by rw [h2, hw, unlessBusy, hb]; rfl⟩
      · exact .inl ⟨hB.2 hb, by rw [h2, hw, unlessBusy, hb]; rfl⟩
    cases r
    case opa =>
      exact (locked _ rfl (by simp [BreaksAccessRule, hl])).imp id
        fun ⟨hn, hb, h⟩ => ⟨hn, .inr (.inl ⟨_, _, ha, hb, rfl, h⟩)⟩
    case opb =>
      exact (locked _ rfl (by simp [BreaksAccessRule, hl])).imp id
        fun ⟨hn, hb, h⟩ => ⟨hn, .inr (.inl ⟨_, _, ha, hb, rfl, h⟩)⟩
    case opc =>
      exact (locked _ rfl (by simp [BreaksAccessRule, hl])).imp id
        fun ⟨hn, hb, h⟩ => ⟨hn, .inr (.inl ⟨_, _, ha, hb, rfl, h⟩)⟩
    case cmd =>
      exact (locked _ rfl (by simp [BreaksAccessRule, hl])).imp id
        fun ⟨hn, hb, h⟩ => ⟨hn, .inr (.inl ⟨_, _, ha, hb, rfl, h⟩)⟩
    case retrylim =>
      exact (locked _ rfl (by simp [BreaksAccessRule, hl])).imp id
        fun ⟨hn, hb, h⟩ => ⟨hn, .inr (.inl ⟨_, _, ha, hb, rfl, h⟩)⟩
    case efix =>
      exact (locked _ rfl (by simp [BreaksAccessRule, hl])).imp id
        fun ⟨hn, hb, h⟩ => ⟨hn, .inr (.inl ⟨_, _, ha, hb, rfl, h⟩)⟩
    case status => exact .inr ⟨by simp [BreaksAccessRule, hl], .inr (.inr (.inl ⟨ha, h2⟩))⟩
    case ctrl => exact .inr ⟨by simp [BreaksAccessRule, hl], .inr (.inr (.inr ⟨ha, h2⟩))⟩
    all_goals exact .inl ⟨by simp [BreaksAccessRule, hl], h2⟩

end Sys2Proof.Machine
end

