-- ==== Sys2Proof/Laws/PerInstr.lean ====
section
/-! SUPPORT. What holds of every command as syntax, one lemma per constructor of `Instr`. -/

namespace Sys2Proof.Laws

/-- R90, R92: the command word of `i` has its opcode in bits `[7:0]` and 0 above, fits the narrowest word that R5 admits,
and the opcode map reads the command back. -/
def OpcodeFitsByte.Statement (i : Instr) : Prop :=
  opcodeField (encode i) = opcodeOf i ∧ zeroField (encode i) = 0 ∧ encode i < 2 ^ 32
    ∧ instrOfOpcode (opcodeField (encode i)) = some i

theorem OpcodeFitsByte.isprime : OpcodeFitsByte.Statement .isprime := by unfold OpcodeFitsByte.Statement; decide
theorem OpcodeFitsByte.genprime : OpcodeFitsByte.Statement .genprime := by unfold OpcodeFitsByte.Statement; decide
theorem OpcodeFitsByte.modpow : OpcodeFitsByte.Statement .modpow := by unfold OpcodeFitsByte.Statement; decide
theorem OpcodeFitsByte.modinv : OpcodeFitsByte.Statement .modinv := by unfold OpcodeFitsByte.Statement; decide
theorem OpcodeFitsByte.isproot : OpcodeFitsByte.Statement .isproot := by unfold OpcodeFitsByte.Statement; decide
theorem OpcodeFitsByte.findroots : OpcodeFitsByte.Statement .findroots := by unfold OpcodeFitsByte.Statement; decide
theorem OpcodeFitsByte.trace : OpcodeFitsByte.Statement .trace := by unfold OpcodeFitsByte.Statement; decide
theorem OpcodeFitsByte.genkey : OpcodeFitsByte.Statement .genkey := by unfold OpcodeFitsByte.Statement; decide
theorem OpcodeFitsByte.encrypt : OpcodeFitsByte.Statement .encrypt := by unfold OpcodeFitsByte.Statement; decide
theorem OpcodeFitsByte.decrypt : OpcodeFitsByte.Statement .decrypt := by unfold OpcodeFitsByte.Statement; decide

end Sys2Proof.Laws
end

