-- ==== Sys2Proof/Tests/Slice0.lean ====
section
/-! SUPPORT. Tests of the model on small states. The expected values are those of the vectors of the spec's file of
worked examples (A1 to A3, B1 to B10, P4, P5) or are worked out by hand from the rule named. The theorems `witness_..`
give, for the statement named, states and operands that meet its hypotheses, clause by clause. -/

namespace Sys2Proof.Tests

open Sys2Proof Sys2Proof.Machine Sys2Proof.Safety

/-! ### Small states -/

/-- The default machine with the command `i` just started on these operands, and no answer scripted. -/
def running (i : Instr) (a b c : Nat) : State :=
  { State.reset with cmd := encode i, busy := true, opa := a, opb := b, opc := c, source := .scripted [] }

/-- `s` with these words in `BUF[0]`, `BUF[1]`, ... -/
def holding (words : List Nat) (s : State) : State := { s with buf := bufPutFrom s.buf 0 words }

/-- `s` with these answers of the randomness source to come. -/
def answered (answers : List Nat) (s : State) : State := { s with source := .scripted answers }

/-- `s` with these events to come. -/
def told (script : List Event) (s : State) : State := { s with script := script }

/-- The default machine after reset, with these events to come. -/
def idle (script : List Event) : State := told script State.reset

/-- The state an outcome leads to, if it is a next state. -/
def stateOf : Host.Outcome State Fault Refusal → Option State
  | .next t => some t
  | .fault _ => none
  | .refused _ => none

/-- `STATUS`, `ERRINFO`, `RES0`, `RES1`, `RES2`, `TRIES` after a step. -/
def report (o : Host.Outcome State Fault Refusal) : Option (Nat × Nat × Nat × Nat × Nat × Nat) :=
  (stateOf o).map fun t => (statusWord t, t.errinfo, t.res0, t.res1, t.res2, t.tries)

/-- The words of `BUF` after a step. -/
def words (o : Host.Outcome State Fault Refusal) : Option (List (Nat × Nat)) := (stateOf o).map fun t => t.buf.cells

/-! ### Well-formedness refuses ill-formed terms (R5, R6, R7, R60) -/

theorem test_default_is_well_formed : Config.default.wellFormed = true := by decide
theorem test_odd_width_refused : ({ Config.default with width := 33 } : Config).wellFormed = false := by decide
theorem test_narrow_width_refused : ({ Config.default with width := 30 } : Config).wellFormed = false := by decide
theorem test_empty_buffer_refused : ({ Config.default with bufDepth := 0 } : Config).wellFormed = false := by decide
theorem test_long_buffer_refused : ({ Config.default with bufDepth := 65281 } : Config).wellFormed = false := by decide
theorem test_wide_efix_refused : ({ Config.default with efixReset := 2 ^ 32 } : Config).wellFormed = false := by decide
theorem test_wide_data_refused : (Transaction.write 0 (2 ^ 32)).wellFormed Config.default = false := by decide
theorem test_wide_event_refused : (Event.host (.write 0 (2 ^ 32))).wellFormed Config.default = false := by decide

/-! ### Decoding: every word written out from R90 and R92 -/

theorem test_decode_isprime : decode 0b00000000000000000000000000000001 = .ok .isprime := by decide
theorem test_decode_genprime : decode 0b00000000000000000000000000000010 = .ok .genprime := by decide
theorem test_decode_modpow : decode 0b00000000000000000000000000000011 = .ok .modpow := by decide
theorem test_decode_modinv : decode 0b00000000000000000000000000000100 = .ok .modinv := by decide
theorem test_decode_isproot : decode 0b00000000000000000000000000010000 = .ok .isproot := by decide
theorem test_decode_findroots : decode 0b00000000000000000000000000010001 = .ok .findroots := by decide
theorem test_decode_trace : decode 0b00000000000000000000000000010010 = .ok .trace := by decide
theorem test_decode_genkey : decode 0b00000000000000000000000000100000 = .ok .genkey := by decide
theorem test_decode_encrypt : decode 0b00000000000000000000000000100001 = .ok .encrypt := by decide
theorem test_decode_decrypt : decode 0b00000000000000000000000000100010 = .ok .decrypt := by decide
/-- Program P5: the word 259 is `MODPOW`'s with a bit of the zero field set. -/
theorem test_decode_zero_field : decode 259 = .error .nonzeroField := by decide
theorem test_decode_undefined : decode 0x13 = .error .undefinedOpcode := by decide
/-- R95: `WR OPA, 3` listed as `{1, 0x0000, 3}`, 49 bits. -/
theorem test_decode_listing : decodeTransaction 32 (2 ^ 48 + 3) = some (.write 0x0000 3) := by decide

/-! ### One step of each command -/

/-- A1. -/
theorem test_isprime_97 : report (exec .isprime (running .isprime 97 0 0)) = some (0x002, 0, 1, 0, 0, 0) := by decide
/-- B1: found only at `d * d = n`. -/
theorem test_isprime_49 : report (exec .isprime (running .isprime 49 0 0)) = some (0x002, 0, 0, 0, 0, 0) := by decide
/-- B2, row 2. -/
theorem test_genprime_7 : report (exec .genprime (answered [7] (running .genprime 7 7 0)))
    = some (0x002, 0, 7, 0, 0, 1) := by decide
/-- B2, row 10. -/
theorem test_genprime_empty : report (exec .genprime (running .genprime 5 2 0)) = some (0x506, 1, 0, 0, 0, 0) := by decide
/-- B3. -/
theorem test_modpow_445 : report (exec .modpow (running .modpow 4 13 497)) = some (0x002, 0, 445, 0, 0, 0) := by decide
/-- B3: `0^0 = 1`, reduced modulo 1. -/
theorem test_modpow_mod_1 : report (exec .modpow (running .modpow 0 0 1)) = some (0x002, 0, 0, 0, 0, 0) := by decide
/-- A2. -/
theorem test_modinv_4 : report (exec .modinv (running .modinv 3 0 11)) = some (0x002, 0, 4, 0, 0, 0) := by decide
/-- A2. -/
theorem test_modinv_gcd_2 : report (exec .modinv (running .modinv 2 0 4)) = some (0x106, 2, 0, 0, 0, 0) := by decide
/-- A3. -/
theorem test_isproot_3 : report (exec .isproot (running .isproot 3 0 7)) = some (0x002, 0, 1, 0, 0, 0) := by decide
/-- B5: the set of the powers is `{0}`. -/
theorem test_isproot_0 : report (exec .isproot (running .isproot 0 0 7)) = some (0x002, 0, 0, 0, 0, 0) := by decide
/-- B6: the words above keep their values. -/
theorem test_findroots_7 : words (exec .findroots (holding [3, 2, 6, 4] (running .findroots 0 0 7)))
    = some [(0, 3), (1, 5), (2, 6), (3, 4)] := by decide
/-- B6. -/
theorem test_findroots_263 : report (exec .findroots (running .findroots 0 0 263)) = some (0x506, 4, 0, 0, 0, 0) := by
  decide
/-- B7: the order of 2 modulo 7 is 3. -/
theorem test_trace_2 : words (exec .trace (running .trace 2 0 7)) = some [(0, 2), (1, 4), (2, 1)] := by decide
/-- B7: length and flag. -/
theorem test_trace_3 : report (exec .trace (running .trace 3 0 7)) = some (0x002, 0, 6, 1, 0, 0) := by decide
/-- B8: `p = 257` is found, 263 is drawn: program P2's key. -/
theorem test_genkey_key : report (exec .genkey
    { answered [263] (running .genkey 256 300 0) with genkey := some (.q 257), tries := 3 })
    = some (0x002, 0, 65537, 63489, 67591, 4) := by decide
/-- B8: `hi >= HALF`. -/
theorem test_genkey_range : report (exec .genkey (running .genkey 2 65536 0)) = some (0x506, 5, 0, 0, 0, 0) := by decide
/-- B9: the textbook key. -/
theorem test_encrypt_65 : words (exec .encrypt (holding [65, 1] (running .encrypt 1 17 3233)))
    = some [(0, 2790), (1, 1)] := by decide
/-- Program P5: the second word is too large. -/
theorem test_encrypt_large : report (exec .encrypt (holding [72, 4000, 33] (running .encrypt 3 17 3233)))
    = some (0x206, 1, 0, 0, 0, 0) := by decide
/-- B10. -/
theorem test_decrypt_2790 : words (exec .decrypt (holding [2790] (running .decrypt 1 2753 3233)))
    = some [(0, 65)] := by decide
/-- B10: a ciphertext word above `n` is reduced. -/
theorem test_decrypt_3298 : words (exec .decrypt (holding [3298] (running .decrypt 1 2753 3233)))
    = some [(0, 588)] := by decide

/-! ### The bus, reset, programs -/

/-- P4: a write to `OPA` while a command runs is dropped and sets `ACCERR`. -/
theorem test_busy_lock : (stateOf (step (told [.host (.write 0x0000 2)] (running .genprime 24 28 0)))).map
    (fun t => (t.opa, t.accerr)) = some (24, true) := by decide
/-- R67: an unmapped address reads 0 and sets `ACCERR`. -/
theorem test_unmapped : (stateOf (step (idle [.host (.read 0x000F)]))).map (fun t => (t.hRdata, t.accerr))
    = some (0, true) := by decide
/-- R50: `EFIX` is 65537 after reset. -/
theorem test_reset_efix : (stateOf (step (idle [.host (.read 0x000D)]))).map (fun t => t.hRdata) = some 65537 := by decide
/-- R98, R99: what `mod_inverse 2, 4` is written out to; it has no `DRAW` line, so the source stays as it is. -/
theorem test_program : (loadProgram (expandProgram [.pseudo (.modInverse 2 4)]) State.reset).source = .free
    ∧ (loadProgram (expandProgram [.pseudo (.modInverse 2 4)]) State.reset).script
    = [.host (.write 0x0000 2), .host (.write 0x0002 4), .host (.write 0x0008 4), .wait, .host (.read 0x0003)] := by decide
/-- R98: a `DRAW` line is an engine step with the answer it tells of. -/
theorem test_draw_line : (loadProgram [.cmd .genprime, .draw 25] State.reset).script
      = [.host (.write 0x0008 2), .engine]
    ∧ (loadProgram [.cmd .genprime, .draw 25] State.reset).source = .scripted [25] := by decide

/-- R99, R159: `trace_powers 3` is `trace 1, 3` and then `trace 2, 3`. -/
theorem test_trace_powers : expandProgram [.pseudo (.tracePowers 3)]
    = expandProgram [.pseudo (.trace 1 3), .pseudo (.trace 2 3)] := by decide
/-- R99: `ABORT` writes 3 where the program last wrote 1 to `CTRL`, and 2 where it wrote nothing. -/
theorem test_abort_keeps_ie : expandProgram [.pseudo .abort, .pseudo .irqon, .stmt .wait, .pseudo .abort]
    = [.wr (.reg .ctrl) 2, .wr (.reg .ctrl) 1, .wait, .wr (.reg .ctrl) 3] := by decide
/-- R99: having read 2 from `RES0`, the host reads `BUF[0]` and `BUF[1]`. -/
theorem test_read_results : (stateOf (step { idle [.readResults, .wait] with res0 := 2 })).map (fun t => t.script)
    = some [.host (.read 0x0100), .host (.read 0x0101), .wait] := by decide

/-! ### States that satisfy the invariant -/

theorem inv_of {s : State} (hc : s.cfg.wellFormed = true) (hm : s.buf.wf) (hw : WordsFit s) (hs : StatusConsistent s)
    (hp : PhaseConsistent s) (ho : s.outstanding = none) (ht : s.busy = true → s.retrylim ≠ 0 → s.tries ≤ s.retrylim) :
    Inv s :=
  ⟨hc, hm, hw, hs, hp, ht, fun r hr => by rw [ho] at hr; cases hr⟩

/-- The invariant says nothing of the script or of the source. -/
theorem inv_environment {s : State} (h : Inv s) (script : List Event) (source : Source) :
    Inv { s with script := script, source := source } :=
  ⟨h.config, h.memory, h.words, h.status, h.phase, h.draws⟩

/-- `GENPRIME` running on the range of one composite value, its last allowed draw ahead. -/
def lastDraw (source : Source) : State :=
  { running .genprime 8 8 0 with retrylim := 2, tries := 1, source := source }

theorem inv_lastDraw (source : Source) : Inv (lastDraw source) :=
  inv_environment (s := lastDraw .free) (inv_of (by decide) List.Pairwise.nil (by unfold WordsFit; decide)
    (by unfold StatusConsistent; decide) trivial rfl (by decide)) [] source

/-- `GENKEY` running on `[3, 5]` in phase `Q`: the first prime is 3, the next answer 5, `EFIX = 3`. -/
def secondPrimeDue : State :=
  { answered [5] (running .genkey 3 5 0) with efix := 3, genkey := some (.q 3) }

theorem inv_secondPrimeDue : Inv secondPrimeDue :=
  inv_of (by decide) List.Pairwise.nil (by unfold WordsFit; decide) (by unfold StatusConsistent; decide)
    ⟨rfl, rfl, by decide, by decide, by norm_num, by decide, by decide⟩ rfl (by decide)

/-- `GENKEY` running on `[2, 5]` in phase `E` on the shortest range there is, `[2, 3]`: primes 2 and 5, `EFIX = 2`. -/
def exponentDue (source : Source) : State :=
  { running .genkey 2 5 0 with efix := 2, genkey := some (.e 2 5 4), source := source }

theorem inv_exponentDue (source : Source) : Inv (exponentDue source) :=
  inv_environment (s := exponentDue .free) (inv_of (by decide) List.Pairwise.nil (by unfold WordsFit; decide)
    (by unfold StatusConsistent; decide)
    ⟨rfl, rfl, by decide, by decide, ⟨by norm_num, by decide, by decide⟩, ⟨by norm_num, by decide, by decide⟩, by decide,
      rfl, by decide, by decide⟩ rfl (by decide)) [] source

/-- `GENPRIME` with a request outstanding, and an abort requested after it. -/
def withheld : State :=
  { running .genprime 8 8 0 with outstanding := some (8, 8), abortreq := true }

theorem inv_withheld : Inv withheld :=
  ⟨by decide, List.Pairwise.nil, by unfold WordsFit; decide, by unfold StatusConsistent; decide, trivial, by decide,
    fun r hr => by cases hr; exact ⟨rfl, rfl, by decide, by decide⟩⟩

theorem inv_running (i : Instr) (script : List Event) : Inv (told script (holding [0] (running i 1 1 2))) := by
  cases i <;>
    exact inv_environment (s := holding [0] (running _ 1 1 2)) (inv_of (by decide) (by decide)
      (by unfold WordsFit; decide) (by unfold StatusConsistent; decide) trivial rfl (by decide)) script _

theorem inv_idle (script : List Event) : Inv (idle script) :=
  inv_environment (s := State.reset) (inv_of (by decide) List.Pairwise.nil (by unfold WordsFit; decide)
    (by unfold StatusConsistent; decide) trivial rfl (by decide)) script _

/-! ### Witnesses: encoding, the step, reset -/

theorem witness_CommandWordsRoundTrip :
    ({ width := 32, bufDepth := 1, efixReset := 0 } : Config).wellFormed = true
    ∧ ({ width := 64, bufDepth := 65280, efixReset := 2 ^ 64 - 1 } : Config).wellFormed = true := by decide

theorem witness_TransactionListingRoundTrip :
    (Transaction.read 0xFFFF).wellFormed Config.default = true
    ∧ (Transaction.write 0xFFFF (2 ^ 32 - 1)).wellFormed Config.default = true
    ∧ 2 ^ 49 - 1 < 2 ^ (17 + Config.default.width) ∧ 2 ^ (16 + Config.default.width) ≤ 2 ^ 48 := by decide

theorem witness_StepRunsTheDecodedCommand :
    (running .trace 2 0 7).busy = true ∧ decode (running .trace 2 0 7).cmd = .ok .trace
    ∧ (running .trace 2 0 7).script = [] ∧ (told [.engine] (running .trace 2 0 7)).script = [.engine]
    ∧ (told [.wait] (running .trace 2 0 7)).script = [.wait] := by decide

theorem witness_PlacedCommandRunsNext :
    State.reset.cfg.wellFormed = true ∧ decodeTableWord 32 0x22 = some .decrypt := by decide

theorem witness_IllegalWordRaisesErrIllegal :
    State.reset.busy = false ∧ State.reset.script = [] ∧ 2 ^ 32 - 1 < 2 ^ State.reset.cfg.width
    ∧ 0 ∉ [0x01, 0x02, 0x03, 0x04, 0x10, 0x11, 0x12, 0x20, 0x21, 0x22]
    ∧ 2 ^ 32 - 1 ∉ [0x01, 0x02, 0x03, 0x04, 0x10, 0x11, 0x12, 0x20, 0x21, 0x22] := by decide

theorem witness_IdleEngineTakesNoStep :
    (idle []).busy = false ∧ (idle []).script = [] ∧ (idle [.engine]).script = [.engine] := by decide

theorem witness_BusNeverStallsNorMovesTheEngine :
    (told [.host (.write 0x000A 3)] (running .genprime 24 28 0)).script = [.host (.write 0x000A 3)]
    ∧ ¬ ∃ v, Transaction.write 0x000A 3 = .write 0x0008 v := ⟨rfl, fun ⟨_, h⟩ => by cases h⟩

theorem witness_OnlyAnOutOfRangeAnswerStopsAStep :
    step (answered [9] (running .genprime 8 8 0)) = .refused .drawOutOfRange
    ∧ step (exponentDue (.scripted [4])) = .refused .drawOutOfRange
    ∧ (lastDraw .free).source = .free := ⟨rfl, rfl, rfl⟩

theorem witness_ResetGivesEveryRegisterItsValue :
    (told [.rst] (running .genkey 3 5 0)).script = [.rst] := rfl

theorem witness_EveryStepKeepsTheInvariant :
    (Inv (exponentDue (.scripted [3])) ∧ ∃ t, step (exponentDue (.scripted [3])) = .next t)
    ∧ (Inv secondPrimeDue ∧ ∃ t, step secondPrimeDue = .next t)
    ∧ (Inv withheld ∧ ∃ t, step withheld = .next t)
    ∧ (Inv (idle [.host (.write 0x01FF 9)]) ∧ ∃ t, step (idle [.host (.write 0x01FF 9)]) = .next t)
    ∧ ∀ i, Inv (told [.rst] (holding [0] (running i 1 1 2))) ∧ ∃ t, step (told [.rst] (holding [0] (running i 1 1 2))) = .next t :=
  ⟨⟨inv_exponentDue _, _, rfl⟩, ⟨inv_secondPrimeDue, _, rfl⟩, ⟨inv_withheld, _, rfl⟩, ⟨inv_idle _, _, rfl⟩,
    fun i => ⟨inv_running i _, _, rfl⟩⟩

/-- Requests left presented on ranges of one value and of two; answers used at the ends of a range. -/
theorem witness_NoDrawIsAskedOnAnEmptyRange :
    (Inv (lastDraw (.scripted [])) ∧ ∃ t, step (lastDraw (.scripted [])) = .next t ∧ t.outstanding = some (8, 8))
    ∧ (Inv (exponentDue (.scripted [])) ∧ ∃ t, step (exponentDue (.scripted [])) = .next t ∧ t.outstanding = some (2, 3))
    ∧ (Inv (exponentDue (.scripted [3])) ∧ ∃ t, step (exponentDue (.scripted [3])) = .next t ∧ t.source = .scripted [])
    ∧ (Inv (lastDraw (.scripted [8])) ∧ ∃ t, step (lastDraw (.scripted [8])) = .next t ∧ t.source = .scripted []) :=
  ⟨⟨inv_lastDraw _, _, rfl, rfl⟩, ⟨inv_exponentDue _, _, rfl, rfl⟩, ⟨inv_exponentDue _, _, rfl, rfl⟩,
    inv_lastDraw _, _, rfl, rfl⟩

/-! ### Witnesses: registers -/

theorem witness_BusyChangesOnlyAtStartCompletionAndReset :
    (∃ t, step (idle [.host (.write 0x0008 1)]) = .next t ∧ (idle [.host (.write 0x0008 1)]).busy = false)
    ∧ (∃ t, step (running .isprime 7 0 0) = .next t ∧ t.busy = false)
    ∧ (∃ t, step (told [.rst] (running .isprime 7 0 0)) = .next t ∧ t.busy = false) :=
  ⟨⟨_, rfl, rfl⟩, ⟨_, rfl, rfl⟩, ⟨_, rfl, rfl⟩⟩

theorem default_wellFormed : Config.default.wellFormed = true := by decide

/-- The default machine after a command has ended, with an error and both sticky flags standing. -/
def ended (script : List Event) : State :=
  { idle script with done := true, accerr := true, errcode := .noInverse, errinfo := 2 }

theorem witness_DoneChangesOnlyAsRuled :
    (∀ script, (ended script).cfg.wellFormed = true ∧ (ended script).done = true ∧ (ended script).busy = false)
    ∧ ((running .modinv 2 0 4).cfg.wellFormed = true ∧ (idle [.host (.write 0x0008 1)]).cfg.wellFormed = true)
    ∧ (∃ t, step (idle [.host (.write 0x0008 1)]) = .next t ∧ t.busy = true)
    ∧ (∃ t, step (running .modinv 2 0 4) = .next t ∧ (running .modinv 2 0 4).done = false ∧ t.done = true)
    ∧ (∃ t, step (ended [.host (.write 0x0008 1)]) = .next t ∧ t.done = false)
    ∧ (∃ t, step (ended [.host (.write 0x0009 2)]) = .next t ∧ t.done = false)
    ∧ (∃ t, step (ended [.rst]) = .next t ∧ t.done = false) :=
  ⟨fun _ => ⟨default_wellFormed, rfl, rfl⟩, ⟨by decide, by decide⟩, ⟨_, rfl, rfl⟩, ⟨_, rfl, rfl, rfl⟩, ⟨_, rfl, rfl⟩, ⟨_, rfl, rfl⟩,
    ⟨_, rfl, rfl⟩⟩

theorem witness_ErrorCodeChangesOnlyAsRuled :
    (∃ t, step (ended [.host (.write 0x0008 1)]) = .next t ∧ t.errcode ≠ .noInverse)
    ∧ (∃ t, step (running .modinv 2 0 4) = .next t ∧ t.errinfo ≠ 0)
    ∧ (∃ t, step (ended [.rst]) = .next t ∧ t.errcode ≠ .noInverse) :=
  ⟨⟨_, rfl, by decide⟩, ⟨_, rfl, by decide⟩, ⟨_, rfl, by decide⟩⟩

theorem witness_AccerrIsSetExactlyByBrokenAccesses :
    (∀ script, (idle script).cfg.wellFormed = true ∧ (idle script).accerr = false
      ∧ (ended script).cfg.wellFormed = true ∧ (ended script).accerr = true)
    ∧ (∃ t, step (idle [.host (.write 0x000F 0)]) = .next t ∧ t.accerr = true)
    ∧ (∃ t, step (idle [.host (.read 0x000E)]) = .next t ∧ t.accerr = false)
    ∧ (∃ t, step (ended [.host (.write 0x0009 8)]) = .next t ∧ t.accerr = false)
    ∧ (∃ t, step (ended [.rst]) = .next t ∧ t.accerr = false) :=
  ⟨fun _ => ⟨default_wellFormed, rfl, default_wellFormed, rfl⟩, ⟨_, rfl, rfl⟩, ⟨_, rfl, rfl⟩, ⟨_, rfl, rfl⟩, ⟨_, rfl, rfl⟩⟩

/-- `GENPRIME` running with an abort requested. -/
def aborting (script : List Event) : State := { told script (running .genprime 24 28 0) with abortreq := true }

theorem witness_AbortRequestChangesOnlyAsRuled :
    (∀ script, (aborting script).cfg.wellFormed = true ∧ (aborting script).busy = true
      ∧ (told script (running .genprime 24 28 0)).cfg.wellFormed = true)
    ∧ (∃ t, step (told [.host (.write 0x000A 2)] (running .genprime 24 28 0)) = .next t ∧ t.abortreq = true)
    ∧ (∃ t, step (aborting []) = .next t ∧ t.abortreq = false)
    ∧ (∃ t, step (aborting [.rst]) = .next t ∧ t.abortreq = false)
    ∧ (∃ t, step { idle [.host (.write 0x0008 1)] with abortreq := true } = .next t ∧ t.abortreq = false) :=
  ⟨fun _ => ⟨default_wellFormed, rfl, default_wellFormed⟩, ⟨_, rfl, rfl⟩, ⟨_, rfl, rfl⟩, ⟨_, rfl, rfl⟩, ⟨_, rfl, rfl⟩⟩

theorem witness_OperandsAreWrittenOnlyByAnIdleHostWrite :
    (∃ t, step (idle [.host (.write 0x0000 5)]) = .next t ∧ t.opa ≠ 0)
    ∧ (∃ t, step (idle [.host (.write 0x0001 5)]) = .next t ∧ t.opb ≠ 0)
    ∧ (∃ t, step (idle [.host (.write 0x0002 5)]) = .next t ∧ t.opc ≠ 0)
    ∧ ¬ ∃ rest, (idle [.host (.write 0x0000 5)]).script = .rst :: rest :=
  ⟨⟨_, rfl, by decide⟩, ⟨_, rfl, by decide⟩, ⟨_, rfl, by decide⟩, fun ⟨_, h⟩ => by cases h⟩

theorem witness_ResultsAreWrittenOnlyBySuccessCompletions :
    Inv secondPrimeDue ∧ (¬ ∃ rest, secondPrimeDue.script = .rst :: rest)
    ∧ ∃ t, step secondPrimeDue = .next t ∧ t.res0 ≠ secondPrimeDue.res0 ∧ t.res1 ≠ secondPrimeDue.res1
      ∧ t.res2 ≠ secondPrimeDue.res2 :=
  ⟨inv_secondPrimeDue, (fun ⟨_, h⟩ => by cases h), _, rfl, by decide, by decide, by decide⟩

theorem witness_BufferChangesOnlyAsRuled :
    (Inv (idle [.host (.write 0x01FF 9)]) ∧ (¬ ∃ rest, (idle [.host (.write 0x01FF 9)]).script = .rst :: rest)
      ∧ ∃ t, step (idle [.host (.write 0x01FF 9)]) = .next t ∧ bufAt t.buf 255 ≠ none)
    ∧ (Inv (told [] (holding [0] (running .trace 1 1 2)))
      ∧ (¬ ∃ rest, (told [] (holding [0] (running .trace 1 1 2))).script = .rst :: rest)
      ∧ ∃ t, step (told [] (holding [0] (running .trace 1 1 2))) = .next t ∧ bufAt t.buf 0 ≠ some 0) :=
  ⟨⟨inv_idle _, (fun ⟨_, h⟩ => by cases h), _, rfl, by decide⟩,
    inv_running .trace [], (fun ⟨_, h⟩ => by cases h), _, rfl, by decide⟩

/-! ### Witnesses: the bus -/

theorem witness_HostReadTable :
    (holding [7] (idle [])).cfg.wellFormed = true ∧ 0 < (holding [7] (idle [])).cfg.bufDepth
    ∧ (holding [7] (idle [])).busy = false ∧ bufAt (holding [7] (idle [])).buf 0 = some 7
    ∧ 255 < (running .genprime 8 8 0).cfg.bufDepth ∧ (running .genprime 8 8 0).busy = true
    ∧ (0x0F : Addr).toNat = 0x0F ∧ 0x0100 + (idle []).cfg.bufDepth ≤ (0x0200 : Addr).toNat
    ∧ 0x0100 + (idle []).cfg.bufDepth ≤ (0xFFFF : Addr).toNat := by decide

theorem witness_UnwrittenBufferWordReadsFree :
    (idle []).cfg.wellFormed = true ∧ 255 < (idle []).cfg.bufDepth ∧ (idle []).busy = false
    ∧ bufAt (idle []).buf 255 = none := by decide

theorem witness_HostWriteTable :
    (idle []).cfg.wellFormed = true ∧ 2 ^ 32 - 1 < 2 ^ (idle []).cfg.width ∧ (idle []).busy = false
    ∧ (running .genprime 8 8 0).cfg.wellFormed = true ∧ (running .genprime 8 8 0).busy = true
    ∧ 255 < (idle []).cfg.bufDepth ∧ (0x0D : Addr).toNat ∈ [0x00, 0x01, 0x02, 0x08, 0x0C, 0x0D]
    ∧ (0x0E : Addr).toNat ∈ [0x03, 0x04, 0x05, 0x0B, 0x0E] ∧ (0xFF : Addr).toNat ≤ 0xFF
    ∧ 0x0100 + (idle []).cfg.bufDepth ≤ (0x0200 : Addr).toNat := by decide

theorem witness_CommandStartWritesExactlyThese :
    (ended []).busy = false ∧ 2 ^ 32 - 1 < 2 ^ (ended []).cfg.width := by decide

theorem witness_InterruptFollowsDoneAndEnable :
    (∃ t, step (running .isprime 7 0 0) = .next t ∧ t.busy = false ∧ (running .isprime 7 0 0).busy = true
      ∧ ¬ ∃ rest, (running .isprime 7 0 0).script = .rst :: rest)
    ∧ (ended []).cfg.wellFormed = true ∧ Nat.testBit 2 1 = true ∧ Nat.testBit 2 0 = false ∧ Nat.testBit 1 0 = true :=
  ⟨⟨_, rfl, rfl, rfl, fun ⟨_, h⟩ => by cases h⟩, by decide⟩

/-! ### Witnesses: engine steps -/

theorem witness_EngineStepFrame : ∀ i, ∃ t, exec i (holding [0] (answered [1] (running i 1 1 2))) = .next t := by
  intro i
  cases i <;> exact ⟨_, rfl⟩

theorem witness_ErrorCompletionMutatesNothing :
    (running .modpow 5 3 0).errcode = .none ∧ ∃ t, exec .modpow (running .modpow 5 3 0) = .next t ∧ t.errcode ≠ .none :=
  ⟨rfl, _, rfl, by decide⟩

theorem witness_DrawsNothing : DrawsNothing .isprime ∧ DrawsNothing .modpow ∧ DrawsNothing .modinv ∧ DrawsNothing .isproot
    ∧ DrawsNothing .findroots ∧ DrawsNothing .trace ∧ DrawsNothing .encrypt ∧ DrawsNothing .decrypt := by
  unfold DrawsNothing
  decide

/-- One error of each command that has any. -/
theorem witness_ErrorCodesPerCommand :
    (∃ t, exec .genprime (running .genprime 5 2 0) = .next t ∧ t.errcode ≠ .none)
    ∧ (∃ t, exec .genprime (aborting []) = .next t ∧ t.errcode ≠ .none)
    ∧ (∃ t, exec .modinv (running .modinv 0 0 7) = .next t ∧ t.errcode ≠ .none)
    ∧ (∃ t, exec .isproot (running .isproot 1 0 1) = .next t ∧ t.errcode ≠ .none)
    ∧ (∃ t, exec .findroots (running .findroots 0 0 263) = .next t ∧ t.errcode ≠ .none)
    ∧ (∃ t, exec .trace (running .trace 2 0 263) = .next t ∧ t.errcode ≠ .none)
    ∧ (∃ t, exec .genkey (running .genkey 2 65536 0) = .next t ∧ t.errcode ≠ .none)
    ∧ (∃ t, exec .encrypt (holding [0, 1] (running .encrypt 2 5 1)) = .next t ∧ t.errcode ≠ .none)
    ∧ (∃ t, exec .decrypt (running .decrypt 257 5 1) = .next t ∧ t.errcode ≠ .none) :=
  ⟨⟨_, rfl, by decide⟩, ⟨_, rfl, by decide⟩, ⟨_, rfl, by decide⟩, ⟨_, rfl, by decide⟩, ⟨_, rfl, by decide⟩,
    ⟨_, rfl, by decide⟩, ⟨_, rfl, by decide⟩, ⟨_, rfl, by decide⟩, ⟨_, rfl, by decide⟩⟩

/-- States that agree on what the command reads: for `ENCRYPT` of one word they differ in `RES0`, `IE` and another word,
for `ISPRIME` in `OPB` and in every word of the buffer. -/
theorem witness_DrawlessCommandsArePure :
    (SameInputs .encrypt (holding [65] (running .encrypt 1 17 3233))
        { holding [65, 9] (running .encrypt 1 17 3233) with res0 := 5, ie := true }
      ∧ (∃ t, exec .encrypt (holding [65] (running .encrypt 1 17 3233)) = .next t ∧ t.errcode = .none)
      ∧ ∃ t, exec .encrypt { holding [65, 9] (running .encrypt 1 17 3233) with res0 := 5, ie := true } = .next t
        ∧ t.errcode = .none)
    ∧ SameInputs .isprime (running .isprime 7 0 0) (holding [1, 2] (running .isprime 7 3 0))
    ∧ (∃ t, exec .isprime (running .isprime 7 0 0) = .next t ∧ t.errcode = .none)
    ∧ ∃ t, exec .isprime (holding [1, 2] (running .isprime 7 3 0)) = .next t ∧ t.errcode = .none :=
  ⟨⟨⟨rfl, rfl, rfl, fun k hk => by
      obtain rfl : k = 0 := by simpa [holding, running] using hk
      rfl⟩, ⟨_, rfl, rfl⟩, _, rfl, rfl⟩, rfl, ⟨_, rfl, rfl⟩, _, rfl, rfl⟩

/-! ### Witnesses: the commands -/

theorem witness_ModPowIsThePower : 1 ≤ 1 ∧ modPow 0 0 1 = 0 := by decide

theorem witness_ModpowComputesTheResidue : (running .modpow 5 3 0).opc = 0 ∧ (running .modpow 5 0 1).opc ≠ 0 := by decide

theorem witness_EuclidFindsGcdAndInverse : 1 ≤ 11 ∧ Nat.gcd 3 11 = 1 ∧ modInverse 3 11 = 4 := by decide

theorem witness_ModinvFindsTheInverse :
    (running .modinv 3 0 0).opc = 0
    ∧ ((running .modinv 0 0 7).opc ≠ 0 ∧ Nat.gcd (running .modinv 0 0 7).opa (running .modinv 0 0 7).opc ≠ 1)
    ∧ ((running .modinv 0 0 1).opc ≠ 0 ∧ Nat.gcd (running .modinv 0 0 1).opa (running .modinv 0 0 1).opc = 1) := by decide

theorem drawGives_of {s : State} {lo hi v : Nat} {rest : List Nat} (h1 : lo ≤ v) (h2 : v ≤ hi)
    (h3 : s.outstanding = none → NoAbortNoTimeout s) (h4 : s.source = .scripted (v :: rest)) :
    DrawGives s lo hi v (afterScriptedDraw rest s) :=
  ⟨h1, h2, h3, .inl ⟨rest, h4, rfl⟩⟩

theorem witness_GenprimeDrawsUntilPrime :
    (running .genprime 5 2 0).opa > (running .genprime 5 2 0).opb
    ∧ ((aborting []).opa ≤ (aborting []).opb ∧ (aborting []).outstanding = none ∧ (aborting []).abortreq = true)
    ∧ ({ lastDraw .free with tries := 2 }.opa ≤ { lastDraw .free with tries := 2 }.opb
      ∧ { lastDraw .free with tries := 2 }.outstanding = none ∧ { lastDraw .free with tries := 2 }.abortreq = false
      ∧ { lastDraw .free with tries := 2 }.retrylim ≠ 0
      ∧ { lastDraw .free with tries := 2 }.tries = { lastDraw .free with tries := 2 }.retrylim)
    ∧ (∃ t, DrawGives (answered [7] (running .genprime 7 7 0)) 7 7 7 t)
    ∧ ∃ t, DrawGives (lastDraw (.scripted [8])) 8 8 8 t :=
  ⟨by decide, by decide, by decide,
    ⟨_, drawGives_of (by decide) (by decide) (fun _ => ⟨rfl, .inl rfl⟩) rfl⟩,
    ⟨_, drawGives_of (by decide) (by decide) (fun _ => ⟨rfl, .inr (by decide)⟩) rfl⟩⟩

theorem witness_PreDrawCheckThenDraw :
    (8 ≤ 8 ∧ (aborting []).outstanding = none ∧ (aborting []).abortreq = true)
    ∧ ({ lastDraw .free with tries := 2 }.abortreq = false ∧ { lastDraw .free with tries := 2 }.retrylim ≠ 0
      ∧ { lastDraw .free with tries := 2 }.tries = { lastDraw .free with tries := 2 }.retrylim)
    ∧ (∃ t, DrawGives (lastDraw (.scripted [8])) 8 8 8 t)
    ∧ NoAbortNoTimeout (lastDraw .free) ∧ (lastDraw .free).source = .free :=
  ⟨by decide, by decide, ⟨_, drawGives_of (by decide) (by decide) (fun _ => ⟨rfl, .inr (by decide)⟩) rfl⟩,
    ⟨rfl, .inr (by decide)⟩, rfl⟩

theorem witness_SourceThatBreaksItsDuty :
    (Inv (lastDraw (.scripted [])) ∧ (lastDraw (.scripted [])).busy = true ∧ (lastDraw (.scripted [])).script = []
      ∧ nextDrawRange (lastDraw (.scripted [])) = some (8, 8) ∧ (lastDraw (.scripted [])).source = .scripted []
      ∧ (lastDraw (.scripted [])).outstanding = none ∧ NoAbortNoTimeout (lastDraw (.scripted [])))
    ∧ (Inv withheld ∧ nextDrawRange withheld = some (8, 8) ∧ withheld.source = .scripted [] ∧ withheld.outstanding ≠ none)
    ∧ (Inv (exponentDue (.scripted [4])) ∧ nextDrawRange (exponentDue (.scripted [4])) = some (2, 3)
      ∧ NoAbortNoTimeout (exponentDue (.scripted [4])) ∧ (exponentDue (.scripted [4])).source = .scripted [4] ∧ 3 < 4)
    ∧ (Inv { withheld with source := .scripted [7] } ∧ nextDrawRange { withheld with source := .scripted [7] } = some (8, 8)
      ∧ ({ withheld with source := .scripted [7] } : State).outstanding ≠ none ∧ 7 < 8) :=
  ⟨⟨inv_lastDraw _, rfl, rfl, rfl, rfl, rfl, rfl, .inr (by decide)⟩, ⟨inv_withheld, rfl, rfl, by decide⟩,
    ⟨inv_exponentDue _, rfl, ⟨rfl, .inl rfl⟩, rfl, by decide⟩,
    inv_environment inv_withheld [] _, rfl, by decide, by decide⟩

theorem witness_GenprimeMayRunForever :
    (answered (List.replicate 3 24) (running .genprime 24 28 0)).busy = true
    ∧ (answered (List.replicate 3 24) (running .genprime 24 28 0)).cmd = 0x02 ∧ ¬ Nat.Prime 24
    ∧ (answered (List.replicate 3 24) (running .genprime 24 28 0)).tries < 2 ^ 32
    ∧ (answered (List.replicate 3 24) (running .genprime 24 28 0)).source = .scripted (List.replicate 3 24) :=
  ⟨rfl, rfl, by norm_num, by decide, rfl⟩

theorem witness_RetryCeilingEndsEveryCommand :
    Inv (lastDraw .free) ∧ (lastDraw .free).busy = true ∧ (lastDraw .free).script = []
    ∧ (lastDraw .free).source = .free ∧ (lastDraw .free).retrylim ≠ 0 := ⟨inv_lastDraw _, rfl, rfl, rfl, by decide⟩

theorem witness_PrimitiveRootTestIsTheSetEquality :
    2 ≤ 2 ∧ PrimitiveRootOf 2 1 ∧ PrimitiveRootOf 7 3 ∧ ¬ PrimitiveRootOf 7 2 := by
  unfold PrimitiveRootOf
  decide

theorem witness_IsprootTestsThePowers :
    (¬ Nat.Prime (running .isproot 3 0 1).opc)
    ∧ (Nat.Prime (running .isproot 3 0 7).opc ∧ PrimitiveRootOf (running .isproot 3 0 7).opc (running .isproot 3 0 7).opa)
    ∧ ¬ PrimitiveRootOf (running .isproot 2 0 7).opc (running .isproot 2 0 7).opa :=
  ⟨show ¬ Nat.Prime 1 by norm_num, ⟨show Nat.Prime 7 by norm_num, by unfold PrimitiveRootOf; decide⟩,
    by unfold PrimitiveRootOf; decide⟩

/-- For `FINDROOTS` and `TRACE`: no prime; a prime one word too long; the smallest prime; the longest that fits. -/
theorem witness_FindrootsListsThePrimitiveRoots_TraceWritesThePowers :
    (¬ Nat.Prime (running .findroots 0 0 9).opc)
    ∧ (Nat.Prime (running .trace 2 0 263).opc ∧ (running .trace 2 0 263).opc - 1 > (running .trace 2 0 263).cfg.bufDepth)
    ∧ (Nat.Prime (running .trace 1 0 2).opc ∧ (running .trace 1 0 2).opc - 1 ≤ (running .trace 1 0 2).cfg.bufDepth)
    ∧ (Nat.Prime (running .findroots 0 0 257).opc
      ∧ (running .findroots 0 0 257).opc - 1 ≤ (running .findroots 0 0 257).cfg.bufDepth) :=
  ⟨show ¬ Nat.Prime 9 by norm_num, ⟨show Nat.Prime 263 by norm_num, by decide⟩,
    ⟨show Nat.Prime 2 by norm_num, by decide⟩, show Nat.Prime 257 by norm_num, by decide⟩

theorem witness_TraceIsThePowersUpToTheFirstOne : 2 ≤ 7 ∧ 2 + 1 < (powerTrace 3 7).length ∧ (powerTrace 2 7).length < 7 - 1 := by
  decide

theorem witness_GenkeyChecksItsRange :
    (running .genkey 5 2 0).genkey = none ∧ (running .genkey 5 2 0).opa > (running .genkey 5 2 0).opb
    ∧ (running .genkey 2 65536 0).opa ≤ (running .genkey 2 65536 0).opb
    ∧ 2 ^ ((running .genkey 2 65536 0).cfg.width / 2) ≤ (running .genkey 2 65536 0).opb := by decide

theorem witness_GenkeyHonoursAbortAndCeiling :
    ((exponentDue .free).cmd = 0x20 ∧ nextDrawRange { exponentDue .free with abortreq := true } = some (2, 3)
      ∧ (exponentDue .free).outstanding = none)
    ∧ nextDrawRange { secondPrimeDue with retrylim := 2, tries := 2 } = some (3, 5)
    ∧ nextDrawRange { running .genkey 65535 65535 0 with abortreq := true } = some (65535, 65535) := by decide

theorem witness_GenkeyFirstPrime :
    (∃ t, (answered [65535] (running .genkey 65521 65535 0)).genkey = none
      ∧ (answered [65535] (running .genkey 65521 65535 0)).opb < 2 ^ 16
      ∧ DrawGives (answered [65535] (running .genkey 65521 65535 0)) 65521 65535 65535 t ∧ ¬ Nat.Prime 65535)
    ∧ ∃ t, DrawGives { answered [3] (running .genkey 3 5 0) with genkey := some .p } 3 5 3 t ∧ Nat.Prime 3 :=
  ⟨⟨_, rfl, by decide, drawGives_of (by decide) (by decide) (fun _ => ⟨rfl, .inl rfl⟩) rfl, by norm_num⟩,
    _, drawGives_of (by decide) (by decide) (fun _ => ⟨rfl, .inl rfl⟩) rfl, by norm_num⟩

/-- Phase `Q`: `p` again, a composite; a key at once; no exponent (B8, row 6); phase `E` (B8, row 9). -/
theorem witness_GenkeySecondPrime :
    (∃ t, DrawGives { answered [3] (running .genkey 3 5 0) with genkey := some (.q 3) } 3 5 3 t ∧ Nat.Prime 3)
    ∧ ((∃ t, DrawGives secondPrimeDue 3 5 5 t) ∧ Nat.Prime 5 ∧ 5 ≠ 3 ∧ Nat.gcd secondPrimeDue.efix ((3 - 1) * (5 - 1)) = 1)
    ∧ ((∃ t, DrawGives { answered [2] (running .genkey 2 3 0) with efix := 0, genkey := some (.q 3) } 2 3 2 t)
      ∧ Nat.Prime 2 ∧ Nat.gcd 0 ((3 - 1) * (2 - 1)) ≠ 1 ∧ (3 - 1) * (2 - 1) < 3)
    ∧ ((∃ t, DrawGives { answered [5] (running .genkey 3 5 0) with efix := 6, genkey := some (.q 3) } 3 5 5 t)
      ∧ Nat.gcd 6 ((3 - 1) * (5 - 1)) ≠ 1 ∧ 3 ≤ (3 - 1) * (5 - 1)) :=
  ⟨⟨_, drawGives_of (by decide) (by decide) (fun _ => ⟨rfl, .inl rfl⟩) rfl, by norm_num⟩,
    ⟨⟨_, drawGives_of (by decide) (by decide) (fun _ => ⟨rfl, .inl rfl⟩) rfl⟩, by norm_num, by decide, by decide⟩,
    ⟨⟨_, drawGives_of (by decide) (by decide) (fun _ => ⟨rfl, .inl rfl⟩) rfl⟩, by norm_num, by decide, by decide⟩,
    ⟨_, drawGives_of (by decide) (by decide) (fun _ => ⟨rfl, .inl rfl⟩) rfl⟩, by decide, by decide⟩

theorem witness_GenkeyPublicExponent :
    ((exponentDue (.scripted [2])).genkey = some (.e 2 5 4) ∧ 3 ≤ 4
      ∧ (∃ t, DrawGives (exponentDue (.scripted [2])) 2 3 2 t) ∧ Nat.gcd 2 4 ≠ 1)
    ∧ ((∃ t, DrawGives (exponentDue (.scripted [3])) 2 3 3 t) ∧ Nat.gcd 3 4 = 1) :=
  ⟨⟨rfl, by decide, ⟨_, drawGives_of (by decide) (by decide) (fun _ => ⟨rfl, .inl rfl⟩) rfl⟩, by decide⟩,
    ⟨_, drawGives_of (by decide) (by decide) (fun _ => ⟨rfl, .inl rfl⟩) rfl⟩, by decide⟩

/-- A key from phase `Q` and one from phase `E`. -/
theorem witness_GenkeySuccessIsAKeypair :
    (Inv secondPrimeDue ∧ ∃ t, exec .genkey secondPrimeDue = .next t ∧ t.busy = false ∧ t.errcode = .none)
    ∧ Inv (exponentDue (.scripted [3]))
      ∧ ∃ t, exec .genkey (exponentDue (.scripted [3])) = .next t ∧ t.busy = false ∧ t.errcode = .none :=
  ⟨⟨inv_secondPrimeDue, _, rfl, rfl, rfl⟩, inv_exponentDue _, _, rfl, rfl, rfl⟩

/-- The key `(3, 3, 15)` of the primes 3 and 5. -/
theorem witness_KeypairRoundTrip : KeyFromGenkey 3 3 15 ∧ 14 < 15 :=
  ⟨⟨secondPrimeDue, _, inv_secondPrimeDue, rfl, rfl, rfl, rfl, rfl, by decide, by decide, by decide⟩, by decide⟩

/-- `ENCRYPT`: no modulus; one word too many; the lowest word that is too large; no word; and the last legal word. -/
theorem witness_EncryptMapsThePrefix :
    (running .encrypt 2 17 0).opc = 0 ∧ (running .encrypt 257 17 3233).opa > (running .encrypt 257 17 3233).cfg.bufDepth
    ∧ ((running .encrypt 2 5 1).opc ≠ 0 ∧ bufRead (holding [0, 1] (running .encrypt 2 5 1)) 1 ≥ 1
      ∧ ∀ j, j < 1 → bufRead (holding [0, 1] (running .encrypt 2 5 1)) j < 1)
    ∧ (∀ i, i < (running .encrypt 0 17 3233).opa → bufRead (running .encrypt 0 17 3233) i < 3233)
    ∧ (∀ i, i < 2 → bufRead (holding [65, 3232] (running .encrypt 2 1 3233)) i < 3233)
    ∧ ∀ j, j < 2 → bufAt (holding [65, 3232] (running .encrypt 2 1 3233)).buf j ≠ none := by decide

theorem witness_DecryptMapsThePrefix :
    (running .decrypt 2 17 0).opc = 0 ∧ (running .decrypt 257 17 1).opa > (running .decrypt 257 17 1).cfg.bufDepth
    ∧ ((running .decrypt 256 17 1).opc ≠ 0 ∧ (running .decrypt 256 17 1).opa ≤ (running .decrypt 256 17 1).cfg.bufDepth)
    ∧ ∀ j, j < 1 → bufAt (holding [3298] (running .decrypt 1 2753 3233)).buf j ≠ none := by decide

/-- The message `[2, 14]` under the key `(3, 3, 15)`. -/
theorem witness_DecryptRestoresTheMessage :
    KeyFromGenkey 3 3 15 ∧ (holding [2, 14] (running .encrypt 2 3 15)).errcode = .none
    ∧ (∀ i, i < 2 → bufAt (holding [2, 14] (running .encrypt 2 3 15)).buf i ≠ none)
    ∧ ∃ t u, exec .encrypt (holding [2, 14] (running .encrypt 2 3 15)) = .next t ∧ t.errcode = .none
      ∧ exec .decrypt { t with opb := 3 } = .next u :=
  ⟨witness_KeypairRoundTrip.1, rfl, by decide, _, _, rfl, rfl, rfl⟩

end Sys2Proof.Tests
end

section
/-! SUPPORT. What the arithmetic loops compute, as far as the machine's invariant needs it: primality (R130), and that
every result stays below its modulus (R134, R137, R153, R156). -/

namespace Sys2Proof.Machine

/-- An odd number above 2 is prime exactly when no odd number from 3 up to its square root divides it. -/
theorem prime_iff_no_odd_divisor {n : Nat} (h2 : 2 < n) (hodd : n % 2 = 1) :
    n.Prime ↔ ∀ k, (3 + 2 * k) * (3 + 2 * k) ≤ n → n % (3 + 2 * k) ≠ 0 := by
  constructor
  · intro hp k hk hmod
    rcases hp.eq_one_or_self_of_dvd _ (Nat.dvd_of_mod_eq_zero hmod) with h | h
    · omega
    · nlinarith
  · intro hno
    by_contra hn
    have hsq : n.minFac ^ 2 ≤ n := Nat.minFac_sq_le_self (by omega) hn
    have hdvd : n.minFac ∣ n := n.minFac_dvd
    have hmin : n.minFac.Prime := Nat.minFac_prime (by omega)
    have hminOdd : n.minFac % 2 = 1 := by
      rcases hmin.eq_two_or_odd with h | h
      · rw [h] at hdvd; omega
      · exact h
    have hge : 3 ≤ n.minFac := by have := hmin.two_le; omega
    have heq : 3 + 2 * ((n.minFac - 3) / 2) = n.minFac := by omega
    refine hno ((n.minFac - 3) / 2) ?_ ?_ <;> rw [heq]
    · rwa [← pow_two]
    · exact Nat.mod_eq_zero_of_dvd hdvd

/-- R130: trial division decides primality. -/
theorem isPrime_iff_prime (n : Nat) : isPrime n = true ↔ n.Prime := by
  unfold isPrime
  split_ifs with h1 h2 h3
  · exact iff_of_false (by simp) (fun hp => by have := hp.two_le; omega)
  · exact iff_of_true rfl (h2 ▸ Nat.prime_two)
  · exact iff_of_false (by simp) (fun hp => by rcases hp.eq_two_or_odd with h | h <;> omega)
  · rw [noDivisorFrom_iff n n 3 (by nlinarith), prime_iff_no_odd_divisor (by omega) (by omega)]

theorem modPow_lt (b e : Nat) {m : Nat} (hm : 0 < m) : modPow b e m < m := by
  rw [modPow, squareMultiply_eq m e _ _ e le_rfl (Nat.mod_lt _ hm)]
  exact Nat.mod_lt _ hm

theorem modInverse_lt (a : Nat) {m : Nat} (hm : 0 < m) : modInverse a m < m := by
  have hpos : (0 : Int) < m := by exact_mod_cast hm
  have hlt := Int.emod_lt_of_pos (bezout a m).2 hpos
  have hge := Int.emod_nonneg (bezout a m).2 hpos.ne'
  unfold modInverse
  omega

theorem length_findPrimitiveRoots_le (n : Nat) : (findPrimitiveRoots n).length ≤ n - 1 :=
  (List.length_filter_le _ _).trans_eq List.length_range'

theorem lt_of_mem_findPrimitiveRoots {n g : Nat} (h : g ∈ findPrimitiveRoots n) : g < n := by
  have := List.mem_range'_1.1 (List.mem_of_mem_filter h)
  omega

theorem length_traceFrom_le (g n : Nat) : ∀ count v, (traceFrom g n count v).length ≤ count
  | 0, _ => le_rfl
  | count + 1, v => by
    have ih := length_traceFrom_le g n count (v * g % n)
    simp only [traceFrom, List.length_cons]
    split_ifs
    · simp
    · omega

theorem lt_of_mem_traceFrom {g n : Nat} (hn : 0 < n) : ∀ {count v x : Nat}, x ∈ traceFrom g n count v → x < n
  | 0, _, _, h => by simp [traceFrom] at h
  | count + 1, v, x, h => by
    rcases List.mem_cons.1 h with rfl | h
    · exact Nat.mod_lt _ hn
    · split_ifs at h
      · cases h
      · exact lt_of_mem_traceFrom hn h

theorem length_powerTrace_le (g n : Nat) : (powerTrace g n).length ≤ n - 1 := length_traceFrom_le g n (n - 1) 1

end Sys2Proof.Machine
end
section
/-! SUPPORT. O34: a command without draws ends in a way that its explicit inputs settle (R13, R94). -/

namespace Sys2Proof.Machine

open Sys2Proof.Safety

/-- The outcomes of two engine steps, from `s` and from `s'`, are the same ending of a command: the same error, or a
success with the same results and the same words written. -/
inductive SameEnding (s s' : State) :
    Host.Outcome State Fault Refusal → Host.Outcome State Fault Refusal → Prop where
  | error (e : CmdError) {u u' : State} (hu : UsesUp s u) (hu' : UsesUp s' u') :
      SameEnding s s' (.next (raiseError e u)) (.next (raiseError e u'))
  | success (r0 r1 r2 : Nat) (words : List Nat) {u u' : State} (hu : UsesUp s u) (hu' : UsesUp s' u') :
      SameEnding s s' (.next (completeWriting r0 r1 r2 words u)) (.next (completeWriting r0 r1 r2 words u'))

theorem sameEnding_error (s s' : State) (e : CmdError) :
    SameEnding s s' (.next (raiseError e s)) (.next (raiseError e s')) :=
  .error e (usesUp_refl s) (usesUp_refl s')

theorem sameEnding_success (s s' : State) (r0 r1 r2 : Nat) (words : List Nat) :
    SameEnding s s' (.next (completeWriting r0 r1 r2 words s)) (.next (completeWriting r0 r1 r2 words s')) :=
  .success r0 r1 r2 words (usesUp_refl s) (usesUp_refl s')

theorem bufPrefix_congr {s s' : State} {count : Nat} (h : ∀ k, k < count → bufRead s k = bufRead s' k) :
    bufPrefix s count = bufPrefix s' count :=
  List.map_congr_left fun k hk => h k (List.mem_range.1 hk)

section
variable {s s' : State}

theorem execIsprime_sameEnding (ha : operandA s = operandA s') : SameEnding s s' (execIsprime s) (execIsprime s') := by
  unfold execIsprime
  rw [ha]
  exact sameEnding_success s s' _ 0 0 []

theorem execModpow_sameEnding (ha : operandA s = operandA s') (hb : operandB s = operandB s')
    (hc : operandC s = operandC s') :
    SameEnding s s' (execModpow s) (execModpow s') := by
  unfold execModpow
  rw [ha, hb, hc]
  split_ifs
  · exact sameEnding_error s s' _
  · exact sameEnding_success s s' _ 0 0 []

theorem execModinv_sameEnding (ha : operandA s = operandA s') (hc : operandC s = operandC s') :
    SameEnding s s' (execModinv s) (execModinv s') := by
  unfold execModinv
  rw [ha, hc]
  split_ifs
  · exact sameEnding_error s s' _
  · exact sameEnding_error s s' _
  · exact sameEnding_success s s' _ 0 0 []

theorem execIsproot_sameEnding (ha : operandA s = operandA s') (hc : operandC s = operandC s') :
    SameEnding s s' (execIsproot s) (execIsproot s') := by
  unfold execIsproot
  rw [ha, hc]
  split_ifs
  · exact sameEnding_error s s' _
  · exact sameEnding_success s s' _ 0 0 []

theorem execFindroots_sameEnding (hcfg : s.cfg = s'.cfg) (hc : operandC s = operandC s') :
    SameEnding s s' (execFindroots s) (execFindroots s') := by
  unfold execFindroots
  rw [hcfg, hc]
  split_ifs
  · exact sameEnding_error s s' _
  · exact sameEnding_error s s' _
  · exact sameEnding_success s s' _ _ _ _

theorem execTrace_sameEnding (hcfg : s.cfg = s'.cfg) (ha : operandA s = operandA s') (hc : operandC s = operandC s') :
    SameEnding s s' (execTrace s) (execTrace s') := by
  unfold execTrace
  rw [hcfg, ha, hc]
  split_ifs
  · exact sameEnding_error s s' _
  · exact sameEnding_error s s' _
  · exact sameEnding_success s s' _ _ _ _

theorem execEncrypt_sameEnding (hcfg : s.cfg = s'.cfg) (ha : operandA s = operandA s')
    (hb : operandB s = operandB s') (hc : operandC s = operandC s')
    (hbuf : ∀ k, k < operandA s → bufRead s k = bufRead s' k) :
    SameEnding s s' (execEncrypt s) (execEncrypt s') := by
  unfold execEncrypt
  rw [bufPrefix_congr hbuf, hcfg, ha, hb, hc]
  split_ifs
  · exact sameEnding_error s s' _
  · exact sameEnding_error s s' _
  · cases firstTooLarge (bufPrefix s' (operandA s')) (operandC s') with
    | some i => exact .error _ (usesUp_afterReading _ _) (usesUp_afterReading _ _)
    | none => exact .success _ _ _ _ (usesUp_afterReading _ _) (usesUp_afterReading _ _)

theorem execDecrypt_sameEnding (hcfg : s.cfg = s'.cfg) (ha : operandA s = operandA s')
    (hb : operandB s = operandB s') (hc : operandC s = operandC s')
    (hbuf : ∀ k, k < operandA s → bufRead s k = bufRead s' k) :
    SameEnding s s' (execDecrypt s) (execDecrypt s') := by
  unfold execDecrypt
  rw [bufPrefix_congr hbuf, hcfg, ha, hb, hc]
  split_ifs
  · exact sameEnding_error s s' _
  · exact sameEnding_error s s' _
  · exact .success _ _ _ _ (usesUp_afterReading _ _) (usesUp_afterReading _ _)

/-- Equal explicit inputs, equal endings: case by case along the commands. -/
theorem exec_sameEnding {i : Instr} (hi : DrawsNothing i) (hcfg : s.cfg = s'.cfg) (h : SameInputs i s s') :
    SameEnding s s' (exec i s) (exec i s') := by
  cases i with
  | isprime => exact execIsprime_sameEnding h
  | genprime => exact absurd rfl hi.1
  | modpow =>
    obtain ⟨ha, hb, hc⟩ := h
    exact execModpow_sameEnding ha hb hc
  | modinv =>
    obtain ⟨ha, hc⟩ := h
    exact execModinv_sameEnding ha hc
  | isproot =>
    obtain ⟨ha, hc⟩ := h
    exact execIsproot_sameEnding ha hc
  | findroots => exact execFindroots_sameEnding hcfg h
  | trace =>
    obtain ⟨ha, hc⟩ := h
    exact execTrace_sameEnding hcfg ha hc
  | genkey => exact absurd rfl hi.2
  | encrypt =>
    obtain ⟨ha, hb, hc, hbuf⟩ := h
    exact execEncrypt_sameEnding hcfg ha hb hc hbuf
  | decrypt =>
    obtain ⟨ha, hb, hc, hbuf⟩ := h
    exact execDecrypt_sameEnding hcfg ha hb hc hbuf

end

/-- Two buffers given the same run of words agree on each word of the run and keep every other word. -/
theorem bufPutFrom_same_or_unchanged (words : List Nat) (m m' : Memory) (i k : Nat) :
    bufAt (bufPutFrom m i words) k = bufAt (bufPutFrom m' i words) k
      ∨ (bufAt (bufPutFrom m i words) k = bufAt m k ∧ bufAt (bufPutFrom m' i words) k = bufAt m' k) := by
  simp only [bufAt_bufPutFrom]
  split_ifs
  · exact .inl rfl
  · exact .inr ⟨rfl, rfl⟩

/-- Settles O34: the two steps are the same ending, and an ending shows nothing else of the state but the buffer words it
does not write. -/
theorem drawlessCommandsArePure : Obligations.DrawlessCommandsArePure := by
  intro i s s' t t' hi hcfg hin herr herr' hinfo hinfo' ht ht'
  have hend := exec_sameEnding hi hcfg hin
  rw [ht, ht'] at hend
  cases hend with
  | error e hu hu' => exact ⟨rfl, rfl, fun hnone => absurd hnone (errorCode_ne_none e)⟩
  | success r0 r1 r2 words hu hu' =>
    obtain ⟨_, _, _, _, rfl⟩ := hu
    obtain ⟨_, _, _, _, rfl⟩ := hu'
    exact ⟨herr.trans herr'.symm, hinfo.trans hinfo'.symm,
      fun _ => ⟨rfl, rfl, rfl, bufPutFrom_same_or_unchanged words s.buf s'.buf 0⟩⟩

end Sys2Proof.Machine
end
section
/-! SUPPORT. The invariant taken apart: its clauses by name, what it says of an idle machine, and the rules by which the
later proofs put it together again. -/

namespace Sys2Proof.Safety

open Sys2Proof.Machine

/-! ### The clauses by name -/

/-- The bounds of `WordsFit`, one field of the state each. -/
structure WordBounds (s : State) : Prop where
  opa : s.opa < 2 ^ s.cfg.width
  opb : s.opb < 2 ^ s.cfg.width
  opc : s.opc < 2 ^ s.cfg.width
  res0 : s.res0 < 2 ^ s.cfg.width
  res1 : s.res1 < 2 ^ s.cfg.width
  res2 : s.res2 < 2 ^ s.cfg.width
  cmd : s.cmd < 2 ^ s.cfg.width
  errinfo : s.errinfo < 2 ^ s.cfg.width
  retrylim : s.retrylim < 2 ^ s.cfg.width
  efix : s.efix < 2 ^ s.cfg.width
  tries : s.tries < 2 ^ s.cfg.width
  hRdata : s.hRdata < 2 ^ s.cfg.width
  buf : ∀ c ∈ s.buf.cells, c.1 < s.cfg.bufDepth ∧ c.2 < 2 ^ s.cfg.width

theorem wordsFit_iff (s : State) : WordsFit s ↔ WordBounds s :=
  ⟨fun ⟨opa, opb, opc, res0, res1, res2, cmd, errinfo, retrylim, efix, tries, hRdata, buf⟩ =>
    ⟨opa, opb, opc, res0, res1, res2, cmd, errinfo, retrylim, efix, tries, hRdata, buf⟩,
  fun ⟨opa, opb, opc, res0, res1, res2, cmd, errinfo, retrylim, efix, tries, hRdata, buf⟩ =>
    ⟨opa, opb, opc, res0, res1, res2, cmd, errinfo, retrylim, efix, tries, hRdata, buf⟩⟩

/-- What a phase of `GENKEY` holds (R173): the inner case split of `PhaseConsistent`. -/
def PhaseHolds (s : State) : KeyPhase → Prop
  | .p => True
  | .q p => PrimeOfRange s p
  | .e p q phi =>
    PrimeOfRange s p ∧ PrimeOfRange s q ∧ p ≠ q ∧ phi = (p - 1) * (q - 1) ∧ 3 ≤ phi ∧ Nat.gcd s.efix phi ≠ 1

theorem phaseConsistent_iff (s : State) :
    PhaseConsistent s ↔ ∀ phase, s.genkey = some phase →
      s.busy = true ∧ s.cmd = 0x20 ∧ s.opa ≤ s.opb ∧ s.opb < s.cfg.half ∧ PhaseHolds s phase := by
  unfold PhaseConsistent
  cases s.genkey with
  | none => simp
  | some phase => cases phase <;> simp [PhaseHolds]

theorem wellFormed_iff (c : Config) :
    c.wellFormed = true ↔
      c.width % 2 = 0 ∧ 32 ≤ c.width ∧ 1 ≤ c.bufDepth ∧ c.bufDepth ≤ 65280 ∧ c.efixReset < 2 ^ c.width := by
  simp [Config.wellFormed, and_assoc]

section
variable {s : State} (h : Inv s)
include h

theorem Inv.bounds : WordBounds s := (wordsFit_iff s).1 h.words

/-- Small numbers (counts, indices, flags, check numbers) fit every width that R5 admits. -/
theorem Inv.small_fits {n : Nat} (hn : n ≤ 65280) : n < 2 ^ s.cfg.width := by
  obtain ⟨-, hwidth, -⟩ := (wellFormed_iff s.cfg).1 h.config
  have : 2 ^ 32 ≤ 2 ^ s.cfg.width := Nat.pow_le_pow_right (by norm_num) hwidth
  omega

theorem Inv.zero_fits : 0 < 2 ^ s.cfg.width := h.small_fits (Nat.zero_le _)

theorem Inv.depth_fits {n : Nat} (hn : n ≤ s.cfg.bufDepth) : n < 2 ^ s.cfg.width := by
  obtain ⟨-, -, -, hdepth, -⟩ := (wellFormed_iff s.cfg).1 h.config
  exact h.small_fits (hn.trans hdepth)

theorem Inv.flag_fits (b : Bool) : b.toNat < 2 ^ s.cfg.width :=
  h.small_fits ((Bool.toNat_le b).trans (by norm_num))

/-- R5: `HALF` squared is `2^W`, because `W` is even. -/
theorem Inv.half_mul_half : s.cfg.half * s.cfg.half = 2 ^ s.cfg.width := by
  obtain ⟨heven, -⟩ := (wellFormed_iff s.cfg).1 h.config
  rw [Config.half, ← pow_add]
  congr 1
  omega

/-- R40, R41: a buffer word is one that the invariant bounds, or a free value on `W` lines. -/
theorem Inv.bufRead_fits (i : Nat) : bufRead s i < 2 ^ s.cfg.width := by
  unfold bufRead
  cases hi : bufAt s.buf i with
  | none => exact lines_lt _ _
  | some w =>
    obtain ⟨-, hw⟩ := h.bounds.buf _ (mem_cells_of_bufAt s.buf i w hi)
    exact hw

/-- R61: every register reads as a word; `STATUS` and `CTRL` have a few low bits only. -/
theorem Inv.regValue_fits (r : Reg) : regValue s r < 2 ^ s.cfg.width := by
  have hb := h.bounds
  cases r with
  | opa => exact hb.opa
  | opb => exact hb.opb
  | opc => exact hb.opc
  | res0 => exact hb.res0
  | res1 => exact hb.res1
  | res2 => exact hb.res2
  | cmd => exact hb.cmd
  | status =>
    refine h.small_fits ?_
    have := codeNumber_le s.errcode
    have := Bool.toNat_le s.busy
    have := Bool.toNat_le s.done
    have := Bool.toNat_le s.accerr
    have := Bool.toNat_le (errFlag s)
    simp only [regValue, statusWord]
    omega
  | ctrl => exact h.flag_fits s.ie
  | errinfo => exact hb.errinfo
  | retrylim => exact hb.retrylim
  | efix => exact hb.efix
  | tries => exact hb.tries

theorem Inv.errinfo_of_noError : s.errcode = .none → s.errinfo = 0 := by
  obtain ⟨-, hinfo, -⟩ := h.status
  exact hinfo

/-! ### An idle machine holds nothing of a command -/

theorem Inv.abortreq_of_idle (hb : s.busy = false) : s.abortreq = false := by
  obtain ⟨-, -, habort⟩ := h.status
  cases hreq : s.abortreq
  · rfl
  · exact absurd (habort hreq) (by simp [hb])

theorem Inv.genkey_of_idle (hb : s.busy = false) : s.genkey = none := by
  cases hg : s.genkey with
  | none => rfl
  | some phase =>
    obtain ⟨hbusy, -⟩ := (phaseConsistent_iff s).1 h.phase phase hg
    exact absurd hbusy (by simp [hb])

theorem Inv.outstanding_of_idle (hb : s.busy = false) : s.outstanding = none := by
  cases ho : s.outstanding with
  | none => rfl
  | some r =>
    obtain ⟨hbusy, -⟩ := h.draws.2 r ho
    exact absurd hbusy (by simp [hb])

/-- Where the running command makes no draw next, no request is outstanding. -/
theorem Inv.outstanding_of_noDraw (hr : nextDrawRange s = none) : s.outstanding = none := by
  cases ho : s.outstanding with
  | none => rfl
  | some r =>
    obtain ⟨-, hrange, -⟩ := h.draws.2 r ho
    exact absurd (hr.symm.trans hrange) (by simp)

end

/-! ### Putting the invariant together -/

/-- A state in which no command runs and nothing of one is left has the invariant when its words and its parameters are as
they should be. -/
theorem inv_of_idle {t : State} (hconfig : t.cfg.wellFormed = true) (hmemory : t.buf.wf) (hwords : WordBounds t)
    (hinfo : t.errcode = .none → t.errinfo = 0) (hbusy : t.busy = false) (habort : t.abortreq = false)
    (hgenkey : t.genkey = none) (hout : t.outstanding = none) : Inv t where
  config := hconfig
  memory := hmemory
  words := (wordsFit_iff t).2 hwords
  status := ⟨by simp [hbusy], hinfo, by simp [habort]⟩
  phase := (phaseConsistent_iff t).2 (by simp [hgenkey])
  draws := ⟨by simp [hbusy], by simp [hout]⟩

section
variable {s : State} (h : Inv s)
include h

/-- The invariant does not speak of the script. -/
theorem Inv.setScript (script : List Event) : Inv { s with script := script } :=
  ⟨h.config, h.memory, h.words, h.status, h.phase, h.draws⟩

/-- The invariant bounds `h_rdata` and speaks neither of `ACCERR` nor of the count of free values. -/
theorem Inv.setRead {v : Nat} (hv : v < 2 ^ s.cfg.width) (accerr : Bool) (freeCount : Nat) :
    Inv { s with hRdata := v, accerr := accerr, freeCount := freeCount } :=
  ⟨h.config, h.memory, (wordsFit_iff _).2 { h.bounds with hRdata := hv }, h.status, h.phase, h.draws⟩

theorem Inv.keeps_accessError : Inv (accessError s) := h.setRead h.bounds.hRdata true s.freeCount

theorem Inv.keeps_afterReading (written : Bool) : Inv (afterReading written s) := by
  cases written with
  | false => exact h.setRead h.bounds.hRdata s.accerr (s.freeCount + 1)
  | true => exact h

/-- R31, R207: `DONE` may only fall, so it still excludes `BUSY`. -/
theorem Inv.keeps_acknowledge (v : Nat) : Inv (acknowledge v s) := by
  obtain ⟨hrun, hinfo, habort⟩ := h.status
  refine ⟨h.config, h.memory, h.words, ⟨fun hb => ?_, hinfo, habort⟩, h.phase, h.draws⟩
  obtain ⟨hdone, herr⟩ := hrun hb
  exact ⟨by simp [hdone], herr⟩

/-- R36, R45: an abort is requested only while a command runs. -/
theorem Inv.keeps_writeCtrl (v : Nat) : Inv (writeCtrl v s) := by
  obtain ⟨hrun, hinfo, habort⟩ := h.status
  refine ⟨h.config, h.memory, h.words, ⟨hrun, hinfo, fun hreq => ?_⟩, h.phase, h.draws⟩
  rw [writeCtrl_abortreq, Bool.or_eq_true, Bool.and_eq_true] at hreq
  rcases hreq with hreq | ⟨-, hbusy⟩
  · exact habort hreq
  · exact hbusy

/-- R62: the registers that a host writes while no command runs, and the buffer. -/
theorem Inv.setIdle (hb : s.busy = false) {a b c lim e : Nat} {m : Memory} (hm : m.wf)
    (hw : WordBounds { s with opa := a, opb := b, opc := c, retrylim := lim, efix := e, buf := m }) :
    Inv { s with opa := a, opb := b, opc := c, retrylim := lim, efix := e, buf := m } :=
  inv_of_idle h.config hm hw h.errinfo_of_noError hb (h.abortreq_of_idle hb) (h.genkey_of_idle hb)
    (h.outstanding_of_idle hb)

/-- R110: a command starts with no error, no draw made, no request and no phase. -/
theorem Inv.keeps_startCommand (hb : s.busy = false) {c : Nat} (hc : c < 2 ^ s.cfg.width) :
    Inv (startCommand c s) where
  config := h.config
  memory := h.memory
  words := (wordsFit_iff _).2
    { h.bounds with cmd := hc, errinfo := h.zero_fits, tries := h.zero_fits }
  status := ⟨fun _ => ⟨rfl, rfl⟩, fun _ => rfl, by simp⟩
  phase := (phaseConsistent_iff _).2 (by simp [h.genkey_of_idle hb])
  draws := ⟨fun _ _ => Nat.zero_le _, by simp [h.outstanding_of_idle hb]⟩

/-- R50, R230. -/
theorem Inv.keeps_resetInput : Inv (resetInput s) := by
  obtain ⟨-, -, -, -, hefix⟩ := (wellFormed_iff s.cfg).1 h.config
  exact inv_of_idle h.config List.Pairwise.nil
    { opa := h.zero_fits, opb := h.zero_fits, opc := h.zero_fits, res0 := h.zero_fits, res1 := h.zero_fits,
      res2 := h.zero_fits, cmd := h.zero_fits, errinfo := h.zero_fits, retrylim := h.zero_fits, efix := hefix,
      tries := h.zero_fits, hRdata := h.bounds.hRdata, buf := by simp }
    (fun _ => rfl) rfl rfl rfl rfl

/-- R114: an error completion, where the detail is a word and no request is outstanding. -/
theorem Inv.keeps_raiseError (hout : s.outstanding = none) {e : CmdError} (he : errorInfo e < 2 ^ s.cfg.width) :
    Inv (raiseError e s) :=
  inv_of_idle h.config h.memory { h.bounds with errinfo := he } (fun hnone => absurd hnone (errorCode_ne_none e))
    rfl rfl rfl hout

/-- R113, R71: a success completion, where the results and what is written are words, within the buffer. -/
theorem Inv.keeps_completeWriting (hout : s.outstanding = none) {r0 r1 r2 : Nat} {words : List Nat}
    (h0 : r0 < 2 ^ s.cfg.width) (h1 : r1 < 2 ^ s.cfg.width) (h2 : r2 < 2 ^ s.cfg.width)
    (hlen : words.length ≤ s.cfg.bufDepth) (hwords : ∀ w ∈ words, w < 2 ^ s.cfg.width) :
    Inv (completeWriting r0 r1 r2 words s) := by
  refine inv_of_idle h.config (bufPutFrom_wf words s.buf 0 h.memory)
    { h.bounds with res0 := h0, res1 := h1, res2 := h2, buf := fun c hc => ?_ } h.errinfo_of_noError rfl rfl rfl hout
  rcases mem_bufPutFrom words s.buf 0 c hc with ⟨-, hi, hw⟩ | hold
  · exact ⟨by simp only [completeWriting_cfg]; omega, hwords _ hw⟩
  · exact h.bounds.buf c hold

theorem Inv.keeps_complete (hout : s.outstanding = none) {r0 r1 r2 : Nat}
    (h0 : r0 < 2 ^ s.cfg.width) (h1 : r1 < 2 ^ s.cfg.width) (h2 : r2 < 2 ^ s.cfg.width) :
    Inv (complete r0 r1 r2 s) := by
  rw [← completeWriting_nil]
  exact h.keeps_completeWriting hout h0 h1 h2 (Nat.zero_le _) (by simp)

end

end Sys2Proof.Safety
end
section
/-! SUPPORT. O12: every step keeps the invariant. One lemma per kind of step: a host transaction, a draw, each command,
the engine, and the event that ties them. -/

namespace Sys2Proof.Safety

open Sys2Proof.Machine

/-! ### Host transactions -/

theorem inv_busRead {s : State} (h : Inv s) (a : Addr) : Inv (busRead a s) := by
  rcases busRead_cases s a with ⟨r, -, hread⟩ | ⟨i, -, -, hread⟩ | ⟨-, hread⟩ <;> rw [hread]
  · exact h.setRead (h.regValue_fits r) s.accerr s.freeCount
  · exact (h.setRead (h.bufRead_fits i) s.accerr s.freeCount).keeps_afterReading _
  · exact h.setRead h.zero_fits true s.freeCount

/-- The writes that the busy lock lets through while no command runs only (R62, R64). -/
theorem inv_idleWrite {s t : State} (h : Inv s) (hb : s.busy = false) {v : Nat} (hv : v < 2 ^ s.cfg.width) {r : Reg}
    (ht : IdleWrite v s r = some t) : Inv t := by
  cases r <;> cases ht
  case opa => exact h.setIdle hb h.memory { h.bounds with opa := hv }
  case opb => exact h.setIdle hb h.memory { h.bounds with opb := hv }
  case opc => exact h.setIdle hb h.memory { h.bounds with opc := hv }
  case cmd => exact h.keeps_startCommand hb hv
  case retrylim => exact h.setIdle hb h.memory { h.bounds with retrylim := hv }
  case efix => exact h.setIdle hb h.memory { h.bounds with efix := hv }

theorem inv_bufferWrite {s : State} (h : Inv s) (hb : s.busy = false) {i v : Nat} (hi : i < s.cfg.bufDepth)
    (hv : v < 2 ^ s.cfg.width) : Inv { s with buf := bufPut s.buf i v } := by
  refine h.setIdle hb (bufPut_wf s.buf i v h.memory) { h.bounds with buf := fun c hc => ?_ }
  rcases mem_putCell _ _ _ _ hc with rfl | hold
  · exact ⟨hi, hv⟩
  · exact h.bounds.buf c hold

theorem inv_busWrite {s : State} (h : Inv s) (a : Addr) {v : Nat} (hv : v < 2 ^ s.cfg.width) :
    Inv (busWrite a v s) := by
  rcases busWrite_cases s a v v with
    ⟨-, hw⟩ | ⟨-, ⟨i, hl, hb, hw⟩ | ⟨r, t, -, hb, ht, hw⟩ | ⟨-, hw⟩ | ⟨-, hw⟩⟩ <;> rw [hw]
  · exact h.keeps_accessError
  · obtain ⟨-, -, hi⟩ := locate_eq_buf hl
    exact inv_bufferWrite h hb hi hv
  · exact inv_idleWrite h hb hv ht
  · exact h.keeps_acknowledge v
  · exact h.keeps_writeCtrl v

theorem inv_busTransaction {s : State} (h : Inv s) (tr : Transaction) : Inv (busTransaction s tr) := by
  cases tr with
  | read a => exact inv_busRead h a
  | write a v => exact inv_busWrite h a (lines_lt _ v)

/-! ### Draws -/

theorem drawGives_of_drew {lo hi v : Nat} {s u : State} (hr : lo ≤ hi) (hd : draw lo hi s = .drew v u) :
    DrawGives s lo hi v u := by
  rcases draw_cases lo hi s with
    ⟨-, -, e⟩ | ⟨-, -, -, -, e⟩ | ⟨hcheck, ⟨hs, e⟩ | ⟨-, e⟩ | ⟨w, rest, hs, ⟨hlo, hhi, e⟩ | ⟨-, e⟩⟩⟩ <;>
    rw [e] at hd <;> cases hd
  · obtain ⟨hlo, hhi⟩ := freeAnswer_mem s hr
    exact ⟨hlo, hhi, hcheck, .inr ⟨hs, rfl, rfl⟩⟩
  · exact ⟨hlo, hhi, hcheck, .inl ⟨rest, hs, rfl⟩⟩

/-- A draw that gives no value has raised an error without a detail, or it has passed its check and presents the range. -/
theorem stopped_draw_cases {lo hi : Nat} {s u : State} (hd : draw lo hi s = .stopped u) :
    (s.outstanding = none ∧ ∃ e, errorInfo e = 0 ∧ u = raiseError e s)
    ∨ ((s.outstanding = none → NoAbortNoTimeout s) ∧ u = { s with outstanding := some (lo, hi) }) := by
  rcases draw_cases lo hi s with
    ⟨ho, -, e⟩ | ⟨ho, -, -, -, e⟩ | ⟨hcheck, ⟨-, e⟩ | ⟨-, e⟩ | ⟨w, rest, -, ⟨-, -, e⟩ | ⟨-, e⟩⟩⟩ <;>
    rw [e] at hd <;> cases hd
  · exact .inl ⟨ho, _, rfl, rfl⟩
  · exact .inl ⟨ho, _, rfl, rfl⟩
  · exact .inr ⟨hcheck, rfl⟩

/-- R38, R117: a draw that passes its check is still below the retry ceiling. -/
theorem tries_lt_retrylim {s : State} (h : Inv s) (hb : s.busy = true)
    (hcheck : s.outstanding = none → NoAbortNoTimeout s) (hlim : s.retrylim ≠ 0) : s.tries < s.retrylim := by
  obtain ⟨hceiling, hrequest⟩ := h.draws
  cases ho : s.outstanding with
  | some r =>
    obtain ⟨-, -, -, hlt⟩ := hrequest r ho
    exact hlt hlim
  | none =>
    obtain ⟨-, hzero | hne⟩ := hcheck ho
    · exact absurd hzero hlim
    · exact lt_of_le_of_ne (hceiling hb hlim) hne

/-- R116: the count of draws goes up by one and saturates, and the request is answered. -/
theorem inv_afterDraw {s : State} (h : Inv s) (hb : s.busy = true)
    (hcheck : s.outstanding = none → NoAbortNoTimeout s) (source : Source) (freeCount : Nat) :
    Inv { s with
      tries := min (s.tries + 1) (2 ^ s.cfg.width - 1), source := source, outstanding := none,
      freeCount := freeCount } where
  config := h.config
  memory := h.memory
  words := (wordsFit_iff _).2
    { h.bounds with
      tries := lt_of_le_of_lt (min_le_right _ _) (Nat.sub_one_lt h.zero_fits.ne') }
  status := h.status
  phase := h.phase
  draws := ⟨fun _ hlim => (min_le_left _ _).trans (tries_lt_retrylim h hb hcheck hlim), by simp⟩

theorem inv_of_drawGives {s u : State} {lo hi v : Nat} (h : Inv s) (hb : s.busy = true) (hd : DrawGives s lo hi v u) :
    Inv u := by
  obtain ⟨-, -, hcheck, ⟨rest, -, rfl⟩ | ⟨-, -, rfl⟩⟩ := hd
  · exact inv_afterDraw h hb hcheck _ _
  · exact inv_afterDraw h hb hcheck _ _

theorem outstanding_of_drawGives {s u : State} {lo hi v : Nat} (hd : DrawGives s lo hi v u) : u.outstanding = none := by
  obtain ⟨-, -, -, ⟨rest, -, rfl⟩ | ⟨-, -, rfl⟩⟩ := hd <;> rfl

/-- R76: a request left presented is the one the running command makes. -/
theorem inv_present {s : State} (h : Inv s) (hb : s.busy = true) (hcheck : s.outstanding = none → NoAbortNoTimeout s)
    {lo hi : Nat} (hrange : nextDrawRange s = some (lo, hi)) (hle : lo ≤ hi) :
    Inv { s with outstanding := some (lo, hi) } := by
  have hlt : s.retrylim ≠ 0 → s.tries < s.retrylim := tries_lt_retrylim h hb hcheck
  refine ⟨h.config, h.memory, h.words, h.status, h.phase, h.draws.1, fun r hr => ?_⟩
  cases hr
  exact ⟨hb, hrange, hle, hlt⟩

/-- One iteration of a drawing loop keeps the invariant when what it does with the value drawn keeps it. -/
theorem inv_keyStep {s t : State} {lo hi : Nat} {accept : Nat → State → State} (h : Inv s) (hb : s.busy = true)
    (hrange : nextDrawRange s = some (lo, hi)) (hle : lo ≤ hi)
    (haccept : ∀ v u, lo ≤ v → v ≤ hi → UsesUp s u → u.outstanding = none → Inv u → Inv (accept v u))
    (he : keyStep lo hi accept s = .next t) : Inv t := by
  unfold keyStep at he
  split at he
  · rename_i v u hd
    cases he
    have hgives := drawGives_of_drew hle hd
    have ⟨hlo, hhi, _⟩ := hgives
    exact haccept v u hlo hhi (usesUp_of_drew hd) (outstanding_of_drawGives hgives) (inv_of_drawGives h hb hgives)
  · rename_i u hd
    cases he
    rcases stopped_draw_cases hd with ⟨ho, e, he0, rfl⟩ | ⟨hcheck, rfl⟩
    · exact h.keeps_raiseError ho (he0 ▸ h.zero_fits)
    · exact inv_present h hb hcheck hrange hle
  · cases he

/-! ### The commands without draws -/

theorem checkNumber_le (check : OperandCheck) : checkNumber check ≤ 5 := by cases check <;> simp [checkNumber]

section
variable {s : State} (h : Inv s) (hout : s.outstanding = none)
include h hout

theorem inv_operandError (check : OperandCheck) : Inv (raiseError (.operand check) s) :=
  h.keeps_raiseError hout (h.small_fits ((checkNumber_le check).trans (by norm_num)))

theorem inv_notPrime : Inv (raiseError .notPrime s) := h.keeps_raiseError hout h.zero_fits

/-- A success completion with one result and no writes. -/
theorem inv_complete_one {r : Nat} (hr : r < 2 ^ s.cfg.width) : Inv (complete r 0 0 s) :=
  h.keeps_complete hout hr h.zero_fits h.zero_fits

/-- The transform pass of `ENCRYPT` and `DECRYPT` (R179, R180). -/
theorem inv_transform (hn : 0 < s.opc) (hcount : s.opa ≤ s.cfg.bufDepth) :
    Inv (completeWriting s.opa 0 0 ((bufPrefix s s.opa).map (fun m => modPow m s.opb s.opc))
      (afterReading (prefixWritten s s.opa) s)) := by
  refine (h.keeps_afterReading _).keeps_completeWriting (by simpa using hout) ?_ ?_ ?_ ?_ ?_ <;>
    simp only [afterReading_cfg, List.length_map, length_bufPrefix]
  · exact h.bounds.opa
  · exact h.zero_fits
  · exact h.zero_fits
  · exact hcount
  · intro w hw
    obtain ⟨m, -, rfl⟩ := List.mem_map.1 hw
    exact (modPow_lt m s.opb hn).trans h.bounds.opc

variable {t : State}

theorem inv_execIsprime (he : execIsprime s = .next t) : Inv t := by
  cases he
  exact inv_complete_one h hout (h.flag_fits _)

theorem inv_execModpow (he : execModpow s = .next t) : Inv t := by
  unfold execModpow at he
  split_ifs at he with hzero <;> cases he
  · exact inv_operandError h hout _
  · exact inv_complete_one h hout ((modPow_lt _ _ (Nat.pos_of_ne_zero hzero)).trans h.bounds.opc)

theorem inv_execModinv (he : execModinv s = .next t) : Inv t := by
  unfold execModinv at he
  split_ifs at he with hzero hgcd <;> cases he
  · exact inv_operandError h hout _
  · exact h.keeps_raiseError hout ((Nat.gcd_le_right _ (Nat.pos_of_ne_zero hzero)).trans_lt h.bounds.opc)
  · exact inv_complete_one h hout ((modInverse_lt _ (Nat.pos_of_ne_zero hzero)).trans h.bounds.opc)

theorem inv_execIsproot (he : execIsproot s = .next t) : Inv t := by
  unfold execIsproot at he
  split_ifs at he <;> cases he
  · exact inv_notPrime h hout
  · exact inv_complete_one h hout (h.flag_fits _)

theorem inv_execFindroots (he : execFindroots s = .next t) : Inv t := by
  unfold execFindroots at he
  split_ifs at he with hprime hdepth <;> cases he
  · exact inv_notPrime h hout
  · exact inv_operandError h hout _
  · have hlen := (length_findPrimitiveRoots_le (operandC s)).trans (not_lt.1 hdepth)
    exact h.keeps_completeWriting hout (h.depth_fits hlen) h.zero_fits h.zero_fits hlen
      fun g hg => (lt_of_mem_findPrimitiveRoots hg).trans h.bounds.opc

theorem inv_execTrace (he : execTrace s = .next t) : Inv t := by
  unfold execTrace at he
  split_ifs at he with hprime hdepth <;> cases he
  · exact inv_notPrime h hout
  · exact inv_operandError h hout _
  · have hlen := (length_powerTrace_le (operandA s) (operandC s)).trans (not_lt.1 hdepth)
    have hpos : 0 < operandC s := ((isPrime_iff_prime _).1 (by simpa using hprime)).pos
    exact h.keeps_completeWriting hout (h.depth_fits hlen) (h.flag_fits _) h.zero_fits hlen
      fun x hx => (lt_of_mem_traceFrom hpos hx).trans h.bounds.opc

theorem inv_execEncrypt (he : execEncrypt s = .next t) : Inv t := by
  unfold execEncrypt at he
  split_ifs at he with hzero hcount
  · cases he
    exact inv_operandError h hout _
  · cases he
    exact inv_operandError h hout _
  · split at he <;> cases he
    · rename_i i hi
      obtain ⟨hlt, -⟩ := (firstTooLarge_eq_some_iff s _ i _).1 hi
      exact (h.keeps_afterReading _).keeps_raiseError (by simpa using hout)
        (by rw [afterReading_cfg]; exact h.depth_fits (hlt.le.trans (not_lt.1 hcount)))
    · exact inv_transform h hout (Nat.pos_of_ne_zero hzero) (not_lt.1 hcount)

theorem inv_execDecrypt (he : execDecrypt s = .next t) : Inv t := by
  unfold execDecrypt at he
  split_ifs at he with hzero hcount <;> cases he
  · exact inv_operandError h hout _
  · exact inv_operandError h hout _
  · exact inv_transform h hout (Nat.pos_of_ne_zero hzero) (not_lt.1 hcount)

end

/-! ### `GENPRIME` -/

/-- What `GENPRIME` does with the value drawn (R132): it is the result, or the loop goes on. -/
def acceptPrime (v : Nat) (u : State) : State := if isPrime v then complete v 0 0 u else u

theorem execGenprime_eq_keyStep (s : State) :
    execGenprime s
      = if s.opa > s.opb then .next (raiseError (.operand .emptyRange) s) else keyStep s.opa s.opb acceptPrime s := rfl

theorem inv_execGenprime {s t : State} (h : Inv s) (hb : s.busy = true) (hc : s.cmd = 0x02)
    (he : execGenprime s = .next t) : Inv t := by
  rw [execGenprime_eq_keyStep] at he
  split_ifs at he with hempty
  · cases he
    have hnone : nextDrawRange s = none := by simp [nextDrawRange, hc, hempty]
    exact inv_operandError h (h.outstanding_of_noDraw hnone) _
  · have hrange : nextDrawRange s = some (s.opa, s.opb) := by simp [nextDrawRange, hc, not_lt.1 hempty]
    refine inv_keyStep h hb hrange (not_lt.1 hempty) (fun v u _ hhi hu hout hinv => ?_) he
    obtain ⟨_, _, _, _, rfl⟩ := hu
    unfold acceptPrime
    split_ifs
    · exact inv_complete_one hinv hout (hhi.trans_lt h.bounds.opb)
    · exact hinv

/-! ### `GENKEY` -/

/-- `GENKEY` runs on a range it admits, and its last request is answered: the state in which it takes the value drawn. -/
structure GenkeyDrew (u : State) : Prop where
  inv : Inv u
  answered : u.outstanding = none
  busy : u.busy = true
  cmd : u.cmd = 0x20
  nonempty : u.opa ≤ u.opb
  belowHalf : u.opb < u.cfg.half

section
variable {u : State} (hu : GenkeyDrew u)
include hu

theorem inv_setPhase {phase : KeyPhase} (hphase : PhaseHolds u phase) : Inv { u with genkey := some phase } := by
  refine ⟨hu.inv.config, hu.inv.memory, hu.inv.words, hu.inv.status, (phaseConsistent_iff _).2 fun q hq => ?_,
    hu.inv.draws.1, by simp [hu.answered]⟩
  cases hq
  exact ⟨hu.busy, hu.cmd, hu.nonempty, hu.belowHalf, hphase⟩

/-- R5, R172: primes below `HALF` have a product of one word. -/
theorem product_fits {p q : Nat} (hp : PrimeOfRange u p) (hq : PrimeOfRange u q) : p * q < 2 ^ u.cfg.width := by
  obtain ⟨-, -, hple⟩ := hp
  obtain ⟨-, -, hqle⟩ := hq
  rw [← hu.inv.half_mul_half]
  exact Nat.mul_lt_mul'' (hple.trans_lt hu.belowHalf) (hqle.trans_lt hu.belowHalf)

theorem totient_fits {p q : Nat} (hp : PrimeOfRange u p) (hq : PrimeOfRange u q) :
    (p - 1) * (q - 1) < 2 ^ u.cfg.width :=
  (Nat.mul_le_mul (Nat.sub_le p 1) (Nat.sub_le q 1)).trans_lt (product_fits hu hp hq)

theorem inv_finishKey {e p q : Nat} (he : e < 2 ^ u.cfg.width) (hp : PrimeOfRange u p) (hq : PrimeOfRange u q) :
    Inv (finishKey e (p * q) ((p - 1) * (q - 1)) u) := by
  have htotient : 0 < (p - 1) * (q - 1) :=
    Nat.mul_pos (Nat.sub_pos_of_lt hp.1.one_lt) (Nat.sub_pos_of_lt hq.1.one_lt)
  exact hu.inv.keeps_complete hu.answered he ((modInverse_lt e htotient).trans (totient_fits hu hp hq))
    (product_fits hu hp hq)

theorem inv_afterFirstDraw {v : Nat} (hlo : u.opa ≤ v) (hhi : v ≤ u.opb) : Inv (afterFirstDraw v u) := by
  unfold afterFirstDraw
  split_ifs with hprime
  · exact inv_setPhase hu (phase := .q v) ⟨(isPrime_iff_prime v).1 hprime, hlo, hhi⟩
  · exact inv_setPhase hu (phase := .p) trivial

theorem inv_choosePublicExponent {p q : Nat} (hp : PrimeOfRange u p) (hq : PrimeOfRange u q) (hne : p ≠ q) :
    Inv (choosePublicExponent p q u) := by
  unfold choosePublicExponent
  split_ifs with hcoprime hsmall
  · exact inv_finishKey hu hu.inv.bounds.efix hp hq
  · exact hu.inv.keeps_raiseError hu.answered hu.inv.zero_fits
  · exact inv_setPhase hu (phase := .e p q _) ⟨hp, hq, hne, rfl, not_lt.1 hsmall, hcoprime⟩

theorem inv_afterSecondDraw {p v : Nat} (hp : PrimeOfRange u p) (hlo : u.opa ≤ v) (hhi : v ≤ u.opb) :
    Inv (afterSecondDraw p v u) := by
  unfold afterSecondDraw
  split_ifs with hsecond
  · obtain ⟨hprime, hne⟩ := hsecond
    exact inv_choosePublicExponent hu hp ⟨(isPrime_iff_prime v).1 hprime, hlo, hhi⟩ hne.symm
  · exact hu.inv

theorem inv_afterExponentDraw {p q v : Nat} (hp : PrimeOfRange u p) (hq : PrimeOfRange u q)
    (hv : v ≤ (p - 1) * (q - 1) - 1) : Inv (afterExponentDraw p q ((p - 1) * (q - 1)) v u) := by
  unfold afterExponentDraw
  split_ifs
  · exact inv_finishKey hu ((hv.trans (Nat.sub_le _ 1)).trans_lt (totient_fits hu hp hq)) hp hq
  · exact hu.inv

end

/-- One iteration of a loop of `GENKEY` keeps the invariant when what its phase does with the value drawn keeps it; what a
draw uses up is no part of what the phase needs. -/
theorem inv_genkeyLoop {s t : State} {lo hi : Nat} {accept : Nat → State → State} (h : Inv s) (hb : s.busy = true)
    (hc : s.cmd = 0x20) (hle : s.opa ≤ s.opb) (hhalf : s.opb < s.cfg.half)
    (hrange : nextDrawRange s = some (lo, hi)) (hlohi : lo ≤ hi)
    (haccept : ∀ v tries source outstanding freeCount, lo ≤ v → v ≤ hi →
      GenkeyDrew { s with tries := tries, source := source, outstanding := outstanding, freeCount := freeCount } →
      Inv (accept v { s with tries := tries, source := source, outstanding := outstanding, freeCount := freeCount }))
    (he : keyStep lo hi accept s = .next t) : Inv t := by
  refine inv_keyStep h hb hrange hlohi (fun v u hlo hhi hu hout hinv => ?_) he
  obtain ⟨tries, source, outstanding, freeCount, rfl⟩ := hu
  exact haccept v tries source outstanding freeCount hlo hhi ⟨hinv, hout, hb, hc, hle, hhalf⟩

theorem inv_execGenkey {s t : State} (h : Inv s) (hb : s.busy = true) (hc : s.cmd = 0x20)
    (he : execGenkey s = .next t) : Inv t := by
  have hphase := (phaseConsistent_iff s).1 h.phase
  unfold execGenkey at he
  split at he
  next hg =>
    split_ifs at he with hempty hlarge
    · cases he
      have hnone : nextDrawRange s = none := by
        simp [nextDrawRange, hc, hg, (not_le.2 hempty : ¬ s.opa ≤ s.opb)]
      exact inv_operandError h (h.outstanding_of_noDraw hnone) _
    · cases he
      have hnone : nextDrawRange s = none := by
        simp [nextDrawRange, hc, hg, (not_lt.2 hlarge : ¬ s.opb < s.cfg.half)]
      exact inv_operandError h (h.outstanding_of_noDraw hnone) _
    · have hle : s.opa ≤ s.opb := not_lt.1 hempty
      have hhalf : s.opb < s.cfg.half := not_le.1 hlarge
      exact inv_genkeyLoop h hb hc hle hhalf (by simp [nextDrawRange, hc, hg, hle, hhalf]) hle
        (fun v _ _ _ _ hlo hhi hdrew => inv_afterFirstDraw hdrew hlo hhi) he
  next hg =>
    obtain ⟨-, -, hle, hhalf, -⟩ := hphase _ hg
    exact inv_genkeyLoop h hb hc hle hhalf (by simp [nextDrawRange, hc, hg]) hle
      (fun v _ _ _ _ hlo hhi hdrew => inv_afterFirstDraw hdrew hlo hhi) he
  next p hg =>
    obtain ⟨-, -, hle, hhalf, hp⟩ := hphase _ hg
    exact inv_genkeyLoop h hb hc hle hhalf (by simp [nextDrawRange, hc, hg]) hle
      (fun v _ _ _ _ hlo hhi hdrew => inv_afterSecondDraw hdrew hp hlo hhi) he
  next p q phi hg =>
    obtain ⟨-, -, hle, hhalf, hp, hq, -, rfl, hthree, -⟩ := hphase _ hg
    exact inv_genkeyLoop h hb hc hle hhalf (by simp [nextDrawRange, hc, hg]) (by omega)
      (fun v _ _ _ _ _ hhi hdrew => inv_afterExponentDraw hdrew hp hq hhi) he

/-! ### The engine and the event -/

/-- Only `GENPRIME` and `GENKEY` draw. -/
theorem nextDrawRange_of_other {s : State} (hprime : s.cmd ≠ 0x02) (hkey : s.cmd ≠ 0x20) : nextDrawRange s = none := by
  simp [nextDrawRange, hprime, hkey]

theorem inv_exec {i : Instr} {s t : State} (h : Inv s) (hb : s.busy = true) (hc : s.cmd = encode i)
    (he : exec i s = .next t) : Inv t := by
  have hnoRequest (hprime : encode i ≠ 0x02) (hkey : encode i ≠ 0x20) : s.outstanding = none :=
    h.outstanding_of_noDraw (nextDrawRange_of_other (hc ▸ hprime) (hc ▸ hkey))
  cases i with
  | isprime => exact inv_execIsprime h (hnoRequest (by decide) (by decide)) he
  | genprime => exact inv_execGenprime h hb hc he
  | modpow => exact inv_execModpow h (hnoRequest (by decide) (by decide)) he
  | modinv => exact inv_execModinv h (hnoRequest (by decide) (by decide)) he
  | isproot => exact inv_execIsproot h (hnoRequest (by decide) (by decide)) he
  | findroots => exact inv_execFindroots h (hnoRequest (by decide) (by decide)) he
  | trace => exact inv_execTrace h (hnoRequest (by decide) (by decide)) he
  | genkey => exact inv_execGenkey h hb hc he
  | encrypt => exact inv_execEncrypt h (hnoRequest (by decide) (by decide)) he
  | decrypt => exact inv_execDecrypt h (hnoRequest (by decide) (by decide)) he

/-- R96: an illegal word makes no draw and is its own error detail. -/
theorem inv_illegal {s : State} (h : Inv s) {e : DecodeError} (hd : decode s.cmd = .error e) :
    Inv (raiseError (.illegal s.cmd) s) := by
  have hne (i : Instr) : s.cmd ≠ encode i := fun hc => by
    rw [hc, decode_encode] at hd
    cases hd
  exact h.keeps_raiseError (h.outstanding_of_noDraw (nextDrawRange_of_other (hne .genprime) (hne .genkey))) h.bounds.cmd

theorem inv_engineStep {s t : State} (h : Inv s) (he : engineStep s = .next t) : Inv t := by
  rcases engineStep_cases he with ⟨-, rfl⟩ | ⟨hb, i, u, hd, hexec, -, -⟩ | ⟨-, ⟨e, hd⟩, rfl⟩
  · exact h
  · exact inv_exec h hb (decode_eq_ok hd) hexec
  · exact inv_illegal h hd

/-- Settles O12, by the kinds of event. -/
theorem everyStepKeepsTheInvariant : Obligations.EveryStepKeepsTheInvariant := by
  intro s t h hstep
  rcases nextEvent_cases hstep with
    ⟨script, -, hengine⟩ | ⟨tr, rest, -, rfl⟩ | ⟨rest, -, -, rfl⟩ | ⟨rest, -, rfl⟩ | ⟨rest, -, rfl⟩
  · exact inv_engineStep (h.setScript script) hengine
  · exact inv_busTransaction (h.setScript rest) tr
  · exact inv_busTransaction (h.setScript rest) _
  · exact h.setScript _
  · exact (h.setScript rest).keeps_resetInput

end Sys2Proof.Safety
end
section
/-! SUPPORT. Everything one step of the machine can do to its state (R8, R9), said once. The rules about single registers
are read off from it. -/

namespace Sys2Proof.Safety

open Sys2Proof.Machine

/-! ### Which access breaks a rule, and which addresses differ -/

@[simp] theorem regAddr_inj {r q : Reg} : regAddr r = regAddr q ↔ r = q := by
  refine ⟨fun h => ?_, congrArg regAddr⟩
  have hr := locate_regAddr Config.default r
  rw [h, locate_regAddr] at hr
  exact (Location.reg.inj hr).symm

theorem bufAddr_ne_regAddr {c : Config} {i : Nat} (hl : locate c (bufAddr i) = .buf i) (r : Reg) :
    bufAddr i ≠ regAddr r := fun h => by
  rw [h, locate_regAddr] at hl
  cases hl

/-- R64: only the busy lock refuses a write to `CMD`. -/
theorem breaksAccessRule_cmd (s : State) (v : Nat) : BreaksAccessRule s (.write (regAddr .cmd) v) ↔ s.busy = true := by
  simp only [BreaksAccessRule, locate_regAddr]

/-- R62: writes to `STATUS` and `CTRL` are never refused. -/
theorem not_breaksAccessRule_status (s : State) (v : Nat) : ¬ BreaksAccessRule s (.write (regAddr .status) v) := by
  simp only [BreaksAccessRule, locate_regAddr, not_false_eq_true]

theorem not_breaksAccessRule_ctrl (s : State) (v : Nat) : ¬ BreaksAccessRule s (.write (regAddr .ctrl) v) := by
  simp only [BreaksAccessRule, locate_regAddr, not_false_eq_true]

/-! ### The kinds of step -/

/-- The script lets the engine move: it is empty, or an engine step or a wait comes first. -/
def EngineTurn (s : State) : Prop := s.script = [] ∨ ∃ rest, s.script = .engine :: rest ∨ s.script = .wait :: rest

/-- Neither a host transaction nor the reset input comes first in the script. -/
structure NoInput (s : State) : Prop where
  host : ∀ tr rest, s.script ≠ .host tr :: rest
  rst : ∀ rest, s.script ≠ .rst :: rest

theorem EngineTurn.noInput {s : State} (h : EngineTurn s) : NoInput s := by
  rcases h with hs | ⟨rest, hs | hs⟩ <;> exact ⟨by simp [hs], by simp [hs]⟩

/-- The kinds of step, by what they do to the registers, each with what comes first in the script. A field of the state
that a constructor sets to a variable may change in such a step; every other keeps its value. -/
inductive StepCase (s : State) : State → Prop where
  /-- The engine draws or has nothing to do, or the host waits: no command ends, and no register but `TRIES` changes. -/
  | quiet (hs : NoInput s) (script : List Event) (tries : Nat) (source : Source) (outstanding : Option (Nat × Nat))
      (freeCount : Nat) (genkey : Option KeyPhase) (hRdata : Nat) :
      StepCase s
        { s with
          script := script, tries := tries, source := source, outstanding := outstanding, freeCount := freeCount,
          genkey := genkey, hRdata := hRdata }
  /-- The running command ends with an error (R114). -/
  | error (hb : s.busy = true) (hs : EngineTurn s) (e : CmdError) (script : List Event) (tries : Nat)
      (source : Source) (outstanding : Option (Nat × Nat)) (freeCount : Nat) :
      StepCase s (raiseError e
        { s with
          script := script, tries := tries, source := source, outstanding := outstanding, freeCount := freeCount })
  /-- The running command ends with a success (R113), which only four commands write `BUF` in. -/
  | success (hb : s.busy = true) (hs : EngineTurn s) (i : Instr) (hd : decode s.cmd = .ok i) (r0 r1 r2 : Nat)
      (words : List Nat) (hw : WritesBuffer i ∨ words = []) (script : List Event) (tries : Nat)
      (source : Source) (outstanding : Option (Nat × Nat)) (freeCount : Nat) :
      StepCase s (completeWriting r0 r1 r2 words
        { s with
          script := script, tries := tries, source := source, outstanding := outstanding, freeCount := freeCount })
  /-- The host reads (R61). -/
  | read (a : Addr) (rest : List Event) (hs : s.script = .host (.read a) :: rest) (hRdata freeCount : Nat)
      (accerr : Bool) (hacc : accerr = true ↔ s.accerr = true ∨ BreaksAccessRule s (.read a)) :
      StepCase s { s with script := rest, hRdata := hRdata, freeCount := freeCount, accerr := accerr }
  /-- A host write is dropped (R64, R65, R67). -/
  | dropped (a : Addr) (v : Nat) (rest : List Event) (hs : s.script = .host (.write a v) :: rest)
      (hbreak : BreaksAccessRule s (.write a v)) :
      StepCase s { s with script := rest, accerr := true }
  /-- The host writes a word of `BUF` (R62). -/
  | bufferWrite (i v : Nat) (rest : List Event) (hs : s.script = .host (.write (bufAddr i) v) :: rest)
      (hok : ¬ BreaksAccessRule s (.write (bufAddr i) v)) (hl : locate s.cfg (bufAddr i) = .buf i)
      (hb : s.busy = false) :
      StepCase s { s with script := rest, buf := bufPut s.buf i (lines s.cfg.width v) }
  /-- The host writes an operand, `RETRYLIM` or `EFIX` (R62). -/
  | registerWrite (r : Reg) (v : Nat) (rest : List Event) (hs : s.script = .host (.write (regAddr r) v) :: rest)
      (hok : ¬ BreaksAccessRule s (.write (regAddr r) v)) (hb : s.busy = false)
      (hcmd : r ≠ .cmd) (hstatus : r ≠ .status) (hctrl : r ≠ .ctrl) (opa opb opc retrylim efix : Nat)
      (ha : opa ≠ s.opa → r = .opa ∧ opa = lines s.cfg.width v)
      (hB : opb ≠ s.opb → r = .opb ∧ opb = lines s.cfg.width v)
      (hc : opc ≠ s.opc → r = .opc ∧ opc = lines s.cfg.width v) :
      StepCase s { s with script := rest, opa := opa, opb := opb, opc := opc, retrylim := retrylim, efix := efix }
  /-- The host starts a command (R110). -/
  | start (v : Nat) (rest : List Event) (hs : s.script = .host (.write (regAddr .cmd) v) :: rest)
      (hb : s.busy = false) :
      StepCase s (startCommand (lines s.cfg.width v) { s with script := rest })
  /-- The host writes `STATUS` (R31, R207). -/
  | statusWrite (v : Nat) (rest : List Event) (hs : s.script = .host (.write (regAddr .status) v) :: rest) :
      StepCase s (acknowledge (lines s.cfg.width v) { s with script := rest })
  /-- The host writes `CTRL` (R36). -/
  | ctrlWrite (v : Nat) (rest : List Event) (hs : s.script = .host (.write (regAddr .ctrl) v) :: rest) :
      StepCase s (writeCtrl (lines s.cfg.width v) { s with script := rest })
  /-- The reset input is asserted (R230). -/
  | reset (rest : List Event) (hs : s.script = .rst :: rest) : StepCase s (resetInput { s with script := rest })

/-! ### Every step is of one of these kinds -/

theorem stepCase_of_leavesAs {s u t : State} {i : Instr} {script : List Event} (hb : s.busy = true) (hs : EngineTurn s)
    (hd : decode s.cmd = .ok i) (hu : UsesUp { s with script := script } u) (hl : LeavesAs i u t) : StepCase s t := by
  obtain ⟨tries, source, outstanding, freeCount, rfl⟩ := hu
  rcases hl with ⟨-, rfl⟩ | ⟨-, phase, rfl⟩ | ⟨e, rfl⟩ | ⟨r0, r1, r2, words, hw, rfl⟩
  · exact .quiet hs.noInput script tries source outstanding freeCount s.genkey s.hRdata
  · exact .quiet hs.noInput script tries source outstanding freeCount (some phase) s.hRdata
  · exact .error hb hs e script tries source outstanding freeCount
  · exact .success hb hs i hd r0 r1 r2 words hw script tries source outstanding freeCount

theorem stepCase_of_engineStep {s t : State} {script : List Event} (hs : EngineTurn s)
    (h : engineStep { s with script := script } = .next t) : StepCase s t := by
  rcases engineStep_cases h with ⟨-, rfl⟩ | ⟨hb, i, u, hd, -, hu, hl⟩ | ⟨hb, -, rfl⟩
  · exact .quiet hs.noInput script s.tries s.source s.outstanding s.freeCount s.genkey s.hRdata
  · exact stepCase_of_leavesAs hb hs hd hu hl
  · exact .error (s := s) hb hs _ script s.tries s.source s.outstanding s.freeCount

theorem stepCase_of_read {s : State} {a : Addr} {rest : List Event} (hs : s.script = .host (.read a) :: rest) :
    StepCase s (busTransaction { s with script := rest } (.read a)) := by
  rw [busTransaction]
  rcases busRead_cases { s with script := rest } a with ⟨r, hl, h⟩ | ⟨i, hl, hb, h⟩ | ⟨hl, h⟩ <;> rw [h]
  · exact .read a rest hs _ s.freeCount s.accerr (by simp [BreaksAccessRule, show locate s.cfg a = _ from hl])
  · have hacc : s.accerr = true ↔ s.accerr = true ∨ BreaksAccessRule s (.read a) := by
      simp [BreaksAccessRule, show locate s.cfg a = _ from hl, show s.busy = _ from hb]
    cases (bufAt s.buf i).isSome
    · exact .read a rest hs _ (s.freeCount + 1) s.accerr hacc
    · exact .read a rest hs _ s.freeCount s.accerr hacc
  · refine .read a rest hs 0 s.freeCount true (iff_of_true rfl (.inr ?_))
    rcases hl with ⟨i, hl, hb⟩ | hl
    · simpa [BreaksAccessRule, show locate s.cfg a = _ from hl] using hb
    · simp [BreaksAccessRule, show locate s.cfg a = _ from hl]

theorem stepCase_of_idleWrite {s t : State} {r : Reg} {v : Nat} {rest : List Event}
    (hs : s.script = .host (.write (regAddr r) v) :: rest) (hb : s.busy = false)
    (hok : ¬ BreaksAccessRule s (.write (regAddr r) v))
    (h : IdleWrite (lines s.cfg.width v) { s with script := rest } r = some t) : StepCase s t := by
  cases r <;> cases h
  case cmd => exact .start v rest hs hb
  all_goals exact .registerWrite _ v rest hs hok hb nofun nofun nofun _ _ _ _ _ (by simp) (by simp) (by simp)

theorem stepCase_of_write {s : State} {a : Addr} {v : Nat} {rest : List Event}
    (hs : s.script = .host (.write a v) :: rest) :
    StepCase s (busTransaction { s with script := rest } (.write a v)) := by
  rw [busTransaction]
  rcases busWrite_cases { s with script := rest } a (lines s.cfg.width v) v with
    ⟨hbreak, h⟩ | ⟨hok, ⟨i, hl, hb, h⟩ | ⟨r, t, rfl, hb, ht, h⟩ | ⟨rfl, h⟩ | ⟨rfl, h⟩⟩ <;> rw [h]
  · exact .dropped a v rest hs hbreak
  · obtain ⟨rfl, -, -⟩ := locate_eq_buf hl
    exact .bufferWrite i v rest hs hok hl hb
  · exact stepCase_of_idleWrite hs hb hok ht
  · exact .statusWrite v rest hs
  · exact .ctrlWrite v rest hs

theorem stepCase_of_step {s t : State} (h : step s = .next t) : StepCase s t := by
  rcases nextEvent_cases h with ⟨script, hturn, hengine⟩ | ⟨tr, rest, hs, rfl⟩ | ⟨rest, hs, -, rfl⟩ | ⟨rest, hs, rfl⟩
    | ⟨rest, hs, rfl⟩
  · refine stepCase_of_engineStep ?_ hengine
    rcases hturn with ⟨hs, -⟩ | hs | ⟨-, -, rest, hs⟩
    · exact .inl hs
    · exact .inr ⟨script, .inl hs⟩
    · exact .inr ⟨rest, .inr hs⟩
  · cases tr with
    | read a => exact stepCase_of_read hs
    | write a v => exact stepCase_of_write hs
  · rw [read_reg]
    have hturn : EngineTurn s := .inr ⟨rest, .inr hs⟩
    exact .quiet hturn.noInput rest s.tries s.source s.outstanding s.freeCount s.genkey _
  · exact .quiet ⟨by simp [hs], by simp [hs]⟩ _ s.tries s.source s.outstanding s.freeCount s.genkey s.hRdata
  · exact .reset rest hs

end Sys2Proof.Safety
end
section
/-! SUPPORT. O14 to O21: the rules about single registers, each read off from the kinds of step. -/

namespace Sys2Proof.Safety

open Sys2Proof.Machine

/-! ### What comes first in the script -/

/-- The host writes the register `r` next. -/
def HostWrites (s : State) (r : Reg) : Prop := ∃ v rest, s.script = .host (.write (regAddr r) v) :: rest

/-- The host writes a word with bit `k` set to the register `r` next. -/
def HostSetsBit (s : State) (r : Reg) (k : Nat) : Prop :=
  ∃ v rest, s.script = .host (.write (regAddr r) v) :: rest ∧ v.testBit k = true

/-- The reset input comes next. -/
def ResetNext (s : State) : Prop := ∃ rest, s.script = .rst :: rest

theorem HostSetsBit.hostWrites {s : State} {r : Reg} {k : Nat} (h : HostSetsBit s r k) : HostWrites s r := by
  obtain ⟨v, rest, hs, -⟩ := h
  exact ⟨v, rest, hs⟩

section
variable {s : State}

theorem NoInput.not_hostWrites (h : NoInput s) (r : Reg) : ¬ HostWrites s r := fun ⟨_, _, hs⟩ => h.host _ _ hs

theorem NoInput.not_hostSetsBit (h : NoInput s) (r : Reg) (k : Nat) : ¬ HostSetsBit s r k :=
  fun hset => h.not_hostWrites r hset.hostWrites

theorem NoInput.not_resetNext (h : NoInput s) : ¬ ResetNext s := fun ⟨_, hs⟩ => h.rst _ hs

section
variable {tr : Transaction} {rest : List Event} (hs : s.script = .host tr :: rest)
include hs

theorem not_resetNext_of_host : ¬ ResetNext s := by simp [ResetNext, hs]

theorem hostWrites_iff_of_host (q : Reg) : HostWrites s q ↔ ∃ v, tr = .write (regAddr q) v := by
  simp [HostWrites, hs]

end

section
variable {r : Reg} {v : Nat} {rest : List Event} (hs : s.script = .host (.write (regAddr r) v) :: rest)
include hs

theorem hostWrites_iff (q : Reg) : HostWrites s q ↔ r = q := by simp [HostWrites, hs]

theorem hostSetsBit_iff (q : Reg) (k : Nat) : HostSetsBit s q k ↔ r = q ∧ v.testBit k = true := by
  simp [HostSetsBit, hs]

end

/-- A write to `CMD` is dropped only by the busy lock. -/
theorem busy_of_dropped_cmd {a : Addr} {v : Nat} {rest : List Event} (hs : s.script = .host (.write a v) :: rest)
    (hbreak : BreaksAccessRule s (.write a v)) (hw : HostWrites s .cmd) : s.busy = true := by
  obtain ⟨w, hw⟩ := (hostWrites_iff_of_host hs _).1 hw
  exact (breaksAccessRule_cmd s w).1 (hw ▸ hbreak)

theorem not_hostWrites_of_dropped {a : Addr} {v : Nat} {rest : List Event} (hs : s.script = .host (.write a v) :: rest)
    (hbreak : BreaksAccessRule s (.write a v)) {r : Reg} (hr : ∀ w, ¬ BreaksAccessRule s (.write (regAddr r) w)) :
    ¬ HostWrites s r := fun hw => by
  obtain ⟨w, hw⟩ := (hostWrites_iff_of_host hs _).1 hw
  exact hr w (hw ▸ hbreak)

theorem not_hostWrites_of_bufferWrite {i v : Nat} {rest : List Event}
    (hs : s.script = .host (.write (bufAddr i) v) :: rest) (hl : locate s.cfg (bufAddr i) = .buf i) (r : Reg) :
    ¬ HostWrites s r := by
  simp [hostWrites_iff_of_host hs, bufAddr_ne_regAddr hl]

end

/-! ### The kinds of step, as far as the flags and the error registers go -/

/-- The step keeps the flags that `STATUS` shows of a command, its error and the abort request; nothing comes first in the
script that could change them. -/
structure KeepsFlags (s t : State) : Prop where
  notStarted : ¬ (s.busy = false ∧ HostWrites s .cmd)
  noStatusWrite : ¬ HostWrites s .status
  noCtrlWrite : ¬ HostWrites s .ctrl
  noReset : ¬ ResetNext s
  busy : t.busy = s.busy
  done : t.done = s.done
  errcode : t.errcode = s.errcode
  errinfo : t.errinfo = s.errinfo
  abortreq : t.abortreq = s.abortreq

/-- The step is the engine's and ends the running command (R113, R114). -/
structure EndsCommand (s t : State) : Prop where
  turn : EngineTurn s
  busy : s.busy = true
  idle : t.busy = false
  done : t.done = true
  abortreq : t.abortreq = false
  genkey : t.genkey = none
  error : t.errcode ≠ .none ∨ (t.errcode = s.errcode ∧ t.errinfo = s.errinfo)

/-- The kinds of step again, those that treat the flags alike taken together. -/
inductive FlagCase (s : State) : State → Prop where
  | keeps {t : State} (h : KeepsFlags s t) : FlagCase s t
  | ends {t : State} (h : EndsCommand s t) : FlagCase s t
  | start (v : Nat) (rest : List Event) (hs : s.script = .host (.write (regAddr .cmd) v) :: rest) (hb : s.busy = false) :
      FlagCase s (startCommand (lines s.cfg.width v) { s with script := rest })
  | statusWrite (v : Nat) (rest : List Event) (hs : s.script = .host (.write (regAddr .status) v) :: rest) :
      FlagCase s (acknowledge (lines s.cfg.width v) { s with script := rest })
  | ctrlWrite (v : Nat) (rest : List Event) (hs : s.script = .host (.write (regAddr .ctrl) v) :: rest) :
      FlagCase s (writeCtrl (lines s.cfg.width v) { s with script := rest })
  | reset (rest : List Event) (hs : s.script = .rst :: rest) : FlagCase s (resetInput { s with script := rest })

theorem flagCase_of_step {s t : State} (hstep : step s = .next t) : FlagCase s t := by
  cases stepCase_of_step hstep with
  | quiet hs =>
    exact .keeps ⟨fun h => hs.not_hostWrites _ h.2, hs.not_hostWrites _, hs.not_hostWrites _, hs.not_resetNext,
      rfl, rfl, rfl, rfl, rfl⟩
  | error hb hs e => exact .ends ⟨hs, hb, rfl, rfl, rfl, rfl, .inl (errorCode_ne_none e)⟩
  | success hb hs => exact .ends ⟨hs, hb, rfl, rfl, rfl, rfl, .inr ⟨rfl, rfl⟩⟩
  | read a rest hs =>
    have hno (r : Reg) : ¬ HostWrites s r := by simp [hostWrites_iff_of_host hs]
    exact .keeps ⟨fun h => hno _ h.2, hno _, hno _, not_resetNext_of_host hs, rfl, rfl, rfl, rfl, rfl⟩
  | dropped a v rest hs hbreak =>
    refine .keeps ⟨fun ⟨hb, hw⟩ => ?_, not_hostWrites_of_dropped hs hbreak (not_breaksAccessRule_status s),
      not_hostWrites_of_dropped hs hbreak (not_breaksAccessRule_ctrl s), not_resetNext_of_host hs,
      rfl, rfl, rfl, rfl, rfl⟩
    simp [busy_of_dropped_cmd hs hbreak hw] at hb
  | bufferWrite i v rest hs hok hl hb =>
    have hno := not_hostWrites_of_bufferWrite hs hl
    exact .keeps ⟨fun h => hno _ h.2, hno _, hno _, not_resetNext_of_host hs, rfl, rfl, rfl, rfl, rfl⟩
  | registerWrite r v rest hs hok hb hcmd hstatus hctrl =>
    have hwrites := hostWrites_iff hs
    exact .keeps ⟨by simp [hwrites, hcmd], by simp [hwrites, hstatus], by simp [hwrites, hctrl],
      not_resetNext_of_host hs, rfl, rfl, rfl, rfl, rfl⟩
  | start v rest hs hb => exact .start v rest hs hb
  | statusWrite v rest hs => exact .statusWrite v rest hs
  | ctrlWrite v rest hs => exact .ctrlWrite v rest hs
  | reset rest hs => exact .reset rest hs

/-! ### `STATUS`, `ERRINFO` and `ABORTREQ` -/

theorem busy_of_step {s t : State} (hstep : step s = .next t) :
    (s.busy = false → (t.busy = true ↔ HostWrites s .cmd))
    ∧ (s.busy = true → t.busy = false →
        ResetNext s ∨ (t.done = true ∧ t.abortreq = false ∧ t.genkey = none ∧ EngineTurn s)) := by
  cases flagCase_of_step hstep with
  | keeps h =>
    rw [h.busy]
    exact ⟨fun hb => by simpa [hb] using h.notStarted, by simp +contextual⟩
  | ends h => exact ⟨by simp [h.busy], fun _ _ => .inr ⟨h.done, h.abortreq, h.genkey, h.turn⟩⟩
  | start v rest hs hb => simp [hb, hostWrites_iff hs]
  | statusWrite v rest hs => simp +contextual [hostWrites_iff hs]
  | ctrlWrite v rest hs => simp +contextual [hostWrites_iff hs]
  | reset rest hs => exact ⟨by simp [HostWrites, hs], fun _ _ => .inl ⟨rest, hs⟩⟩

/-- Settles O14, along the kinds of step. -/
theorem busyChangesOnlyAtStartCompletionAndReset : Obligations.BusyChangesOnlyAtStartCompletionAndReset :=
  fun _ _ hstep => busy_of_step hstep

/-- R5, R60: the low bits of a word that the host writes reach the machine. -/
theorem testBit_lines_of_wellFormed {c : Config} (hc : c.wellFormed = true) {k : Nat} (hk : k < 32) (v : Nat) :
    (lines c.width v).testBit k = v.testBit k := by
  obtain ⟨-, hwidth, -⟩ := (wellFormed_iff c).1 hc
  simp [testBit_lines, hk.trans_le hwidth]

theorem done_of_step {s t : State} (hc : s.cfg.wellFormed = true) (hstep : step s = .next t) :
    (s.done = false → (t.done = true ↔ s.busy = true ∧ t.busy = false ∧ ¬ ResetNext s))
    ∧ (s.done = true →
        (t.done = false ↔ (s.busy = false ∧ HostWrites s .cmd) ∨ HostSetsBit s .status 1 ∨ ResetNext s))
    ∧ ((s.busy = true → s.done = false) → t.busy = true → t.done = false) := by
  cases flagCase_of_step hstep with
  | keeps h =>
    have hbit : ¬ HostSetsBit s .status 1 := fun hset => h.noStatusWrite hset.hostWrites
    rw [h.busy, h.done]
    exact ⟨by simp +contextual, by simp +contextual [h.notStarted, hbit, h.noReset], id⟩
  | ends h =>
    simp [h.busy, h.idle, h.done, h.turn.noInput.not_hostSetsBit, h.turn.noInput.not_resetNext]
  | start v rest hs hb => simp [hb, hostWrites_iff hs]
  | statusWrite v rest hs =>
    simp +contextual [hostWrites_iff hs, hostSetsBit_iff hs, not_resetNext_of_host hs, testBit_lines_of_wellFormed hc]
  | ctrlWrite v rest hs =>
    simp +contextual [hostWrites_iff hs, hostSetsBit_iff hs, not_resetNext_of_host hs]
  | reset rest hs => simp [show ResetNext s from ⟨rest, hs⟩]

/-- Settles O15, along the kinds of step. -/
theorem doneChangesOnlyAsRuled : Obligations.DoneChangesOnlyAsRuled := fun _ _ hc hstep => done_of_step hc hstep

theorem errorCode_of_step {s t : State} (hstep : step s = .next t) :
    ((s.busy = false ∧ HostWrites s .cmd) ∨ ResetNext s → t.errcode = .none ∧ t.errinfo = 0)
    ∧ (t.errcode ≠ s.errcode ∨ t.errinfo ≠ s.errinfo →
        (s.busy = false ∧ HostWrites s .cmd)
        ∨ (s.busy = true ∧ t.busy = false ∧ t.done = true ∧ t.errcode ≠ .none) ∨ ResetNext s) := by
  cases flagCase_of_step hstep with
  | keeps h => exact ⟨fun h' => absurd h' (not_or.2 ⟨h.notStarted, h.noReset⟩), by simp [h.errcode, h.errinfo]⟩
  | ends h =>
    refine ⟨by simp [h.busy, h.turn.noInput.not_resetNext], fun hne => .inr (.inl ⟨h.busy, h.idle, h.done, ?_⟩)⟩
    rcases h.error with herr | ⟨hcode, hinfo⟩
    · exact herr
    · simp [hcode, hinfo] at hne
  | start v rest hs hb => simp [hb, hostWrites_iff hs]
  | statusWrite v rest hs => simp [hostWrites_iff hs, not_resetNext_of_host hs]
  | ctrlWrite v rest hs => simp [hostWrites_iff hs, not_resetNext_of_host hs]
  | reset rest hs => simp [show ResetNext s from ⟨rest, hs⟩]

/-- Settles O16, along the kinds of step. -/
theorem errorCodeChangesOnlyAsRuled : Obligations.ErrorCodeChangesOnlyAsRuled := fun _ _ hstep => errorCode_of_step hstep

theorem abortreq_of_step {s t : State} (hc : s.cfg.wellFormed = true) (hstep : step s = .next t) :
    (s.abortreq = false → (t.abortreq = true ↔ s.busy = true ∧ HostSetsBit s .ctrl 1))
    ∧ (s.abortreq = true →
        (t.abortreq = false ↔
          (s.busy = false ∧ HostWrites s .cmd) ∨ (s.busy = true ∧ t.busy = false) ∨ ResetNext s)) := by
  cases flagCase_of_step hstep with
  | keeps h =>
    have hbit : ¬ HostSetsBit s .ctrl 1 := fun hset => h.noCtrlWrite hset.hostWrites
    rw [h.busy, h.abortreq]
    exact ⟨by simp +contextual [hbit], by simp +contextual [h.notStarted, h.noReset]⟩
  | ends h =>
    simp [h.busy, h.idle, h.abortreq, h.turn.noInput.not_hostSetsBit]
  | start v rest hs hb => simp [hb, hostWrites_iff hs]
  | statusWrite v rest hs =>
    simp +contextual [hostWrites_iff hs, hostSetsBit_iff hs, not_resetNext_of_host hs]
  | ctrlWrite v rest hs =>
    simp +contextual [hostWrites_iff hs, hostSetsBit_iff hs, not_resetNext_of_host hs, testBit_lines_of_wellFormed hc,
      and_comm]
  | reset rest hs =>
    have hbit : ¬ HostSetsBit s .ctrl 1 := by simp [HostSetsBit, hs]
    simp [hbit, show ResetNext s from ⟨rest, hs⟩]

/-- Settles O18, along the kinds of step. -/
theorem abortRequestChangesOnlyAsRuled : Obligations.AbortRequestChangesOnlyAsRuled :=
  fun _ _ hc hstep => abortreq_of_step hc hstep

/-! ### `ACCERR` -/

/-- The host makes an access next that breaks a rule. -/
def BreaksNext (s : State) : Prop := ∃ tr rest, s.script = .host tr :: rest ∧ BreaksAccessRule s tr

theorem breaksNext_iff {s : State} {tr : Transaction} {rest : List Event} (hs : s.script = .host tr :: rest) :
    BreaksNext s ↔ BreaksAccessRule s tr := by simp [BreaksNext, hs]

theorem NoInput.not_breaksNext {s : State} (h : NoInput s) : ¬ BreaksNext s := fun ⟨_, _, hs, _⟩ => h.host _ _ hs

theorem accerr_of_step {s t : State} (hc : s.cfg.wellFormed = true) (hstep : step s = .next t) :
    (s.accerr = false → (t.accerr = true ↔ BreaksNext s))
    ∧ (s.accerr = true → (t.accerr = false ↔ HostSetsBit s .status 3 ∨ ResetNext s)) := by
  cases stepCase_of_step hstep with
  | quiet hs => simp +contextual [hs.not_breaksNext, hs.not_hostSetsBit, hs.not_resetNext]
  | error hb hs =>
    have hs := hs.noInput
    simp +contextual [hs.not_breaksNext, hs.not_hostSetsBit, hs.not_resetNext]
  | success hb hs =>
    have hs := hs.noInput
    simp +contextual [hs.not_breaksNext, hs.not_hostSetsBit, hs.not_resetNext]
  | read a rest hs hRdata freeCount accerr hacc =>
    have hbit : ¬ HostSetsBit s .status 3 := by simp [HostSetsBit, hs]
    simp +contextual [breaksNext_iff hs, not_resetNext_of_host hs, hacc, hbit, ← Bool.not_eq_true]
  | dropped a v rest hs hbreak =>
    have hbit : ¬ HostSetsBit s .status 3 := fun hset =>
      not_hostWrites_of_dropped hs hbreak (not_breaksAccessRule_status s) hset.hostWrites
    simp [breaksNext_iff hs, not_resetNext_of_host hs, hbreak, hbit]
  | bufferWrite i v rest hs hok hl hb =>
    have hbit : ¬ HostSetsBit s .status 3 := fun hset => not_hostWrites_of_bufferWrite hs hl _ hset.hostWrites
    simp +contextual [breaksNext_iff hs, not_resetNext_of_host hs, hok, hbit]
  | registerWrite r v rest hs hok hb hcmd hstatus =>
    simp +contextual [breaksNext_iff hs, not_resetNext_of_host hs, hok, hostSetsBit_iff hs, hstatus]
  | start v rest hs hb =>
    simp +contextual [breaksNext_iff hs, not_resetNext_of_host hs, breaksAccessRule_cmd, hb, hostSetsBit_iff hs]
  | statusWrite v rest hs =>
    simp +contextual [breaksNext_iff hs, not_resetNext_of_host hs, not_breaksAccessRule_status, hostSetsBit_iff hs,
      testBit_lines_of_wellFormed hc]
  | ctrlWrite v rest hs =>
    simp +contextual [breaksNext_iff hs, not_resetNext_of_host hs, not_breaksAccessRule_ctrl, hostSetsBit_iff hs]
  | reset rest hs => 
    have hno : ¬ BreaksNext s := by simp [BreaksNext, hs]
    simp [hno, show ResetNext s from ⟨rest, hs⟩]

/-- Settles O17, along the kinds of step. -/
theorem accerrIsSetExactlyByBrokenAccesses : Obligations.AccerrIsSetExactlyByBrokenAccesses :=
  fun _ _ hc hstep => accerr_of_step hc hstep

/-! ### Operands, results and the buffer -/

/-- Settles O19: of the kinds of step, only a write to a register sets an operand. -/
theorem operandsAreWrittenOnlyByAnIdleHostWrite : Obligations.OperandsAreWrittenOnlyByAnIdleHostWrite := by
  intro s t hstep hreset
  cases stepCase_of_step hstep with
  | registerWrite r v rest hs hok hb _ _ _ opa opb opc _ _ ha hB hc =>
    refine ⟨fun hne => ?_, fun hne => ?_, fun hne => ?_⟩
    · obtain ⟨rfl, h⟩ := ha hne
      exact ⟨hb, v, rest, hs, h⟩
    · obtain ⟨rfl, h⟩ := hB hne
      exact ⟨hb, v, rest, hs, h⟩
    · obtain ⟨rfl, h⟩ := hc hne
      exact ⟨hb, v, rest, hs, h⟩
  | reset rest hs => exact absurd ⟨rest, hs⟩ hreset
  | _ => simp

/-- Settles O20: only a success sets a result, and no error stood while its command ran. -/
theorem resultsAreWrittenOnlyBySuccessCompletions : Obligations.ResultsAreWrittenOnlyBySuccessCompletions := by
  intro s t h hstep hreset hne
  cases stepCase_of_step hstep with
  | success hb =>
    obtain ⟨hrun, hinfo, -⟩ := h.status
    obtain ⟨-, hcode⟩ := hrun hb
    exact ⟨hb, rfl, rfl, hcode, hinfo hcode⟩
  | reset rest hs => exact absurd ⟨rest, hs⟩ hreset
  | _ => simp at hne

theorem Inv.lt_bufDepth {s : State} (h : Inv s) {i : Nat} (hi : bufAt s.buf i ≠ none) : i < s.cfg.bufDepth := by
  obtain ⟨w, hw⟩ := Option.ne_none_iff_exists'.1 hi
  exact (h.bounds.buf _ (mem_cells_of_bufAt s.buf i w hw)).1

theorem cfg_of_step {s t : State} (hstep : step s = .next t) : t.cfg = s.cfg := by
  cases stepCase_of_step hstep <;> rfl

/-- A word that a step changes is one of `BUF[0 .. BUFDEPTH-1]`: it is written before the step or after it (R40). -/
theorem lt_bufDepth_of_step {s t : State} (h : Inv s) (hstep : step s = .next t) {i : Nat}
    (hne : bufAt t.buf i ≠ bufAt s.buf i) : i < s.cfg.bufDepth := by
  by_cases hi : bufAt s.buf i = none
  · rw [← cfg_of_step hstep]
    exact (everyStepKeepsTheInvariant s t h hstep).lt_bufDepth (hi ▸ hne)
  · exact h.lt_bufDepth hi

/-- Settles O21: only a write to a buffer word and a success with words to write change `BUF`. -/
theorem bufferChangesOnlyAsRuled : Obligations.BufferChangesOnlyAsRuled := by
  intro s t i h hstep hreset hne
  refine ⟨lt_bufDepth_of_step h hstep hne, ?_⟩
  cases stepCase_of_step hstep with
  | success hb hs j hd r0 r1 r2 words hw =>
    obtain ⟨hrun, -⟩ := h.status
    obtain ⟨-, hcode⟩ := hrun hb
    refine .inr ⟨hb, rfl, hcode, ?_⟩
    rw [decode_eq_ok hd]
    rcases hw with (rfl | rfl | rfl | rfl) | rfl
    · simp [encode, opcodeOf]
    · simp [encode, opcodeOf]
    · simp [encode, opcodeOf]
    · simp [encode, opcodeOf]
    · exact absurd rfl hne
  | bufferWrite j v rest hs hok hl hb =>
    obtain rfl : i = j := by_contra fun hij => hne (bufAt_bufPut_other _ _ _ _ hij)
    exact .inl ⟨hb, v, rest, hs, bufAt_bufPut_same _ _ _⟩
  | reset rest hs => exact absurd ⟨rest, hs⟩ hreset
  | _ => exact absurd rfl hne

end Sys2Proof.Safety
end
section
/-! SUPPORT. O10, O11, O5, O22, O27: reset, the placing of a command, the hidden state and the layout of `STATUS`. -/

namespace Sys2Proof.Safety

open Sys2Proof.Machine

/-! ### Reset and the placed command -/

theorem step_of_rst {s : State} {rest : List Event} (hs : s.script = .rst :: rest) :
    step s = .next (resetInput { s with script := rest }) := by
  simp only [step, nextEvent, hs]

theorem statusWord_resetFor (c : Config) : statusWord (State.resetFor c) = 0 := rfl

/-- Settles O10: the reset input takes every field of the machine to its value after reset. -/
theorem resetGivesEveryRegisterItsValue : Obligations.ResetGivesEveryRegisterItsValue := by
  refine ⟨fun s rest hs => ⟨_, step_of_rst hs, ?_⟩, ⟨_, step_of_rst rfl, rfl⟩, rfl⟩
  simp [errFlag, irq, bufAt, findCell]

theorem inv_resetFor {c : Config} (hc : c.wellFormed = true) : Inv (State.resetFor c) := by
  obtain ⟨-, -, -, -, hefix⟩ := (wellFormed_iff c).1 hc
  have hzero : 0 < 2 ^ c.width := by positivity
  exact inv_of_idle hc (reset_memory_wf c)
    { opa := hzero, opb := hzero, opc := hzero, res0 := hzero, res1 := hzero, res2 := hzero, cmd := hzero,
      errinfo := hzero, retrylim := hzero, efix := hefix, tries := hzero, hRdata := hzero, buf := nofun }
    (fun _ => rfl) rfl rfl rfl rfl

/-- Settles O11: an idle machine whose words are 0, or `EFIX_RESET`, which fits. -/
theorem resetSatisfiesTheInvariant : Obligations.ResetSatisfiesTheInvariant :=
  ⟨fun _ hc => inv_resetFor hc, inv_resetFor (by decide)⟩

theorem decode_of_decodeTableWord {nbits w : Nat} {i : Instr} (h : decodeTableWord nbits w = some i) :
    decode (lines nbits w) = .ok i := by
  unfold decodeTableWord at h
  split at h <;> cases h
  assumption

theorem encode_lt_width {c : Config} (hc : c.wellFormed = true) (i : Instr) : encode i < 2 ^ c.width := by
  obtain ⟨-, hwidth, -⟩ := (wellFormed_iff c).1 hc
  have hopcode : encode i < 2 ^ 32 := by cases i <;> decide
  exact hopcode.trans_le (Nat.pow_le_pow_right (by norm_num) hwidth)

/-- R111: with nothing scripted, a step of a running machine is the command's step. -/
theorem step_of_running {s : State} {i : Instr} (hb : s.busy = true) (hs : s.script = []) (hd : decode s.cmd = .ok i) :
    step s = exec i s := by
  simp only [step, nextEvent, hs, engineStep, hb, if_true, hd]

/-- Settles O5: the word placed is the command's encoding, which the `W` lines carry whole. -/
theorem placedCommandRunsNext : Obligations.PlacedCommandRunsNext := by
  intro s w i hc hw
  have hdecode := decode_of_decodeTableWord hw
  have hcmd : (s.withFetchWord 32 w).cmd = encode i := by
    rw [← decode_eq_ok hdecode]
    exact lines_of_lt (decode_eq_ok hdecode ▸ encode_lt_width hc i)
  exact ⟨hcmd, rfl, step_of_running rfl rfl (hcmd ▸ decode_encode i)⟩

/-! ### The hidden state -/

section
variable (s : State) (abortreq : Bool) (phase : Option KeyPhase)

theorem regValue_of_hidden (r : Reg) :
    regValue { s with abortreq := abortreq, genkey := phase } r = regValue s r := by cases r <;> rfl

/-- Along the address map: neither a register nor a word of `BUF` is computed from the hidden state (R45, R46). -/
theorem busRead_of_hidden (a : Addr) :
    (busRead a { s with abortreq := abortreq, genkey := phase }).hRdata = (busRead a s).hRdata
    ∧ (busRead a { s with abortreq := abortreq, genkey := phase }).accerr = (busRead a s).accerr := by
  unfold busRead
  cases locate s.cfg a with
  | reg r => exact ⟨regValue_of_hidden s abortreq phase r, rfl⟩
  | buf i => cases s.busy <;> simp [bufRead, unwrittenNow]
  | unmapped => exact ⟨rfl, rfl⟩

end

/-- Settles O22, along the address map. -/
theorem hiddenStateIsNotReadable : Obligations.HiddenStateIsNotReadable :=
  fun s a abortreq phase => busRead_of_hidden s abortreq phase a

/-! ### The layout of `STATUS` -/

theorem testBit_eq_of_div_mod {x i : Nat} {b : Bool} (h : x / 2 ^ i % 2 = b.toNat) : x.testBit i = b := by
  rw [Nat.testBit_eq_decide_div_mod_eq, h]
  cases b <;> rfl

theorem codeNumber_ne_zero_iff (e : ErrCode) : codeNumber e ≠ 0 ↔ (e != .none) = true := by
  cases e <;> decide

/-- R31: the fields of `STATUS` lie in places that do not overlap. -/
theorem statusWord_layout (s : State) :
    (statusWord s).testBit 0 = s.busy ∧ (statusWord s).testBit 1 = s.done
    ∧ (statusWord s).testBit 2 = errFlag s ∧ (statusWord s).testBit 3 = s.accerr
    ∧ (∀ i, 4 ≤ i → i ≤ 7 → (statusWord s).testBit i = false)
    ∧ statusWord s / 2 ^ 8 % 16 = codeNumber s.errcode
    ∧ (∀ i, 12 ≤ i → (statusWord s).testBit i = false) := by
  have hbusy := Bool.toNat_le s.busy
  have hdone := Bool.toNat_le s.done
  have herr := Bool.toNat_le (errFlag s)
  have hacc := Bool.toNat_le s.accerr
  have hcode := codeNumber_le s.errcode
  unfold statusWord
  refine ⟨testBit_eq_of_div_mod (by omega), testBit_eq_of_div_mod (by omega), testBit_eq_of_div_mod (by omega),
    testBit_eq_of_div_mod (by omega), fun i h4 h7 => testBit_eq_of_div_mod ?_, by omega, fun i h12 => ?_⟩
  · interval_cases i <;> simp <;> omega
  · refine Nat.testBit_lt_two_pow (lt_of_lt_of_le ?_ (Nat.pow_le_pow_right (by norm_num) h12))
    omega

/-- Settles O27: the bits of `STATUS` by arithmetic on its fields, and the numbers of the codes as they are defined. -/
theorem statusWordLayout : Obligations.StatusWordLayout := by
  refine ⟨fun s => ?_, statusWord_resetFor, rfl, rfl, rfl, rfl, rfl, rfl, rfl, rfl, rfl⟩
  have hlayout := statusWord_layout s
  rw [codeNumber_ne_zero_iff]
  rwa [errFlag, Bool.eq_iff_iff (b := s.errcode != .none)] at hlayout

end Sys2Proof.Safety
end
section
/-! SUPPORT. O29: what no engine step changes. A command without draws does not even use up a draw. -/

namespace Sys2Proof.Safety

open Sys2Proof.Machine

/-- The outcome of an engine step from `s` is the end of a command that has made no draw; it may have read unwritten words
of `BUF`. -/
inductive DrawlessEnding (s : State) : Host.Outcome State Fault Refusal → Prop where
  | error (e : CmdError) (written : Bool) : DrawlessEnding s (.next (raiseError e (afterReading written s)))
  | success (r0 r1 r2 : Nat) (words : List Nat) (written : Bool) :
      DrawlessEnding s (.next (completeWriting r0 r1 r2 words (afterReading written s)))

theorem drawlessEnding_error (s : State) (e : CmdError) : DrawlessEnding s (.next (raiseError e s)) := .error e true

theorem drawlessEnding_complete (s : State) (r0 r1 r2 : Nat) : DrawlessEnding s (.next (complete r0 r1 r2 s)) :=
  .success r0 r1 r2 [] true

theorem drawlessEnding_writing (s : State) (r0 r1 r2 : Nat) (words : List Nat) :
    DrawlessEnding s (.next (completeWriting r0 r1 r2 words s)) := .success r0 r1 r2 words true

/-- R111: a command without draws ends in its one step, by one of its checks or past them all. -/
theorem exec_drawlessEnding {i : Instr} (hi : DrawsNothing i) (s : State) : DrawlessEnding s (exec i s) := by
  cases i with
  | isprime => exact drawlessEnding_complete s _ 0 0
  | genprime => exact absurd rfl hi.1
  | modpow =>
    simp only [exec, execModpow]
    split_ifs
    · exact drawlessEnding_error s _
    · exact drawlessEnding_complete s _ 0 0
  | modinv =>
    simp only [exec, execModinv]
    split_ifs
    · exact drawlessEnding_error s _
    · exact drawlessEnding_error s _
    · exact drawlessEnding_complete s _ 0 0
  | isproot =>
    simp only [exec, execIsproot]
    split_ifs
    · exact drawlessEnding_error s _
    · exact drawlessEnding_complete s _ 0 0
  | findroots =>
    simp only [exec, execFindroots]
    split_ifs
    · exact drawlessEnding_error s _
    · exact drawlessEnding_error s _
    · exact drawlessEnding_writing s _ _ _ _
  | trace =>
    simp only [exec, execTrace]
    split_ifs
    · exact drawlessEnding_error s _
    · exact drawlessEnding_error s _
    · exact drawlessEnding_writing s _ _ _ _
  | genkey => exact absurd rfl hi.2
  | encrypt =>
    simp only [exec, execEncrypt]
    split_ifs
    · exact drawlessEnding_error s _
    · exact drawlessEnding_error s _
    · cases firstTooLarge (bufPrefix s (operandA s)) (operandC s) with
      | some i => exact .error _ _
      | none => exact .success _ _ _ _ _
  | decrypt =>
    simp only [exec, execDecrypt]
    split_ifs
    · exact drawlessEnding_error s _
    · exact drawlessEnding_error s _
    · exact .success _ _ _ _ _

theorem draws_of_drawless {i : Instr} {s t : State} (hi : DrawsNothing i) (h : exec i s = .next t) :
    t.tries = s.tries ∧ t.source = s.source ∧ t.outstanding = s.outstanding := by
  have hend := exec_drawlessEnding hi s
  rw [h] at hend
  cases hend <;> simp

theorem buf_of_exec {i : Instr} {s t : State} (hi : ¬ WritesBuffer i) (h : exec i s = .next t) : t.buf = s.buf := by
  obtain ⟨u, ⟨_, _, _, _, rfl⟩, hl⟩ := exec_cases h
  rcases hl with ⟨-, rfl⟩ | ⟨-, phase, rfl⟩ | ⟨e, rfl⟩ | ⟨r0, r1, r2, words, hw | rfl, rfl⟩
  · rfl
  · rfl
  · rfl
  · exact absurd hw hi
  · rfl

/-- What no engine step changes: what the host alone writes, the parameters and the environment's script. -/
structure EngineFrame (s t : State) : Prop where
  opa : t.opa = s.opa
  opb : t.opb = s.opb
  opc : t.opc = s.opc
  cmd : t.cmd = s.cmd
  ie : t.ie = s.ie
  accerr : t.accerr = s.accerr
  retrylim : t.retrylim = s.retrylim
  efix : t.efix = s.efix
  cfg : t.cfg = s.cfg
  hRdata : t.hRdata = s.hRdata
  script : t.script = s.script

theorem engineFrame_of_exec {i : Instr} {s t : State} (h : exec i s = .next t) : EngineFrame s t := by
  obtain ⟨u, ⟨_, _, _, _, rfl⟩, hl⟩ := exec_cases h
  rcases hl with ⟨-, rfl⟩ | ⟨-, phase, rfl⟩ | ⟨e, rfl⟩ | ⟨r0, r1, r2, words, -, rfl⟩ <;>
    exact ⟨rfl, rfl, rfl, rfl, rfl, rfl, rfl, rfl, rfl, rfl, rfl⟩

/-- Settles O29, from what a step can do to the state (`exec_cases`, `exec_drawlessEnding`). -/
theorem engineStepFrame : Obligations.EngineStepFrame := by
  intro i s t h
  have hf := engineFrame_of_exec h
  exact ⟨hf.opa, hf.opb, hf.opc, hf.cmd, hf.ie, hf.accerr, hf.retrylim, hf.efix, hf.cfg, hf.hRdata, hf.script,
    fun hi => buf_of_exec (by simpa [WritesBuffer] using hi) h, fun hi => draws_of_drawless hi h⟩

end Sys2Proof.Safety
end
section
/-! SUPPORT. O45: with a retry ceiling and a source that answers, every command ends. A step of the running command ends it
or makes one of the draws that the ceiling still allows. -/

namespace Sys2Proof.Safety

open Sys2Proof.Machine

/-! ### The loops of `GENPRIME` and `GENKEY` -/

/-- `t` is the end of the command, or it is `u` with the command going on, in whatever phase. -/
def EndsOrGoesOn (u t : State) : Prop :=
  (t.busy = false ∧ t.done = true) ∨ ∃ phase, t = { u with genkey := phase }

theorem endsOrGoesOn_of_leavesAs {i : Instr} {u t : State} (h : LeavesAs i u t) : EndsOrGoesOn u t := by
  rcases h with ⟨-, rfl⟩ | ⟨-, phase, rfl⟩ | ⟨e, rfl⟩ | ⟨r0, r1, r2, words, -, rfl⟩
  · exact .inr ⟨t.genkey, rfl⟩
  · exact .inr ⟨some phase, rfl⟩
  · exact .inl ⟨rfl, rfl⟩
  · exact .inl ⟨rfl, rfl⟩

theorem endsOrGoesOn_acceptPrime (v : Nat) (u : State) : EndsOrGoesOn u (acceptPrime v u) := by
  unfold acceptPrime
  split_ifs
  · exact .inl ⟨rfl, rfl⟩
  · exact .inr ⟨u.genkey, rfl⟩

theorem endsOrGoesOn_afterFirstDraw (v : Nat) (u : State) : EndsOrGoesOn u (afterFirstDraw v u) := by
  unfold afterFirstDraw
  split_ifs
  · exact .inr ⟨some (.q v), rfl⟩
  · exact .inr ⟨some .p, rfl⟩

theorem endsOrGoesOn_afterSecondDraw (p v : Nat) (u : State) : EndsOrGoesOn u (afterSecondDraw p v u) := by
  unfold afterSecondDraw
  split_ifs
  · exact endsOrGoesOn_of_leavesAs (leavesAs_choosePublicExponent p v u)
  · exact .inr ⟨u.genkey, rfl⟩

theorem endsOrGoesOn_afterExponentDraw (p q phi v : Nat) (u : State) :
    EndsOrGoesOn u (afterExponentDraw p q phi v u) := by
  unfold afterExponentDraw
  split_ifs
  · exact .inl ⟨rfl, rfl⟩
  · exact .inr ⟨u.genkey, rfl⟩

/-- The outcome of an engine step from `s` ends the command, or it is one iteration of a drawing loop. -/
inductive EndsOrDraws (s : State) : Host.Outcome State Fault Refusal → Prop where
  | ends (t : State) (hb : t.busy = false) (hd : t.done = true) : EndsOrDraws s (.next t)
  | draws (lo hi : Nat) (accept : Nat → State → State) (ha : ∀ v u, EndsOrGoesOn u (accept v u)) :
      EndsOrDraws s (keyStep lo hi accept s)

theorem execGenprime_endsOrDraws (s : State) : EndsOrDraws s (execGenprime s) := by
  rw [execGenprime_eq_keyStep]
  split_ifs
  · exact .ends _ rfl rfl
  · exact .draws _ _ _ endsOrGoesOn_acceptPrime

theorem execGenkey_endsOrDraws (s : State) : EndsOrDraws s (execGenkey s) := by
  unfold execGenkey
  split
  · split_ifs
    · exact .ends _ rfl rfl
    · exact .ends _ rfl rfl
    · exact .draws _ _ _ endsOrGoesOn_afterFirstDraw
  · exact .draws _ _ _ endsOrGoesOn_afterFirstDraw
  · exact .draws _ _ _ (endsOrGoesOn_afterSecondDraw _)
  · exact .draws _ _ _ (endsOrGoesOn_afterExponentDraw _ _ _)

theorem DrawlessEnding.endsOrDraws {s : State} {o : Host.Outcome State Fault Refusal} (h : DrawlessEnding s o) :
    EndsOrDraws s o := by
  cases h with
  | error e written => exact .ends _ rfl rfl
  | success r0 r1 r2 words written => exact .ends _ rfl rfl

theorem exec_endsOrDraws (i : Instr) (s : State) : EndsOrDraws s (exec i s) := by
  by_cases hi : DrawsNothing i
  · exact (exec_drawlessEnding hi s).endsOrDraws
  · cases i with
    | genprime => exact execGenprime_endsOrDraws s
    | genkey => exact execGenkey_endsOrDraws s
    | _ => exact absurd ⟨nofun, nofun⟩ hi

/-! ### One step -/

/-- A command runs below a retry ceiling, with a source that answers, and nothing comes before the engine. -/
structure RunsBelowCeiling (s : State) : Prop where
  inv : Inv s
  busy : s.busy = true
  script : s.script = []
  source : s.source = .free
  ceiling : s.retrylim ≠ 0

/-- From `s` to `t` one of the draws that the ceiling allows was made, and the command goes on. -/
structure CountsDraw (s t : State) : Prop where
  below : s.tries < s.retrylim
  tries : t.tries = s.tries + 1
  busy : t.busy = s.busy
  script : t.script = s.script
  source : t.source = s.source
  retrylim : t.retrylim = s.retrylim

/-- R117: where the source answers, a draw is made or its check ends the command. -/
theorem draw_free {s : State} (hsource : s.source = .free) (lo hi : Nat) :
    (∃ e, draw lo hi s = .stopped (raiseError e s))
    ∨ ((s.outstanding = none → NoAbortNoTimeout s)
        ∧ ∃ v, draw lo hi s = .drew v (countDraw { s with freeCount := s.freeCount + 1 })) := by
  rcases draw_cases lo hi s with ⟨-, -, h⟩ | ⟨-, -, -, -, h⟩ | ⟨hcheck, ⟨-, h⟩ | ⟨hs, -⟩ | ⟨v, rest, hs, -⟩⟩
  · exact .inl ⟨_, h⟩
  · exact .inl ⟨_, h⟩
  · exact .inr ⟨hcheck, _, h⟩
  · simp [hsource] at hs
  · simp [hsource] at hs

section
variable {lo hi v : Nat} {accept : Nat → State → State} {s u : State}

theorem keyStep_of_drew (hd : draw lo hi s = .drew v u) : keyStep lo hi accept s = .next (accept v u) := by
  simp only [keyStep, hd]

theorem keyStep_of_stopped (hd : draw lo hi s = .stopped u) : keyStep lo hi accept s = .next u := by
  simp only [keyStep, hd]

end

section
variable {s : State} (h : RunsBelowCeiling s)
include h

theorem countsDraw_of_countDraw (hcheck : s.outstanding = none → NoAbortNoTimeout s) (freeCount : Nat)
    (phase : Option KeyPhase) :
    CountsDraw s { countDraw { s with freeCount := freeCount } with genkey := phase } := by
  have hlt : s.tries < s.retrylim := tries_lt_retrylim h.inv h.busy hcheck h.ceiling
  have hfits := h.inv.bounds.retrylim
  have htries : min (s.tries + 1) (2 ^ s.cfg.width - 1) = s.tries + 1 := by omega
  exact ⟨hlt, htries, rfl, rfl, rfl, rfl⟩

theorem keyStep_ends_or_counts (lo hi : Nat) {accept : Nat → State → State}
    (ha : ∀ v u, EndsOrGoesOn u (accept v u)) :
    ∃ t, keyStep lo hi accept s = .next t ∧ ((t.busy = false ∧ t.done = true) ∨ CountsDraw s t) := by
  rcases draw_free h.source lo hi with ⟨e, hdraw⟩ | ⟨hcheck, v, hdraw⟩
  · exact ⟨_, keyStep_of_stopped hdraw, .inl ⟨rfl, rfl⟩⟩
  · refine ⟨_, keyStep_of_drew hdraw, (ha v _).imp_right ?_⟩
    rintro ⟨phase, hon⟩
    rw [hon]
    exact countsDraw_of_countDraw h hcheck _ phase

theorem exec_ends_or_counts (i : Instr) :
    ∃ t, exec i s = .next t ∧ ((t.busy = false ∧ t.done = true) ∨ CountsDraw s t) := by
  have hkind := exec_endsOrDraws i s
  generalize exec i s = o at hkind
  cases hkind with
  | ends t hb hd => exact ⟨t, rfl, .inl ⟨hb, hd⟩⟩
  | draws lo hi accept ha => exact keyStep_ends_or_counts h lo hi ha

theorem step_ends_or_counts :
    ∃ t, step s = .next t ∧ ((t.busy = false ∧ t.done = true) ∨ CountsDraw s t) := by
  cases hd : decode s.cmd with
  | ok i =>
    rw [step_of_running h.busy h.script hd]
    exact exec_ends_or_counts h i
  | error e =>
    refine ⟨raiseError (.illegal s.cmd) s, ?_, .inl ⟨rfl, rfl⟩⟩
    simp only [step, nextEvent, h.script, engineStep, h.busy, if_true, hd]

/-- A draw that does not end the command leaves it running below the ceiling. -/
theorem RunsBelowCeiling.of_countsDraw {t : State} (hstep : step s = .next t) (hc : CountsDraw s t) :
    RunsBelowCeiling t where
  inv := everyStepKeepsTheInvariant s t h.inv hstep
  busy := hc.busy.trans h.busy
  script := hc.script.trans h.script
  source := hc.source.trans h.source
  ceiling := hc.retrylim ▸ h.ceiling

end

/-! ### The run -/

/-- Each step that does not end the command leaves one draw fewer to make. -/
theorem ends_within_ceiling (s : State) (h : RunsBelowCeiling s) :
    ∃ k t, k ≤ s.retrylim - s.tries + 1 ∧ Host.Core.run Sys2Proof.core k s = .next t ∧ t.busy = false
      ∧ t.done = true := by
  obtain ⟨u, hstep, hends | hc⟩ := step_ends_or_counts h
  · exact ⟨1, u, by omega, run_succ hstep, hends⟩
  · have hbelow := hc.below
    have hfewer : u.retrylim - u.tries + 1 = s.retrylim - s.tries := by
      rw [hc.retrylim, hc.tries]
      omega
    obtain ⟨k, t, hk, hrun, hends⟩ := ends_within_ceiling u (h.of_countsDraw hstep hc)
    exact ⟨k + 1, t, by omega, (run_succ hstep).trans hrun, hends⟩
termination_by s.retrylim - s.tries

/-- Settles O45, by induction on the draws that the ceiling still allows. -/
theorem retryCeilingEndsEveryCommand : Obligations.RetryCeilingEndsEveryCommand :=
  fun s hinv hb hscript hsource hceiling => ends_within_ceiling s ⟨hinv, hb, hscript, hsource, hceiling⟩

end Sys2Proof.Safety
end
section
/-! SUPPORT. O8, O23, O25: what a host transaction returns, what it writes, and that only a write to `CMD` moves the
engine. -/

namespace Sys2Proof.Safety

open Sys2Proof.Machine

/-! ### Reads -/

/-- R36, R61: bit 0 of `CTRL` reads as `IE`, and the others as 0. -/
theorem ctrlWord_eq (s : State) : ctrlWord s = if s.ie then 1 else 0 := by
  unfold ctrlWord
  cases s.ie <;> rfl

/-- R36, R61: a host read of `CTRL`. -/
theorem read_ctrl (s : State) :
    busTransaction s (.read (regAddr .ctrl)) = { s with hRdata := if s.ie then 1 else 0 } := by
  rw [read_reg, regValue, ctrlWord_eq]

section
variable {s : State} {i : Nat} (hi : i < s.cfg.bufDepth) (hd : s.cfg.bufDepth ≤ 65280)
include hi hd

/-- R61: no free value is used up where the word has been written. -/
theorem read_writtenBuf {w : Nat} (hb : s.busy = false) (hw : bufAt s.buf i = some w) :
    busTransaction s (.read (bufAddr i)) = { s with hRdata := w } := by
  simp [read_buf hi hd, hb, hw, bufRead_of_written hw]

/-- R64: the busy lock refuses a read of the buffer. -/
theorem read_lockedBuf (hb : s.busy = true) :
    busTransaction s (.read (bufAddr i)) = { s with hRdata := 0, accerr := true } := by
  simp only [read_buf hi hd, hb, if_true, accessError]

end

/-- Settles O23, along the address map: the registers, the buffer, and the addresses that denote nothing. -/
theorem hostReadTable : Obligations.HostReadTable := by
  intro s hc
  obtain ⟨-, -, -, hd, -⟩ := (wellFormed_iff s.cfg).1 hc
  exact ⟨read_reg s .opa, read_reg s .opb, read_reg s .opc, read_reg s .res0, read_reg s .res1, read_reg s .res2,
    read_reg s .cmd, read_reg s .status, read_ctrl s, read_reg s .errinfo, read_reg s .retrylim, read_reg s .efix,
    read_reg s .tries, fun _ _ hi hb hw => read_writtenBuf hi hd hb hw, fun _ hi hb => read_lockedBuf hi hd hb,
    fun _ ha => read_unmapped (locate_hole ha)⟩

/-! ### Writes that are dropped -/

/-- R64, R65, R67: a write that breaks an access rule sets `ACCERR` and does nothing else. -/
theorem write_of_breaksAccessRule {s : State} {a : Addr} {v : Nat} (h : BreaksAccessRule s (.write a v)) :
    busTransaction s (.write a v) = { s with accerr := true } := by
  rcases busWrite_cases s a (lines s.cfg.width v) v with ⟨-, hw⟩ | ⟨hok, -⟩
  · exact hw
  · exact absurd h hok

/-- The registers that the busy lock guards (R62, R64). -/
def lockedRegs : List Reg := [.opa, .opb, .opc, .cmd, .retrylim, .efix]

/-- The registers that a host only reads (R65). -/
def readOnlyRegs : List Reg := [.res0, .res1, .res2, .errinfo, .tries]

theorem breaksAccessRule_locked {s : State} (hb : s.busy = true) (v : Nat) :
    ∀ r ∈ lockedRegs, BreaksAccessRule s (.write (regAddr r) v) := by
  simp [lockedRegs, BreaksAccessRule, locate_regAddr, hb]

theorem breaksAccessRule_readOnly (s : State) (v : Nat) :
    ∀ r ∈ readOnlyRegs, BreaksAccessRule s (.write (regAddr r) v) := by
  simp [readOnlyRegs, BreaksAccessRule, locate_regAddr]

theorem breaksAccessRule_lockedBuf {s : State} {i : Nat} (hi : i < s.cfg.bufDepth) (hd : s.cfg.bufDepth ≤ 65280)
    (hb : s.busy = true) (v : Nat) : BreaksAccessRule s (.write (bufAddr i) v) := by
  simp only [BreaksAccessRule, locate_bufAddr hi hd, hb]

theorem breaksAccessRule_unmapped {s : State} {a : Addr} (h : locate s.cfg a = .unmapped) (v : Nat) :
    BreaksAccessRule s (.write a v) := by
  simp only [BreaksAccessRule, h]

/-- An address with the number of one of the registers' is that register's. -/
theorem exists_regAddr_of_mem {rs : List Reg} {a : Addr} (h : a.toNat ∈ rs.map fun r => (regAddr r).toNat) :
    ∃ r ∈ rs, a = regAddr r := by
  obtain ⟨r, hr, ha⟩ := List.mem_map.1 h
  exact ⟨r, hr, BitVec.eq_of_toNat_eq ha.symm⟩

theorem breaksAccessRule_of_lockedAddr {s : State} {a : Addr} (hb : s.busy = true) (v : Nat)
    (h : a.toNat ∈ [0x00, 0x01, 0x02, 0x08, 0x0C, 0x0D]) : BreaksAccessRule s (.write a v) := by
  obtain ⟨r, hr, rfl⟩ := exists_regAddr_of_mem (rs := lockedRegs) h
  exact breaksAccessRule_locked hb v r hr

theorem breaksAccessRule_of_readOnlyAddr {s : State} {a : Addr} (v : Nat)
    (h : a.toNat ∈ [0x03, 0x04, 0x05, 0x0B, 0x0E]) : BreaksAccessRule s (.write a v) := by
  obtain ⟨r, hr, rfl⟩ := exists_regAddr_of_mem (rs := readOnlyRegs) h
  exact breaksAccessRule_readOnly s v r hr

/-! ### Writes that are taken -/

section
variable {s : State} {v : Nat} (hv : v < 2 ^ s.cfg.width)
include hv

/-- The `W` lines carry a word whole. -/
theorem write_reg_of_fits (r : Reg) : busTransaction s (.write (regAddr r) v) = regWrite v r s := by
  rw [write_reg, lines_of_lt hv]

/-- R62: while no command runs, a write to a register that the busy lock guards is taken. -/
theorem write_idleReg (hb : s.busy = false) {r : Reg} {t : State} (ht : IdleWrite v s r = some t) :
    busTransaction s (.write (regAddr r) v) = t := by
  rw [write_reg_of_fits hv]
  cases r <;> cases ht <;> simp only [regWrite, unlessBusy, hb, Bool.false_eq_true, if_false]

/-- R36, R212: without a command running there is nothing to abort. -/
theorem write_ctrl_idle (hb : s.busy = false) :
    busTransaction s (.write (regAddr .ctrl) v) = { s with ie := v.testBit 0 } := by
  simp [write_reg_of_fits hv, regWrite, writeCtrl, hb]

theorem write_ctrl_busy (hb : s.busy = true) :
    busTransaction s (.write (regAddr .ctrl) v)
      = { s with ie := v.testBit 0, abortreq := s.abortreq || v.testBit 1 } := by
  simp [write_reg_of_fits hv, regWrite, writeCtrl, hb]

theorem write_idleBuf {i : Nat} (hi : i < s.cfg.bufDepth) (hd : s.cfg.bufDepth ≤ 65280) (hb : s.busy = false) :
    busTransaction s (.write (bufAddr i) v) = { s with buf := bufPut s.buf i v } := by
  simp [write_buf v hi hd, unlessBusy, hb, lines_of_lt hv]

end

/-- Settles O25, along the address map: what the busy lock lets through, what it drops, and what is always dropped. -/
theorem hostWriteTable : Obligations.HostWriteTable := by
  intro s v hc hv
  obtain ⟨-, -, -, hd, -⟩ := (wellFormed_iff s.cfg).1 hc
  refine ⟨fun hb => ?idle, fun hb => ?busy, write_reg_of_fits hv .status, ?dropped⟩
  case idle =>
    have hreg {r : Reg} {t : State} (ht : IdleWrite v s r = some t) := write_idleReg hv hb ht
    exact ⟨hreg (r := .opa) rfl, hreg (r := .opb) rfl, hreg (r := .opc) rfl, hreg (r := .retrylim) rfl,
      hreg (r := .efix) rfl, write_ctrl_idle hv hb, fun i hi =>
        ⟨_, write_idleBuf hv hi hd hb, bufAt_bufPut_same _ _ _, fun j hj => bufAt_bufPut_other _ _ _ _ hj⟩⟩
  case busy =>
    exact ⟨write_ctrl_busy hv hb,
      fun _ ha => write_of_breaksAccessRule (breaksAccessRule_of_lockedAddr hb v ha),
      fun _ hi => write_of_breaksAccessRule (breaksAccessRule_lockedBuf hi hd hb v)⟩
  case dropped =>
    rintro a (hreadOnly | hhole)
    · exact write_of_breaksAccessRule (breaksAccessRule_of_readOnlyAddr v hreadOnly)
    · exact write_of_breaksAccessRule (breaksAccessRule_unmapped (locate_hole hhole) v)

/-! ### What a transaction leaves of the running command -/

/-- What only an accepted write to `CMD` changes among what a command shows of itself (R63, R70). -/
structure CommandFrame (s t : State) : Prop where
  cmd : t.cmd = s.cmd
  busy : t.busy = s.busy
  tries : t.tries = s.tries
  errinfo : t.errinfo = s.errinfo
  errcode : t.errcode = s.errcode

theorem commandFrame_busRead (s : State) (a : Addr) : CommandFrame s (busRead a s) := by
  rcases busRead_cases s a with ⟨r, -, h⟩ | ⟨i, -, -, h⟩ | ⟨-, h⟩ <;> rw [h]
  · exact ⟨rfl, rfl, rfl, rfl, rfl⟩
  · constructor <;> simp
  · exact ⟨rfl, rfl, rfl, rfl, rfl⟩

theorem commandFrame_idleWrite {s t : State} {v : Nat} {r : Reg} (hr : r ≠ .cmd) (ht : IdleWrite v s r = some t) :
    CommandFrame s t := by
  cases r <;> cases ht
  case cmd => exact absurd rfl hr
  all_goals exact ⟨rfl, rfl, rfl, rfl, rfl⟩

theorem commandFrame_busWrite (s : State) {a : Addr} (ha : a ≠ regAddr .cmd) (v : Nat) :
    CommandFrame s (busWrite a v s) := by
  rcases busWrite_cases s a v v with
    ⟨-, h⟩ | ⟨-, ⟨i, -, -, h⟩ | ⟨r, t, rfl, -, ht, h⟩ | ⟨-, h⟩ | ⟨-, h⟩⟩ <;> rw [h]
  · exact ⟨rfl, rfl, rfl, rfl, rfl⟩
  · exact ⟨rfl, rfl, rfl, rfl, rfl⟩
  · exact commandFrame_idleWrite (fun hr => ha (congrArg regAddr hr)) ht
  · exact ⟨rfl, rfl, rfl, rfl, rfl⟩
  · exact ⟨rfl, rfl, rfl, rfl, rfl⟩

theorem commandFrame_busTransaction (s : State) {tr : Transaction} (htr : ¬ ∃ v, tr = .write (regAddr .cmd) v) :
    CommandFrame s (busTransaction s tr) := by
  cases tr with
  | read a => exact commandFrame_busRead s a
  | write a v => exact commandFrame_busWrite s (fun ha => htr ⟨v, by rw [ha]⟩) _

theorem step_of_host {s : State} {tr : Transaction} {rest : List Event} (hs : s.script = .host tr :: rest) :
    step s = .next (busTransaction { s with script := rest } tr) := by
  simp only [step, nextEvent, hs]

/-- Settles O8, from the two frames of a host transaction. -/
theorem busNeverStallsNorMovesTheEngine : Obligations.BusNeverStallsNorMovesTheEngine := by
  intro s tr rest hs
  have hf := busFrame_busTransaction { s with script := rest } tr
  refine ⟨_, step_of_host hs, rfl, hf.script, hf.res0, hf.res1, hf.res2, hf.genkey, hf.outstanding, hf.source, hf.cfg,
    fun htr => ?_⟩
  have hc := commandFrame_busTransaction { s with script := rest } htr
  exact ⟨hc.cmd, hc.busy, hc.tries, hc.errinfo, hc.errcode⟩

end Sys2Proof.Safety
end
section
/-! SUPPORT. O9, O13: a draw is from the range that is due, which consists of words and is not empty; an answer outside
it is all that can stop a step. -/

namespace Sys2Proof.Safety

open Sys2Proof.Machine

/-! ### One iteration of a drawing loop, by what the source does -/

/-- The pre-draw check stops the iteration or the source withholds its answer, or the source answers freely, or the next
scripted answer is used or refused. -/
theorem keyStep_cases (lo hi : Nat) (accept : Nat → State → State) (s : State) :
    (∃ t, keyStep lo hi accept s = .next t ∧ t.source = s.source)
    ∨ (s.source = .free ∧ ∃ t, keyStep lo hi accept s = .next t)
    ∨ ∃ v rest, s.source = .scripted (v :: rest)
        ∧ ((lo ≤ v ∧ v ≤ hi ∧ ∃ t, keyStep lo hi accept s = .next t)
          ∨ ((v < lo ∨ hi < v) ∧ keyStep lo hi accept s = .refused .drawOutOfRange)) := by
  rcases draw_cases lo hi s with
    ⟨-, -, h⟩ | ⟨-, -, -, -, h⟩ | ⟨-, ⟨hs, h⟩ | ⟨-, h⟩ | ⟨v, rest, hs, ⟨hlo, hhi, h⟩ | ⟨hout, h⟩⟩⟩
  · exact .inl ⟨_, keyStep_of_stopped h, rfl⟩
  · exact .inl ⟨_, keyStep_of_stopped h, rfl⟩
  · exact .inr (.inl ⟨hs, _, keyStep_of_drew h⟩)
  · exact .inl ⟨_, keyStep_of_stopped h, rfl⟩
  · exact .inr (.inr ⟨v, rest, hs, .inl ⟨hlo, hhi, _, keyStep_of_drew h⟩⟩)
  · exact .inr (.inr ⟨v, rest, hs, .inr ⟨hout, by simp only [keyStep, h]⟩⟩)

/-! ### The engine draws from the range that is due -/

/-- The outcome of an engine step from `s` asks the source for nothing, or it is one iteration of a loop that draws from
the range due. -/
inductive DrawsOnlyWhenDue (s : State) : Host.Outcome State Fault Refusal → Prop where
  | silent (t : State) (hsource : t.source = s.source) : DrawsOnlyWhenDue s (.next t)
  | draws (lo hi : Nat) (accept : Nat → State → State) (hdue : nextDrawRange s = some (lo, hi)) :
      DrawsOnlyWhenDue s (keyStep lo hi accept s)

theorem DrawlessEnding.drawsOnlyWhenDue {s : State} {o : Host.Outcome State Fault Refusal} (h : DrawlessEnding s o) :
    DrawsOnlyWhenDue s o := by
  cases h with
  | error e written => exact .silent _ (by simp)
  | success r0 r1 r2 words written => exact .silent _ (by simp)

/-- R132: the draw of `GENPRIME` is from its operands, once they have passed their check. -/
theorem execGenprime_drawsOnlyWhenDue {s : State} (hc : s.cmd = 0x02) : DrawsOnlyWhenDue s (execGenprime s) := by
  rw [execGenprime_eq_keyStep]
  split_ifs with hempty
  · exact .silent _ rfl
  · exact .draws _ _ _ (by simp [nextDrawRange, hc, not_lt.1 hempty])

/-- R172, R173: so is that of `GENKEY` in its first two phases; the last draws an exponent. -/
theorem execGenkey_drawsOnlyWhenDue {s : State} (hc : s.cmd = 0x20) : DrawsOnlyWhenDue s (execGenkey s) := by
  unfold execGenkey
  split
  next hg =>
    split_ifs with hempty hlarge
    · exact .silent _ rfl
    · exact .silent _ rfl
    · have hle : s.opa ≤ s.opb := not_lt.1 hempty
      have hhalf : s.opb < s.cfg.half := not_le.1 hlarge
      exact .draws _ _ _ (by simp [nextDrawRange, hc, hg, hle, hhalf])
  next hg => exact .draws _ _ _ (by simp [nextDrawRange, hc, hg])
  next p hg => exact .draws _ _ _ (by simp [nextDrawRange, hc, hg])
  next p q phi hg => exact .draws _ _ _ (by simp [nextDrawRange, hc, hg])

theorem exec_drawsOnlyWhenDue {i : Instr} {s : State} (hc : s.cmd = encode i) : DrawsOnlyWhenDue s (exec i s) := by
  by_cases hi : DrawsNothing i
  · exact (exec_drawlessEnding hi s).drawsOnlyWhenDue
  · cases i with
    | genprime => exact execGenprime_drawsOnlyWhenDue hc
    | genkey => exact execGenkey_drawsOnlyWhenDue hc
    | _ => exact absurd ⟨nofun, nofun⟩ hi

theorem engineStep_drawsOnlyWhenDue (s : State) : DrawsOnlyWhenDue s (engineStep s) := by
  unfold engineStep
  split_ifs
  · split
    · rename_i i hd
      exact exec_drawsOnlyWhenDue (decode_eq_ok hd)
    · exact .silent _ rfl
  · exact .silent _ rfl

/-! ### What stops a step -/

/-- A range is due only while the command is `GENPRIME` or `GENKEY`. -/
theorem cmd_of_nextDrawRange {s : State} {r : Nat × Nat} (h : nextDrawRange s = some r) :
    s.cmd = 0x02 ∨ s.cmd = 0x20 := by
  by_contra hno
  obtain ⟨hprime, hkey⟩ := not_or.1 hno
  simp [nextDrawRange_of_other hprime hkey] at h

/-- The source's next answer lies outside the range of the draw that is due (U7). -/
def OutOfRangeAnswer (s : State) : Prop :=
  ∃ lo hi v rest, nextDrawRange s = some (lo, hi) ∧ s.source = .scripted (v :: rest) ∧ (v < lo ∨ hi < v)

/-- The outcome of a step from `s` is a next state, or it is refused for an answer out of range. -/
inductive StopsOnlyOutOfRange (s : State) : Host.Outcome State Fault Refusal → Prop where
  | next (t : State) : StopsOnlyOutOfRange s (.next t)
  | refused (hb : s.busy = true) (ha : OutOfRangeAnswer s) : StopsOnlyOutOfRange s (.refused .drawOutOfRange)

theorem DrawsOnlyWhenDue.stopsOnlyOutOfRange {s : State} {o : Host.Outcome State Fault Refusal} (hb : s.busy = true)
    (h : DrawsOnlyWhenDue s o) : StopsOnlyOutOfRange s o := by
  cases h with
  | silent t => exact .next t
  | draws lo hi accept hdue =>
    rcases keyStep_cases lo hi accept s with
      ⟨t, h, -⟩ | ⟨-, t, h⟩ | ⟨v, rest, hs, ⟨-, -, t, h⟩ | ⟨hout, h⟩⟩ <;> rw [h]
    · exact .next t
    · exact .next t
    · exact .next t
    · exact .refused hb ⟨lo, hi, v, rest, hdue, hs, hout⟩

theorem engineStep_stopsOnlyOutOfRange (s : State) : StopsOnlyOutOfRange s (engineStep s) := by
  cases hb : s.busy
  · simp only [engineStep, hb, Bool.false_eq_true, if_false]
    exact .next s
  · exact (engineStep_drawsOnlyWhenDue s).stopsOnlyOutOfRange hb

theorem StopsOnlyOutOfRange.of_script {s : State} {script : List Event} {o : Host.Outcome State Fault Refusal}
    (h : StopsOnlyOutOfRange { s with script := script } o) : StopsOnlyOutOfRange s o := by
  cases h with
  | next t => exact .next t
  | refused hb ha => exact .refused hb ha

theorem step_stopsOnlyOutOfRange (s : State) : StopsOnlyOutOfRange s (step s) := by
  unfold step nextEvent
  split
  · exact engineStep_stopsOnlyOutOfRange s
  · exact .next _
  · exact (engineStep_stopsOnlyOutOfRange _).of_script
  · split_ifs
    · exact engineStep_stopsOnlyOutOfRange s
    · exact .next _
  · exact .next _
  · exact .next _

/-- Settles O9: only an iteration of a drawing loop can be refused, and it draws from the range that is due. -/
theorem onlyAnOutOfRangeAnswerStopsAStep : Obligations.OnlyAnOutOfRangeAnswerStopsAStep := by
  intro s
  have hstops := step_stopsOnlyOutOfRange s
  generalize step s = o at hstops
  cases hstops with
  | next t => exact ⟨nofun, nofun, fun _ => ⟨t, rfl⟩⟩
  | refused hb ha =>
    obtain ⟨lo, hi, v, rest, hdue, hs, hout⟩ := ha
    refine ⟨nofun, fun r hr => ?_, fun hfree => by simp [hs] at hfree⟩
    cases hr
    exact ⟨rfl, hb, cmd_of_nextDrawRange hdue, lo, hi, v, rest, hdue, hs, hout⟩

/-! ### The range that is due -/

/-- The invariant of a machine holds without its outstanding request as well. -/
theorem Inv.dropRequest {s : State} (h : Inv s) : Inv { s with outstanding := none } :=
  ⟨h.config, h.memory, h.words, h.status, h.phase, h.draws.1, nofun⟩

/-- R173: the totient that phase `E` holds is a word, because its primes lie below `HALF`. -/
theorem Inv.phi_fits {s : State} (h : Inv s) {p q phi : Nat} (hg : s.genkey = some (.e p q phi)) :
    phi < 2 ^ s.cfg.width := by
  obtain ⟨hb, hc, hle, hhalf, hp, hq, -, rfl, -⟩ := (phaseConsistent_iff s).1 h.phase _ hg
  exact totient_fits (u := { s with outstanding := none }) ⟨h.dropRequest, rfl, hb, hc, hle, hhalf⟩ hp hq

/-- The range due ends at an operand or, in phase `E` of `GENKEY`, below the totient. -/
theorem nextDrawRange_hi {s : State} {lo hi : Nat} (h : nextDrawRange s = some (lo, hi)) :
    hi = s.opb ∨ ∃ p q phi, s.genkey = some (.e p q phi) ∧ hi = phi - 1 := by
  unfold nextDrawRange at h
  split at h
  · split_ifs at h
    cases h
    exact .inl rfl
  · split at h
    · split at h
      next =>
        split_ifs at h
        cases h
        exact .inl rfl
      next =>
        cases h
        exact .inl rfl
      next =>
        cases h
        exact .inl rfl
      next p q phi hg =>
        cases h
        exact .inr ⟨p, q, phi, hg, rfl⟩
    · cases h

/-- R76, R116: every value of the range due is a word. -/
theorem Inv.nextDrawRange_fits {s : State} (h : Inv s) {lo hi : Nat} (hdue : nextDrawRange s = some (lo, hi)) :
    hi < 2 ^ s.cfg.width := by
  rcases nextDrawRange_hi hdue with rfl | ⟨p, q, phi, hg, rfl⟩
  · exact h.bounds.opb
  · exact (Nat.sub_le phi 1).trans_lt (h.phi_fits hg)

/-- A request left on the port is for words, of a range that is not empty. -/
theorem Inv.outstanding_range {s : State} (h : Inv s) {lo hi : Nat} (ho : s.outstanding = some (lo, hi)) :
    lo ≤ hi ∧ hi < 2 ^ s.cfg.width := by
  obtain ⟨-, hdue, hle, -⟩ := h.draws.2 _ ho
  exact ⟨hle, h.nextDrawRange_fits hdue⟩

/-! ### The answer that a step uses -/

section
variable {s t : State}

/-- Only the engine's move can use an answer of the source. -/
theorem engineStep_of_source_ne (hstep : step s = .next t) (hne : t.source ≠ s.source) :
    ∃ script, engineStep { s with script := script } = .next t := by
  rcases nextEvent_cases hstep with
    ⟨script, -, hengine⟩ | ⟨tr, rest, -, rfl⟩ | ⟨rest, -, -, rfl⟩ | ⟨rest, -, rfl⟩ | ⟨rest, -, rfl⟩
  · exact ⟨script, hengine⟩
  · exact absurd (busFrame_busTransaction _ tr).source hne
  · exact absurd (busFrame_busTransaction _ _).source hne
  · exact absurd rfl hne
  · exact absurd rfl hne

/-- R116: an answer that the engine uses is of the range due. -/
theorem engineStep_uses_range {v : Nat} {rest : List Nat} (h : engineStep s = .next t) (hne : t.source ≠ s.source)
    (hs : s.source = .scripted (v :: rest)) : ∃ lo hi, lo ≤ v ∧ v ≤ hi ∧ nextDrawRange s = some (lo, hi) := by
  have hdraws := engineStep_drawsOnlyWhenDue s
  rw [h] at hdraws
  generalize ho : Host.Outcome.next t = o at hdraws
  cases hdraws with
  | silent u hsource =>
    cases ho
    exact absurd hsource hne
  | draws lo hi accept hdue =>
    rcases keyStep_cases lo hi accept s with
      ⟨u, hu, hsource⟩ | ⟨hfree, -⟩ | ⟨w, rest', hw, ⟨hlo, hhi, -⟩ | ⟨-, hrefused⟩⟩
    · cases ho.trans hu
      exact absurd hsource hne
    · simp [hs] at hfree
    · cases hs.symm.trans hw
      exact ⟨lo, hi, hlo, hhi, hdue⟩
    · cases ho.trans hrefused

end

/-- Settles O13: a request that stands after the step is one of the invariant's, and an answer is used only in a draw
from the range due. -/
theorem noDrawIsAskedOnAnEmptyRange : Obligations.NoDrawIsAskedOnAnEmptyRange := by
  refine ⟨fun s t lo hi h hstep ho => ?_, fun s t v rest h hs hstep ht => ?_⟩
  · rw [← cfg_of_step hstep]
    exact (everyStepKeepsTheInvariant s t h hstep).outstanding_range ho
  · have hne : t.source ≠ s.source := by simp [ht, hs]
    obtain ⟨script, hengine⟩ := engineStep_of_source_ne hstep hne
    obtain ⟨lo, hi, hlo, hhi, hdue⟩ := engineStep_uses_range (s := { s with script := script }) hengine hne hs
    exact ⟨lo, hi, hlo, hhi, h.nextDrawRange_fits hdue, hdue⟩

end Sys2Proof.Safety
end
section
/-! SUPPORT. O1, O2, O3, O6: command words and listings of transactions determine what they stand for; the step of an
illegal word. -/

namespace Sys2Proof.Safety

open Sys2Proof.Machine

/-! ### The listing of a transaction -/

section
variable {width data : Nat} (hd : data < 2 ^ width)
include hd

/-- The `wdata` bits of a listing that holds `head` above them. -/
theorem listing_mod (head : Nat) : (head * 2 ^ width + data) % 2 ^ width = data := by
  rw [Nat.mul_add_mod_self_right, Nat.mod_eq_of_lt hd]

/-- The bits of a listing above its `wdata`. -/
theorem listing_div (head : Nat) : (head * 2 ^ width + data) / 2 ^ width = head := by
  rw [mul_comm, Nat.mul_add_div (by positivity), Nat.div_eq_of_lt hd, add_zero]

theorem listing_lt {head k : Nat} (hh : head < 2 ^ k) : head * 2 ^ width + data < 2 ^ (k + width) := by
  rw [pow_add, ← Nat.div_lt_iff_lt_mul (by positivity), listing_div hd]
  exact hh

/-- R95: with `we` 0 a listing is that of a read, whatever its `wdata`. -/
theorem decodeTransaction_read (a : Addr) :
    decodeTransaction width (a.toNat * 2 ^ width + data) = some (.read a) := by
  simp [decodeTransaction, listing_div hd, a.isLt]

/-- R95: with `we` 1 a listing is that of a write of its `wdata`. -/
theorem decodeTransaction_write (a : Addr) :
    decodeTransaction width (encodeTransaction width (.write a data)) = some (.write a data) := by
  have ha := a.isLt
  have haddr : BitVec.ofNat 16 (2 ^ 16 + a.toNat) = a := BitVec.eq_of_toNat_eq (by rw [BitVec.toNat_ofNat]; omega)
  simp only [decodeTransaction, encodeTransaction, listing_div hd, listing_mod hd, haddr]
  rw [if_neg (by omega), if_pos (by omega)]

end

/-- The listing of a read is one with its `wdata` zero. -/
theorem encodeTransaction_read (width : Nat) (a : Addr) :
    encodeTransaction width (.read a) = a.toNat * 2 ^ width + 0 := rfl

theorem encodeTransaction_lt {c : Config} {t : Transaction} (ht : t.wellFormed c = true) :
    encodeTransaction c.width t < 2 ^ (17 + c.width) := by
  cases t with
  | read a =>
    rw [encodeTransaction_read]
    exact listing_lt (by positivity) (a.isLt.trans (by norm_num))
  | write a data =>
    have ha := a.isLt
    exact listing_lt (of_decide_eq_true ht) (by omega)

theorem decodeTransaction_encodeTransaction {c : Config} {t : Transaction} (ht : t.wellFormed c = true) :
    decodeTransaction c.width (encodeTransaction c.width t) = some t := by
  cases t with
  | read a =>
    rw [encodeTransaction_read]
    exact decodeTransaction_read (by positivity) a
  | write a data => exact decodeTransaction_write (of_decide_eq_true ht) a

/-- R95: the fields of a listing of `17 + W` bits; `we` is its highest bit. -/
theorem listing_cases {width bits : Nat} (hbits : bits < 2 ^ (17 + width)) :
    ∃ (a : Addr) (data : Nat), data < 2 ^ width
      ∧ (bits = a.toNat * 2 ^ width + data ∨ bits = encodeTransaction width (.write a data)) := by
  have hsplit : bits / 2 ^ width * 2 ^ width + bits % 2 ^ width = bits := Nat.div_add_mod' bits _
  have hdata : bits % 2 ^ width < 2 ^ width := Nat.mod_lt _ (by positivity)
  have hhead : bits / 2 ^ width < 2 ^ 17 := Nat.div_lt_of_lt_mul (by rwa [← pow_add, add_comm])
  refine ⟨BitVec.ofNat 16 (bits / 2 ^ width), bits % 2 ^ width, hdata, ?_⟩
  rw [encodeTransaction, BitVec.toNat_ofNat]
  by_cases hread : bits / 2 ^ width < 2 ^ 16
  · exact .inl (by rw [Nat.mod_eq_of_lt hread, hsplit])
  · have hwrite : 2 ^ 16 + bits / 2 ^ width % 2 ^ 16 = bits / 2 ^ width := by omega
    exact .inr (by rw [hwrite, hsplit])

/-- Settles O3: both directions by the two forms of a listing. -/
theorem transactionListingRoundTrip : Obligations.TransactionListingRoundTrip := by
  refine fun c =>
    ⟨fun _ ht => ⟨encodeTransaction_lt ht, decodeTransaction_encodeTransaction ht⟩, fun bits hbits => ?_⟩
  obtain ⟨a, data, hd, rfl | rfl⟩ := listing_cases hbits
  · exact ⟨.read a, decodeTransaction_read hd a, rfl, fun hwe => absurd (listing_lt hd a.isLt) hwe.not_gt⟩
  · exact ⟨.write a data, decodeTransaction_write hd a, decide_eq_true hd, fun _ => rfl⟩

/-! ### The command words -/

theorem decode_eq_ok_iff (w : Nat) (i : Instr) : decode w = .ok i ↔ w = encode i :=
  ⟨decode_eq_ok, fun h => h ▸ decode_encode i⟩

/-- Settles O1: the one word accepted for a command is its encoding, which is its row of the map. -/
theorem decoderAcceptsExactlyTheTenWords : Obligations.DecoderAcceptsExactlyTheTenWords := by
  intro w i
  rw [decode_eq_ok_iff]
  cases i <;> simp [encode, opcodeOf]

/-- R91: the bits of a table word that hold a command's word hold the command. -/
theorem decodeTableWord_encode {nbits : Nat} {i : Instr} (h : encode i < 2 ^ nbits) :
    decodeTableWord nbits (encode i) = some i := by
  rw [decodeTableWord, lines_of_lt h, decode_encode]

/-- Settles O2: the words written out by evaluation, the round trip by the encoder's laws. -/
theorem commandWordsRoundTrip : Obligations.CommandWordsRoundTrip :=
  ⟨by decide, fun i =>
    ⟨decode_encode i, decodeTableWord_encode (encode_lt_width (c := Config.default) (by decide) i),
      fun _ hc => encode_lt_width hc i⟩⟩

/-! ### An illegal word -/

/-- R96: a word that encodes no command is refused by name. -/
theorem exists_decode_error {w : Nat} (h : ∀ i, w ≠ encode i) : ∃ e, decode w = .error e := by
  cases hd : decode w with
  | error e => exact ⟨e, rfl⟩
  | ok i => exact absurd (decode_eq_ok hd) (h i)

theorem encode_mem_opcodes (i : Instr) :
    encode i ∈ [0x01, 0x02, 0x03, 0x04, 0x10, 0x11, 0x12, 0x20, 0x21, 0x22] := by
  cases i <;> decide

/-- R96: with nothing scripted, the one step of an illegal word is the error completion. -/
theorem step_of_illegal {s : State} {e : DecodeError} (hb : s.busy = true) (hs : s.script = [])
    (hd : decode s.cmd = .error e) : step s = .next (afterError .illegal s.cmd s) := by
  simp only [step, nextEvent, hs, engineStep, hb, if_true, hd]
  rfl

/-- Settles O6: the write is taken like that of any word, and the word it leaves in `CMD` decodes to no command. -/
theorem illegalWordRaisesErrIllegal : Obligations.IllegalWordRaisesErrIllegal := by
  intro s w hb hs hw hillegal
  obtain ⟨e, hd⟩ := exists_decode_error (w := w) fun i hi => hillegal (hi ▸ encode_mem_opcodes i)
  exact ⟨startCommand w s, write_idleReg hw hb (r := .cmd) rfl, rfl, rfl, step_of_illegal rfl hs hd, rfl⟩

end Sys2Proof.Safety
end
section
/-! SUPPORT. O4, O7, O26, O30, O31, O33: when the engine steps and when it does not, what starts a command, and what its
ending leaves alone. -/

namespace Sys2Proof.Safety

open Sys2Proof.Machine

/-! ### Which step the engine takes -/

section
variable {s : State}

/-- R111, R112: while a command runs, the engine's step is the command's. -/
theorem engineStep_of_running {i : Instr} (hb : s.busy = true) (hd : decode s.cmd = .ok i) :
    engineStep s = exec i s := by
  simp only [engineStep, hb, if_true, hd]

theorem engineStep_of_idle (hb : s.busy = false) : engineStep s = .next s := by
  simp only [engineStep, hb, Bool.false_eq_true, if_false]

theorem step_of_noScript (hs : s.script = []) : step s = engineStep s := by
  simp only [step, nextEvent, hs]

theorem step_of_engine {rest : List Event} (hs : s.script = .engine :: rest) :
    step s = engineStep { s with script := rest } := by
  simp only [step, nextEvent, hs]

/-- R98: at a `wait` the engine moves as long as the command runs, and the event stays. -/
theorem step_of_wait {rest : List Event} (hb : s.busy = true) (hs : s.script = .wait :: rest) :
    step s = engineStep s := by
  simp only [step, nextEvent, hs, hb, if_true]

end

/-- Settles O4: in each of the three cases the step is the engine's, which is the decoded command's. -/
theorem stepRunsTheDecodedCommand : Obligations.StepRunsTheDecodedCommand := fun _ _ hb hd =>
  ⟨fun hs => (step_of_noScript hs).trans (engineStep_of_running hb hd),
    fun _ hs => (step_of_engine hs).trans (engineStep_of_running hb hd),
    fun _ hs => (step_of_wait hb hs).trans (engineStep_of_running hb hd)⟩

/-- Settles O7: the engine's step of an idle machine is no step. -/
theorem idleEngineTakesNoStep : Obligations.IdleEngineTakesNoStep := fun _ hb =>
  ⟨fun hs => (step_of_noScript hs).trans (engineStep_of_idle hb),
    fun _ hs => (step_of_engine hs).trans (engineStep_of_idle hb)⟩

/-- Settles O26: the write is taken, and what it starts is `startCommand`. -/
theorem commandStartWritesExactlyThese : Obligations.CommandStartWritesExactlyThese :=
  fun _ _ hb hc => write_idleReg hc hb (r := .cmd) rfl

/-! ### What an ending leaves alone -/

/-- R114, R206: a step that brings up an error is the error completion, of the state that has used up what the step
needed. -/
theorem exec_error_cases {i : Instr} {s t : State} (hnone : s.errcode = .none) (h : exec i s = .next t)
    (herr : t.errcode ≠ .none) : ∃ e u, UsesUp s u ∧ t = raiseError e u := by
  obtain ⟨u, hu, hl⟩ := exec_cases h
  have hkept : u.errcode = .none := by
    obtain ⟨_, _, _, _, rfl⟩ := hu
    exact hnone
  rcases hl with ⟨-, rfl⟩ | ⟨-, phase, rfl⟩ | ⟨e, rfl⟩ | ⟨r0, r1, r2, words, -, rfl⟩
  · exact absurd hkept herr
  · exact absurd hkept herr
  · exact ⟨e, u, hu, rfl⟩
  · exact absurd hkept herr

/-- Settles O30: the error completion keeps the results and the buffer, and so does what the step uses up before it. -/
theorem errorCompletionMutatesNothing : Obligations.ErrorCompletionMutatesNothing := by
  intro i s t hnone h herr
  obtain ⟨e, u, ⟨_, _, _, _, rfl⟩, rfl⟩ := exec_error_cases hnone h herr
  exact ⟨rfl, rfl, rfl, rfl, rfl, rfl, rfl, rfl, fun _ => rfl⟩

theorem DrawlessEnding.ends {s : State} {o : Host.Outcome State Fault Refusal} (h : DrawlessEnding s o) :
    ∃ t, o = .next t ∧ t.busy = false ∧ t.done = true ∧ t.abortreq = false ∧ t.tries = s.tries := by
  cases h with
  | error e written => exact ⟨_, rfl, rfl, rfl, rfl, by simp⟩
  | success r0 r1 r2 words written => exact ⟨_, rfl, rfl, rfl, rfl, by simp⟩

/-- Settles O31: the one step of a command without draws is its ending. -/
theorem drawlessCommandsEndInOneStep : Obligations.DrawlessCommandsEndInOneStep :=
  fun _ s hi => (exec_drawlessEnding hi s).ends

/-! ### An abort request is lost on a command without draws -/

section
variable (s : State) (request : Bool)

theorem raiseError_forgets_abortreq (e : CmdError) (written : Bool) :
    raiseError e (afterReading written { s with abortreq := request }) = raiseError e (afterReading written s) := by
  cases written <;> rfl

theorem completeWriting_forgets_abortreq (r0 r1 r2 : Nat) (words : List Nat) (written : Bool) :
    completeWriting r0 r1 r2 words (afterReading written { s with abortreq := request })
      = completeWriting r0 r1 r2 words (afterReading written s) := by
  cases written <;> rfl

end

/-- Settles O33: no check of such a command looks at the request, and every ending clears it. -/
theorem abortDoesNothingToDrawlessCommands : Obligations.AbortDoesNothingToDrawlessCommands := by
  intro i s request hi
  cases i with
  | genprime => exact absurd rfl hi.1
  | genkey => exact absurd rfl hi.2
  | encrypt =>
    simp only [exec, execEncrypt, raiseError_forgets_abortreq, completeWriting_forgets_abortreq]
    rfl
  | decrypt =>
    simp only [exec, execDecrypt, completeWriting_forgets_abortreq]
    rfl
  | isprime | modpow | modinv | isproot | findroots | trace => rfl

end Sys2Proof.Safety
end
section
/-! SUPPORT. O42, O44, O52: the draw, clause by clause, and the two loops that make draws: what stops `GENKEY` before
one, and `GENPRIME` on a source that answers nothing but composites. -/

namespace Sys2Proof.Safety

open Sys2Proof.Machine

/-! ### The draw -/

section
variable {s t : State} {lo hi v : Nat}

/-- R117: an abort request stops the command before a draw. -/
theorem draw_of_abort (ho : s.outstanding = none) (ha : s.abortreq = true) :
    draw lo hi s = .stopped (afterError .aborted 0 s) := by
  unfold draw
  rw [if_pos ⟨ho, ha⟩]
  rfl

/-- R117: so does the retry ceiling, when no abort is requested. -/
theorem draw_of_timeout (ho : s.outstanding = none) (ha : s.abortreq = false) (hlim : s.retrylim ≠ 0)
    (htries : s.tries = s.retrylim) : draw lo hi s = .stopped (afterError .timeout 0 s) := by
  unfold draw
  rw [if_neg (by simp [ha]), if_pos ⟨ho, hlim, htries⟩]
  rfl

/-- R116: a value that the source gives is drawn and counted. -/
theorem draw_of_drawGives (h : DrawGives s lo hi v t) : draw lo hi s = .drew v t := by
  obtain ⟨hlo, hhi, hcheck, hsource⟩ := h
  have habort : ¬ (s.outstanding = none ∧ s.abortreq = true) := fun ⟨ho, ha⟩ => by simp [(hcheck ho).1] at ha
  have htimeout : ¬ (s.outstanding = none ∧ s.retrylim ≠ 0 ∧ s.tries = s.retrylim) :=
    fun ⟨ho, hlim, htries⟩ => (hcheck ho).2.elim hlim (absurd htries)
  unfold draw
  rw [if_neg habort, if_neg htimeout]
  rcases hsource with ⟨rest, hs, rfl⟩ | ⟨hs, rfl, rfl⟩
  · simp only [hs, hlo, hhi, and_self, if_true]
    rfl
  · simp only [hs, countDraw, afterFreeDraw]

/-- R116: the free source has a value for every range that is not empty. -/
theorem exists_drawGives_of_free (hle : lo ≤ hi) (hcheck : NoAbortNoTimeout s) (hs : s.source = .free) :
    ∃ v t, DrawGives s lo hi v t :=
  have ⟨hlo, hhi⟩ := freeAnswer_mem s hle
  ⟨_, _, hlo, hhi, fun _ => hcheck, .inr ⟨hs, rfl, rfl⟩⟩

end

/-- Settles O42: what stops a draw, what it gives, and that a free source always gives. -/
theorem preDrawCheckThenDraw : Obligations.PreDrawCheckThenDraw := fun _ _ _ hle ho =>
  ⟨draw_of_abort ho, draw_of_timeout ho, fun _ _ => draw_of_drawGives, exists_drawGives_of_free hle⟩

/-! ### `GENKEY` before a draw -/

/-- R173: where a draw is due, the step of `GENKEY` is an iteration of the loop that draws from that range. -/
theorem execGenkey_eq_keyStep {s : State} {lo hi : Nat} (hc : s.cmd = 0x20) (hdue : nextDrawRange s = some (lo, hi)) :
    ∃ accept, execGenkey s = keyStep lo hi accept s := by
  have hkey : ¬ s.cmd = 0x02 := by simp [hc]
  rw [nextDrawRange, if_neg hkey, if_pos hc] at hdue
  unfold execGenkey
  split
  next hg =>
    simp only [hg] at hdue
    split_ifs at hdue with hchecks
    obtain ⟨hle, hhalf⟩ := hchecks
    cases hdue
    exact ⟨afterFirstDraw, by rw [operandA_eq, operandB_eq, if_neg hle.not_gt, if_neg hhalf.not_ge]⟩
  next hg =>
    simp only [hg] at hdue
    cases hdue
    exact ⟨afterFirstDraw, rfl⟩
  next p hg =>
    simp only [hg] at hdue
    cases hdue
    exact ⟨afterSecondDraw p, rfl⟩
  next p q phi hg =>
    simp only [hg] at hdue
    cases hdue
    exact ⟨afterExponentDraw p q phi, rfl⟩

/-- Settles O52: the loop's draw is stopped by its check in every phase. -/
theorem genkeyHonoursAbortAndCeiling : Obligations.GenkeyHonoursAbortAndCeiling := by
  intro s r hc hdue ho
  obtain ⟨accept, hstep⟩ := execGenkey_eq_keyStep hc hdue
  exact ⟨fun ha => hstep.trans (keyStep_of_stopped (draw_of_abort ho ha)),
    fun ha hlim htries => hstep.trans (keyStep_of_stopped (draw_of_timeout ho ha hlim htries))⟩

/-! ### `GENPRIME` without a ceiling -/

/-- `GENPRIME` runs without a retry ceiling, and the source's next `k` answers are all the value `v` of the range, which
is not prime; no abort is requested and the engine moves next. -/
structure RejectsNext (k v : Nat) (s : State) : Prop where
  busy : s.busy = true
  cmd : s.cmd = 0x02
  script : s.script = []
  outstanding : s.outstanding = none
  abortreq : s.abortreq = false
  retrylim : s.retrylim = 0
  lo : s.opa ≤ v
  hi : v ≤ s.opb
  composite : ¬ v.Prime
  tries : s.tries < 2 ^ s.cfg.width
  source : s.source = .scripted (List.replicate k v)

section
variable {k v : Nat} {s : State}

/-- R132: a composite value is counted, and the loop goes on. -/
theorem RejectsNext.step_eq (h : RejectsNext (k + 1) v s) :
    step s = .next (afterScriptedDraw (List.replicate k v) s) := by
  have hgives : DrawGives s s.opa s.opb v (afterScriptedDraw (List.replicate k v) s) :=
    ⟨h.lo, h.hi, fun _ => ⟨h.abortreq, .inl h.retrylim⟩, .inl ⟨_, h.source, rfl⟩⟩
  have hrange : ¬ s.opa > s.opb := not_lt.2 (h.lo.trans h.hi)
  have hreject : ¬ isPrime v = true := fun hv => h.composite ((isPrime_iff_prime v).1 hv)
  have hdecode : decode s.cmd = .ok .genprime := by rw [h.cmd]; exact decode_encode .genprime
  calc step s = execGenprime s := step_of_running h.busy h.script hdecode
    _ = keyStep s.opa s.opb acceptPrime s := by rw [execGenprime_eq_keyStep, if_neg hrange]
    _ = .next (acceptPrime v _) := keyStep_of_drew (draw_of_drawGives hgives)
    _ = .next (afterScriptedDraw (List.replicate k v) s) := by rw [acceptPrime, if_neg hreject]

theorem RejectsNext.afterDraw (h : RejectsNext (k + 1) v s) :
    RejectsNext k v (afterScriptedDraw (List.replicate k v) s) :=
  have hwidth : 0 < 2 ^ s.cfg.width := by positivity
  { h with
    outstanding := rfl
    tries := (min_le_right _ _).trans_lt (Nat.sub_one_lt hwidth.ne')
    source := rfl }

end

/-- The run of `k` refused draws, by induction on `k`. -/
theorem run_of_rejectsNext {v : Nat} : ∀ {k : Nat} {s : State}, RejectsNext k v s →
    ∃ t, Host.Core.run Sys2Proof.core k s = .next t ∧ t.busy = true ∧ t.cmd = 0x02
      ∧ t.tries = min (s.tries + k) (2 ^ s.cfg.width - 1)
  | 0, s, h => ⟨s, run_zero s, h.busy, h.cmd, (min_eq_left (Nat.le_sub_one_of_lt h.tries)).symm⟩
  | k + 1, s, h => by
    obtain ⟨t, hrun, hb, hc, htries⟩ := run_of_rejectsNext h.afterDraw
    refine ⟨t, (run_succ h.step_eq).trans hrun, hb, hc, htries.trans ?_⟩
    simp only [afterScriptedDraw]
    omega

/-- Settles O44: every refused draw is counted and leaves the machine as it was, but for the answer used. -/
theorem genprimeMayRunForever : Obligations.GenprimeMayRunForever :=
  fun _ _ _ hb hc hs ho ha hlim hlo hhi hv ht hsource =>
    run_of_rejectsNext ⟨hb, hc, hs, ho, ha, hlim, hlo, hhi, hv, ht, hsource⟩

end Sys2Proof.Safety
end
section
/-! SUPPORT. O35, O37, O39: what the functions of the document compute, for all numbers: primality (R130), the power
modulo `m` (R134), the greatest common divisor and the inverse of the extended Euclidean algorithm (R137, R139). -/

namespace Sys2Proof.Safety

open Sys2Proof.Machine

/-! ### Primality -/

/-- Settles O35, by the fact that an odd number above 2 without an odd divisor up to its square root is prime. -/
theorem isPrimeDecidesPrimality : Obligations.IsPrimeDecidesPrimality := isPrime_iff_prime

/-! ### Powers -/

/-- R134: repeated squaring starts from residues of `1` and `b`, so what it multiplies together is `b^e` modulo `m`. -/
theorem modPow_eq (b e : Nat) {m : Nat} (hm : 0 < m) : modPow b e m = b ^ e % m :=
  have hresidue : 1 % m * (b % m) ^ e ≡ 1 * b ^ e [MOD m] := (Nat.mod_modEq 1 m).mul ((Nat.mod_modEq b m).pow e)
  calc modPow b e m = 1 % m * (b % m) ^ e % m := squareMultiply_eq m e _ _ e le_rfl (Nat.mod_lt 1 hm)
    _ = 1 * b ^ e % m := hresidue
    _ = b ^ e % m := by rw [one_mul]

/-- Settles O37: the value by the invariant of the loop, the bound because it is a residue. -/
theorem modPowIsThePower : Obligations.ModPowIsThePower := fun b e _ hm => ⟨modPow_eq b e hm, modPow_lt b e hm⟩

/-! ### Inverses -/

/-- R137, R139: the loop, started on `(m, a mod m, 0, 1)`, ends with the greatest common divisor and a multiplier of `a`
congruent to it modulo `m`. -/
theorem bezout_spec (a m : Nat) :
    (bezout a m).1 = Nat.gcd a m ∧ a * (bezout a m).2 ≡ Nat.gcd a m [ZMOD m] := by
  have hm : (m : Int) ∣ (m : Nat) - 0 * (a : Int) := by simp
  have ha : (m : Int) ∣ (a % m : Nat) - 1 * (a : Int) := by
    rw [one_mul, Int.natCast_mod]
    exact (Int.mod_modEq a m).symm.dvd
  obtain ⟨hgcd, hcongr⟩ := euclid_spec a m (a % m + 1) m (a % m) 0 1 (Nat.lt_succ_self _) hm ha
  rw [Nat.gcd_comm, ← Nat.gcd_rec, Nat.gcd_comm] at hgcd
  rw [hgcd, mul_comm] at hcongr
  exact ⟨hgcd, Int.modEq_iff_dvd.2 hcongr⟩

/-- R137: the answer of `mod_inverse` is the multiplier of the loop as a residue. -/
theorem modInverse_modEq (a : Nat) {m : Nat} (hm : 0 < m) : (modInverse a m : Int) ≡ (bezout a m).2 [ZMOD m] := by
  have hpos : (m : Int) ≠ 0 := by omega
  rw [modInverse, Int.toNat_of_nonneg (Int.emod_nonneg _ hpos)]
  exact Int.mod_modEq _ _

/-- R137: where `a` and `m` are coprime, `mod_inverse` is an inverse. -/
theorem inverseMod_modInverse {a m : Nat} (hm : 0 < m) (hg : Nat.gcd a m = 1) : InverseMod a m (modInverse a m) := by
  have hcongr : ((a * modInverse a m : Nat) : Int) ≡ (1 : Nat) [ZMOD m] :=
    calc ((a * modInverse a m : Nat) : Int) = a * modInverse a m := Nat.cast_mul _ _
      _ ≡ a * (bezout a m).2 [ZMOD m] := (modInverse_modEq a hm).mul_left a
      _ ≡ Nat.gcd a m [ZMOD m] := (bezout_spec a m).2
      _ = (1 : Nat) := by rw [hg]
  exact ⟨modInverse_lt a hm, Int.natCast_modEq_iff.1 hcongr⟩

/-- There is at most one inverse below the modulus: `a` cancels, and residues that are congruent are equal. -/
theorem InverseMod.unique {a m x y : Nat} (hg : Nat.gcd a m = 1) (hx : InverseMod a m x) (hy : InverseMod a m y) :
    x = y := by
  obtain ⟨hxlt, hxinv⟩ := hx
  obtain ⟨hylt, hyinv⟩ := hy
  have hcongr : a * x ≡ a * y [MOD m] := hxinv.trans hyinv.symm
  exact (Nat.ModEq.cancel_left_of_coprime ((Nat.gcd_comm m a).trans hg) hcongr).eq_of_lt_of_lt hxlt hylt

/-- Settles O39, by the congruences that the loop keeps. -/
theorem euclidFindsGcdAndInverse : Obligations.EuclidFindsGcdAndInverse := fun a m hm =>
  ⟨(bezout_spec a m).1, fun hg =>
    ⟨inverseMod_modInverse hm hg, fun _ hx => InverseMod.unique hg hx (inverseMod_modInverse hm hg)⟩⟩

end Sys2Proof.Safety
end
section
/-! SUPPORT. O36, O38, O40, O41: one engine step of each Number Theory Utility, branch by branch (R131, R132, R135,
R138). -/

namespace Sys2Proof.Safety

open Sys2Proof.Machine

/-! ### `ISPRIME` -/

theorem toNat_isPrime (n : Nat) : (isPrime n).toNat = if n.Prime then 1 else 0 := by
  split_ifs with hn
  · rw [(isPrime_iff_prime n).2 hn, Bool.toNat_true]
  · rw [Bool.eq_false_iff.2 (mt (isPrime_iff_prime n).1 hn), Bool.toNat_false]

/-- Settles O36: `ISPRIME` completes with its test as a number. -/
theorem isprimeTestsItsOperand : Obligations.IsprimeTestsItsOperand :=
  ⟨decode_encode .isprime, fun s =>
    calc exec .isprime s = .next (afterSuccess (isPrime s.opa).toNat 0 0 s) := rfl
      _ = .next (afterSuccess (if s.opa.Prime then 1 else 0) 0 0 s) := by rw [toNat_isPrime]⟩

/-! ### `MODPOW` and `MODINV` -/

section
variable {s : State}

theorem execModpow_of_zero (hzero : s.opc = 0) : execModpow s = .next (afterError .operand 2 s) := if_pos hzero

theorem execModpow_of_ne_zero (hzero : s.opc ≠ 0) :
    execModpow s = .next (afterSuccess (modPow s.opa s.opb s.opc) 0 0 s) := if_neg hzero

theorem execModinv_of_zero (hzero : s.opc = 0) : execModinv s = .next (afterError .operand 2 s) := if_pos hzero

theorem execModinv_of_common (hzero : s.opc ≠ 0) (hg : Nat.gcd s.opa s.opc ≠ 1) :
    execModinv s = .next (afterError .noInverse (Nat.gcd s.opa s.opc) s) :=
  (if_neg hzero).trans (if_pos hg)

theorem execModinv_of_coprime (hzero : s.opc ≠ 0) (hg : Nat.gcd s.opa s.opc = 1) :
    execModinv s = .next (afterSuccess (modInverse s.opa s.opc) 0 0 s) :=
  (if_neg hzero).trans (if_neg (not_not.2 hg))

end

/-- Settles O38: past the check of the modulus, the result is the power modulo it. -/
theorem modpowComputesTheResidue : Obligations.ModpowComputesTheResidue :=
  ⟨decode_encode .modpow, fun s =>
    ⟨execModpow_of_zero, fun hzero => by
      rw [← modPow_eq s.opa s.opb (Nat.pos_of_ne_zero hzero)]
      exact execModpow_of_ne_zero hzero⟩⟩

/-- Settles O40: past both checks, the result is the inverse that the loop of Euclid finds. -/
theorem modinvFindsTheInverse : Obligations.ModinvFindsTheInverse :=
  ⟨decode_encode .modinv, fun _ =>
    ⟨execModinv_of_zero, execModinv_of_common, fun hzero hg =>
      ⟨_, inverseMod_modInverse (Nat.pos_of_ne_zero hzero) hg, execModinv_of_coprime hzero hg⟩⟩⟩

/-! ### `GENPRIME` -/

theorem acceptPrime_eq (v : Nat) (u : State) : acceptPrime v u = if v.Prime then afterSuccess v 0 0 u else u :=
  if_congr (isPrime_iff_prime v) rfl rfl

section
variable {s : State}

theorem execGenprime_of_emptyRange (hempty : s.opa > s.opb) : execGenprime s = .next (afterError .operand 1 s) :=
  if_pos hempty

theorem execGenprime_of_le (hle : s.opa ≤ s.opb) : execGenprime s = keyStep s.opa s.opb acceptPrime s :=
  (execGenprime_eq_keyStep s).trans (if_neg hle.not_gt)

theorem execGenprime_of_drawGives {v : Nat} {t : State} (h : DrawGives s s.opa s.opb v t) :
    execGenprime s = .next (if v.Prime then afterSuccess v 0 0 t else t) := by
  have ⟨hlo, hhi, _⟩ := h
  rw [execGenprime_of_le (hlo.trans hhi), keyStep_of_drew (draw_of_drawGives h), acceptPrime_eq]

end

/-- Settles O41: on a range that is not empty, what stops the draw ends the command, and what is drawn is tested. -/
theorem genprimeDrawsUntilPrime : Obligations.GenprimeDrawsUntilPrime :=
  ⟨decode_encode .genprime, fun _ =>
    ⟨execGenprime_of_emptyRange,
      fun hle ho ha => (execGenprime_of_le hle).trans (keyStep_of_stopped (draw_of_abort ho ha)),
      fun hle ho ha hlim htries =>
        (execGenprime_of_le hle).trans (keyStep_of_stopped (draw_of_timeout ho ha hlim htries)),
      fun _ _ => execGenprime_of_drawGives⟩⟩

end Sys2Proof.Safety
end
section
/-! SUPPORT. O46, O49: what the functions of the Primitive Root Analyzer compute, for all numbers: the test for a
primitive root (R150), the list of the primitive roots (R153), the trace (R156). -/

namespace Sys2Proof.Safety

open Sys2Proof.Machine

/-! ### The test for a primitive root -/

/-- The number `2^n - 2` holds exactly the set `1 .. n-1`. -/
theorem testBit_allResidues {n : Nat} (hn : 2 ≤ n) (x : Nat) :
    (allResidues n).testBit x = true ↔ x ∈ Finset.Icc 1 (n - 1) := by
  have hone : 1 < 2 ^ n := Nat.one_lt_two_pow (by omega)
  have hbits : (2 ^ n - (1 + 1)).testBit x = (decide (x < n) && !Nat.testBit 1 x) :=
    Nat.testBit_two_pow_sub_succ hone x
  have hzero : (!Nat.testBit 1 x) = true ↔ ¬ x = 0 := by
    rw [Bool.not_eq_true', ← Bool.not_eq_true, Nat.testBit_one_eq_true_iff_self_eq_zero]
  rw [allResidues, hbits, Bool.and_eq_true, decide_eq_true_eq, hzero, Finset.mem_Icc]
  omega

/-- The number that the test builds holds exactly the powers `g^1 .. g^(n-1)` modulo `n`. -/
theorem testBit_powers {n : Nat} (hn : 2 ≤ n) (g x : Nat) :
    (powerSet g n (n - 1) 1 0).testBit x = true ↔ x ∈ (Finset.Icc 1 (n - 1)).image (fun k => g ^ k % n) := by
  have hloop := testBit_powerSet g n (n - 1) 1 0 x
  rw [Nat.one_mod_eq_one.2 (by omega : n ≠ 1)] at hloop
  rw [hloop]
  simp [and_assoc]

/-- R150: two sets held as numbers are equal exactly when they have the same members. -/
theorem isPrimitiveRoot_iff {n : Nat} (hn : 2 ≤ n) (g : Nat) : isPrimitiveRoot g n = true ↔ PrimitiveRootOf n g :=
  calc isPrimitiveRoot g n = true
      ↔ powerSet g n (n - 1) 1 0 = allResidues n := beq_iff_eq
    _ ↔ ∀ x, (powerSet g n (n - 1) 1 0).testBit x = true ↔ (allResidues n).testBit x = true :=
      ⟨fun h _ => h ▸ Iff.rfl, fun h => Nat.eq_of_testBit_eq fun x => Bool.eq_iff_iff.2 (h x)⟩
    _ ↔ PrimitiveRootOf n g := by
      simp only [testBit_powers hn, testBit_allResidues hn, PrimitiveRootOf, Finset.ext_iff]

/-- Settles O46, by the members of the two numbers that the test compares. -/
theorem primitiveRootTestIsTheSetEquality : Obligations.PrimitiveRootTestIsTheSetEquality := fun g _ hn =>
  isPrimitiveRoot_iff hn g

section
variable {g n : Nat}

theorem toNat_isPrimitiveRoot_of_root (hn : 2 ≤ n) (hroot : PrimitiveRootOf n g) :
    (isPrimitiveRoot g n).toNat = 1 := by
  rw [(isPrimitiveRoot_iff hn g).2 hroot, Bool.toNat_true]

theorem toNat_isPrimitiveRoot_of_not_root (hn : 2 ≤ n) (hroot : ¬ PrimitiveRootOf n g) :
    (isPrimitiveRoot g n).toNat = 0 := by
  rw [Bool.eq_false_iff.2 (mt (isPrimitiveRoot_iff hn g).1 hroot), Bool.toNat_false]

end

/-! ### The list of the primitive roots -/

/-- R153: the list is strictly ascending, as a part of `1, 2, .., n-1`. -/
theorem pairwise_findPrimitiveRoots (n : Nat) : (findPrimitiveRoots n).Pairwise (· < ·) :=
  List.Pairwise.filter _ List.pairwise_lt_range'

/-- R153: the list has exactly the primitive roots among `1 .. n-1`. -/
theorem mem_findPrimitiveRoots_iff {n : Nat} (hn : 2 ≤ n) (g : Nat) :
    g ∈ findPrimitiveRoots n ↔ 1 ≤ g ∧ g ≤ n - 1 ∧ PrimitiveRootOf n g := by
  have hrange : g < 1 + (n - 1) ↔ g ≤ n - 1 := by omega
  rw [findPrimitiveRoots, List.mem_filter, List.mem_range'_1, isPrimitiveRoot_iff hn, hrange, and_assoc]

/-! ### The trace -/

/-- Settles O49: the trace is the loop of R156 begun at the residue 1, with `n - 1` powers to go. -/
theorem traceIsThePowersUpToTheFirstOne : Obligations.TraceIsThePowersUpToTheFirstOne := by
  intro g n hn
  have hloop := traceFrom_spec g n (n - 1) 1
  simp only [Nat.one_mod_eq_one.2 (by omega : n ≠ 1), one_mul] at hloop
  obtain ⟨hle, hpos, hentry, hbefore, hlast⟩ := hloop
  exact ⟨hpos (by omega), hle, hentry, hbefore, hlast⟩

end Sys2Proof.Safety
end
section
/-! SUPPORT. O47, O48, O50: one engine step of each command of the Primitive Root Analyzer, branch by branch (R152,
R154, R157). -/

namespace Sys2Proof.Safety

open Sys2Proof.Machine

/-! ### The checks of the modulus, in their order -/

/-- The outcome `o`, once the modulus has passed the check for a prime (R151). -/
def ifModulusPrime (s : State) (o : Host.Outcome State Fault Refusal) : Host.Outcome State Fault Refusal :=
  if isPrime (operandC s) = false then .next (raiseError .notPrime s) else o

/-- The outcome `o`, once `BUF` is known to have a word for each of `1 .. n-1` (R154, R157). -/
def ifModulusFitsBuf (s : State) (o : Host.Outcome State Fault Refusal) : Host.Outcome State Fault Refusal :=
  if operandC s - 1 > s.cfg.bufDepth then .next (raiseError (.operand .modulusTooLarge) s) else o

section
variable {s : State} {o : Host.Outcome State Fault Refusal}

theorem ifModulusPrime_of_not_prime (hp : ¬ s.opc.Prime) : ifModulusPrime s o = .next (afterError .notPrime 0 s) :=
  if_pos (Bool.eq_false_iff.2 (mt (isPrime_iff_prime s.opc).1 hp))

theorem ifModulusPrime_of_prime (hp : s.opc.Prime) : ifModulusPrime s o = o :=
  if_neg (Bool.eq_false_iff.not_left.2 ((isPrime_iff_prime s.opc).2 hp))

theorem ifModulusFitsBuf_of_gt (hlarge : s.opc - 1 > s.cfg.bufDepth) :
    ifModulusFitsBuf s o = .next (afterError .operand 4 s) := if_pos hlarge

theorem ifModulusFitsBuf_of_le (hfits : s.opc - 1 ≤ s.cfg.bufDepth) : ifModulusFitsBuf s o = o := if_neg hfits.not_gt

end

/-! ### The buffer after a success completion that writes words -/

section
variable {m : Memory} {words : List Nat} {i : Nat}

theorem bufAt_bufPutFrom_zero_of_lt (hi : i < words.length) : bufAt (bufPutFrom m 0 words) i = some words[i] := by
  rw [bufAt_bufPutFrom, if_pos ⟨i.zero_le, by omega⟩, Nat.sub_zero, List.getElem?_eq_getElem hi]

theorem bufAt_bufPutFrom_zero_of_ge (hi : words.length ≤ i) : bufAt (bufPutFrom m 0 words) i = bufAt m i := by
  rw [bufAt_bufPutFrom, if_neg (by omega)]

end

/-! ### `ISPROOT` -/

/-- R152: the check of `ISPROOT`, then its completion. -/
theorem exec_isproot (s : State) :
    exec .isproot s = ifModulusPrime s (.next (afterSuccess (isPrimitiveRoot s.opa s.opc).toNat 0 0 s)) := rfl

/-- Settles O47: past the check of the modulus, `ISPROOT` completes with its test as a number. -/
theorem isprootTestsThePowers : Obligations.IsprootTestsThePowers :=
  ⟨decode_encode .isproot, fun s =>
    ⟨fun hp => (exec_isproot s).trans (ifModulusPrime_of_not_prime hp),
      fun hp hroot => by
        rw [exec_isproot, ifModulusPrime_of_prime hp, toNat_isPrimitiveRoot_of_root hp.two_le hroot],
      fun hp hroot => by
        rw [exec_isproot, ifModulusPrime_of_prime hp, toNat_isPrimitiveRoot_of_not_root hp.two_le hroot]⟩⟩

/-! ### `FINDROOTS` and `TRACE` -/

/-- R154: the checks of `FINDROOTS` in their order, then its completion and its buffer writes. -/
theorem exec_findroots (s : State) :
    exec .findroots s = ifModulusPrime s (ifModulusFitsBuf s
      (.next { afterSuccess (findPrimitiveRoots s.opc).length 0 0 s with
        buf := bufPutFrom s.buf 0 (findPrimitiveRoots s.opc) })) := rfl

/-- R157: the checks of `TRACE` in their order, then its completion and its buffer writes. -/
theorem exec_trace (s : State) :
    exec .trace s = ifModulusPrime s (ifModulusFitsBuf s
      (.next { afterSuccess (powerTrace s.opa s.opc).length (isPrimitiveRoot s.opa s.opc).toNat 0 s with
        buf := bufPutFrom s.buf 0 (powerTrace s.opa s.opc) })) := rfl

/-- Settles O48: past both checks, `FINDROOTS` writes the list of the primitive roots from `BUF[0]` on. -/
theorem findrootsListsThePrimitiveRoots : Obligations.FindrootsListsThePrimitiveRoots :=
  ⟨decode_encode .findroots, fun s =>
    ⟨fun hp => (exec_findroots s).trans (ifModulusPrime_of_not_prime hp),
      fun hp hlarge => by rw [exec_findroots, ifModulusPrime_of_prime hp, ifModulusFitsBuf_of_gt hlarge],
      fun hp hfits =>
        ⟨findPrimitiveRoots s.opc, bufPutFrom s.buf 0 (findPrimitiveRoots s.opc),
          by rw [exec_findroots, ifModulusPrime_of_prime hp, ifModulusFitsBuf_of_le hfits],
          pairwise_findPrimitiveRoots s.opc, mem_findPrimitiveRoots_iff hp.two_le,
          fun _ => bufAt_bufPutFrom_zero_of_lt, fun _ => bufAt_bufPutFrom_zero_of_ge⟩⟩⟩

/-- Settles O50: past both checks, `TRACE` writes the trace of `OPA` from `BUF[0]` on; what its words are is O49. -/
theorem traceWritesThePowers : Obligations.TraceWritesThePowers := by
  refine ⟨decode_encode .trace, fun s =>
    ⟨fun hp => (exec_trace s).trans (ifModulusPrime_of_not_prime hp),
      fun hp hlarge => by rw [exec_trace, ifModulusPrime_of_prime hp, ifModulusFitsBuf_of_gt hlarge],
      fun hp hfits => ?_⟩⟩
  obtain ⟨hpos, hle, hentry, hbefore, hlast⟩ := traceIsThePowersUpToTheFirstOne s.opa s.opc hp.two_le
  refine ⟨(powerTrace s.opa s.opc).length, (isPrimitiveRoot s.opa s.opc).toNat,
    bufPutFrom s.buf 0 (powerTrace s.opa s.opc), by
      rw [exec_trace, ifModulusPrime_of_prime hp, ifModulusFitsBuf_of_le hfits],
    hpos, hle, ?earlier, hlast, toNat_isPrimitiveRoot_of_root hp.two_le, toNat_isPrimitiveRoot_of_not_root hp.two_le,
    ?words, fun _ => bufAt_bufPutFrom_zero_of_ge⟩
  case earlier =>
    intro k hk hklt
    have hprev := hbefore (k - 1)
    rw [Nat.sub_add_cancel hk] at hprev
    exact hprev hklt
  case words =>
    intro i hi
    rw [bufAt_bufPutFrom_zero_of_lt hi, hentry i hi]

end Sys2Proof.Safety
end
section
/-! SUPPORT. O51, O53 to O55: one engine step of `GENKEY`, phase by phase: the checks of the first step (R172), and what
each phase does with the value drawn (R173, R174). -/

namespace Sys2Proof.Safety

open Sys2Proof.Machine

/-! ### The step of each phase -/

section
variable {s : State}

theorem execGenkey_of_emptyRange (hg : s.genkey = none) (hempty : s.opa > s.opb) :
    execGenkey s = .next (afterError .operand 1 s) := by
  rw [execGenkey, hg]
  exact if_pos hempty

theorem execGenkey_of_largeRange (hg : s.genkey = none) (hle : s.opa ≤ s.opb) (hlarge : s.cfg.half ≤ s.opb) :
    execGenkey s = .next (afterError .operand 5 s) := by
  rw [execGenkey, hg]
  exact (if_neg hle.not_gt).trans (if_pos hlarge)

theorem execGenkey_of_goodRange (hg : s.genkey = none) (hle : s.opa ≤ s.opb) (hhalf : s.opb < s.cfg.half) :
    execGenkey s = keyStep s.opa s.opb afterFirstDraw s := by
  rw [execGenkey, hg]
  exact (if_neg hle.not_gt).trans (if_neg hhalf.not_ge)

theorem execGenkey_of_phaseP (hg : s.genkey = some .p) : execGenkey s = keyStep s.opa s.opb afterFirstDraw s := by
  rw [execGenkey, hg]
  rfl

theorem execGenkey_of_phaseQ {p : Nat} (hg : s.genkey = some (.q p)) :
    execGenkey s = keyStep s.opa s.opb (afterSecondDraw p) s := by
  rw [execGenkey, hg]
  rfl

theorem execGenkey_of_phaseE {p q phi : Nat} (hg : s.genkey = some (.e p q phi)) :
    execGenkey s = keyStep 2 (phi - 1) (afterExponentDraw p q phi) s := by
  rw [execGenkey, hg]

end

/-- Settles O51: the checks of the first step in their order, before any draw. -/
theorem genkeyChecksItsRange : Obligations.GenkeyChecksItsRange :=
  ⟨decode_encode .genkey, fun _ hg => ⟨execGenkey_of_emptyRange hg, execGenkey_of_largeRange hg⟩⟩

/-! ### What a phase does with the value drawn -/

section
variable {p q v phi : Nat} {u : State}

theorem afterFirstDraw_of_prime (hv : v.Prime) : afterFirstDraw v u = { u with genkey := some (.q v) } :=
  if_pos ((isPrime_iff_prime v).2 hv)

theorem afterFirstDraw_of_not_prime (hv : ¬ v.Prime) : afterFirstDraw v u = { u with genkey := some .p } :=
  if_neg (mt (isPrime_iff_prime v).1 hv)

theorem afterSecondDraw_of_rejected (hv : ¬ v.Prime ∨ v = p) : afterSecondDraw p v u = u :=
  if_neg fun ⟨hprime, hne⟩ => hv.elim (absurd ((isPrime_iff_prime v).1 hprime)) hne

theorem afterSecondDraw_of_prime (hv : v.Prime) (hne : v ≠ p) : afterSecondDraw p v u = choosePublicExponent p v u :=
  if_pos ⟨(isPrime_iff_prime v).2 hv, hne⟩

theorem choosePublicExponent_of_coprime (hg : Nat.gcd u.efix ((p - 1) * (q - 1)) = 1) :
    choosePublicExponent p q u = finishKey u.efix (p * q) ((p - 1) * (q - 1)) u := if_pos hg

theorem choosePublicExponent_of_small (hg : Nat.gcd u.efix ((p - 1) * (q - 1)) ≠ 1) (hsmall : (p - 1) * (q - 1) < 3) :
    choosePublicExponent p q u = afterError .keygen 0 u := (if_neg hg).trans (if_pos hsmall)

theorem choosePublicExponent_of_large (hg : Nat.gcd u.efix ((p - 1) * (q - 1)) ≠ 1) (hlarge : 3 ≤ (p - 1) * (q - 1)) :
    choosePublicExponent p q u = { u with genkey := some (.e p q ((p - 1) * (q - 1))) } :=
  (if_neg hg).trans (if_neg hlarge.not_gt)

theorem afterExponentDraw_of_coprime (hg : Nat.gcd v phi = 1) :
    afterExponentDraw p q phi v u = finishKey v (p * q) phi u := if_pos hg

theorem afterExponentDraw_of_not_coprime (hg : Nat.gcd v phi ≠ 1) : afterExponentDraw p q phi v u = u := if_neg hg

/-- R137, R172: the secret exponent of a finished key inverts the public one. -/
theorem finishKey_of_coprime {e n : Nat} (hphi : 0 < phi) (hg : Nat.gcd e phi = 1) :
    ∃ d, InverseMod e phi d ∧ finishKey e n phi u = afterSuccess e d n u :=
  ⟨modInverse e phi, inverseMod_modInverse hphi hg, rfl⟩

end

theorem totient_pos {p q : Nat} (hp : p.Prime) (hq : q.Prime) : 0 < (p - 1) * (q - 1) :=
  Nat.mul_pos (Nat.sub_pos_of_lt hp.one_lt) (Nat.sub_pos_of_lt hq.one_lt)

/-! ### One step that draws -/

theorem keyStep_of_drawGives {s t : State} {lo hi v : Nat} (accept : Nat → State → State) (h : DrawGives s lo hi v t) :
    keyStep lo hi accept s = .next (accept v t) := keyStep_of_drew (draw_of_drawGives h)

theorem efix_of_drawGives {s t : State} {lo hi v : Nat} (h : DrawGives s lo hi v t) : t.efix = s.efix := by
  obtain ⟨_, _, _, _, rfl⟩ := usesUp_of_drew (draw_of_drawGives h)
  rfl

/-- Settles O53: the first step, past its checks, draws as phase `P` does. -/
theorem genkeyFirstPrime : Obligations.GenkeyFirstPrime := by
  intro s t v hphase h
  have hstep : execGenkey s = .next (afterFirstDraw v t) := by
    rw [← keyStep_of_drawGives afterFirstDraw h]
    rcases hphase with ⟨hg, hhalf⟩ | hg
    · have ⟨hlo, hhi, _⟩ := h
      exact execGenkey_of_goodRange hg (hlo.trans hhi) hhalf
    · exact execGenkey_of_phaseP hg
  exact ⟨fun hv => hstep.trans (congrArg _ (afterFirstDraw_of_prime hv)),
    fun hv => hstep.trans (congrArg _ (afterFirstDraw_of_not_prime hv))⟩

/-- Settles O54: a second prime leads to the choice of the public exponent, made on the `EFIX` that no draw changes. -/
theorem genkeySecondPrime : Obligations.GenkeySecondPrime := by
  intro s t p v hg hp h
  have hstep : execGenkey s = .next (afterSecondDraw p v t) :=
    (execGenkey_of_phaseQ hg).trans (keyStep_of_drawGives _ h)
  refine ⟨fun hv => hstep.trans (congrArg _ (afterSecondDraw_of_rejected hv)), fun hv hne => ?_⟩
  rw [afterSecondDraw_of_prime hv hne] at hstep
  rw [← efix_of_drawGives h]
  refine ⟨fun hcoprime => ?_, fun hcommon hsmall => ?_, fun hcommon hlarge => ?_⟩
  · obtain ⟨d, hd, hfinish⟩ := finishKey_of_coprime (u := t) (n := p * v) (totient_pos hp hv) hcoprime
    exact ⟨d, hd, hstep.trans (congrArg _ ((choosePublicExponent_of_coprime hcoprime).trans hfinish))⟩
  · exact hstep.trans (congrArg _ (choosePublicExponent_of_small hcommon hsmall))
  · exact hstep.trans (congrArg _ (choosePublicExponent_of_large hcommon hlarge))

/-- Settles O55: a value coprime to `phi` has an inverse, and finishes the key. -/
theorem genkeyPublicExponent : Obligations.GenkeyPublicExponent := by
  intro s t p q phi v hg hphi h
  have hstep : execGenkey s = .next (afterExponentDraw p q phi v t) :=
    (execGenkey_of_phaseE hg).trans (keyStep_of_drawGives _ h)
  refine ⟨fun hcommon => hstep.trans (congrArg _ (afterExponentDraw_of_not_coprime hcommon)), fun hcoprime => ?_⟩
  obtain ⟨d, hd, hfinish⟩ := finishKey_of_coprime (u := t) (n := p * q) (by omega : 0 < phi) hcoprime
  exact ⟨d, hd, hstep.trans (congrArg _ ((afterExponentDraw_of_coprime hcoprime).trans hfinish))⟩

end Sys2Proof.Safety
end
section
/-! SUPPORT. O56, O57: what a success completion of `GENKEY` leaves is an RSA keypair of its range (R175), and every
such keypair has the round-trip law (R171). -/

namespace Sys2Proof.Safety

open Sys2Proof.Machine

/-! ### The keypair that a success leaves -/

/-- R175: the results in `t` are a keypair made of `p` and `q`, primes of the range that the operands of `s` give. -/
structure MadeKey (s t : State) (p q : Nat) : Prop where
  first : PrimeOfRange s p
  second : PrimeOfRange s q
  distinct : p ≠ q
  modulus : t.res2 = p * q
  coprime : Nat.gcd t.res0 ((p - 1) * (q - 1)) = 1
  inverse : InverseMod t.res0 ((p - 1) * (q - 1)) t.res1
  fixed : Nat.gcd s.efix ((p - 1) * (q - 1)) = 1 → t.res0 = s.efix
  drawn : Nat.gcd s.efix ((p - 1) * (q - 1)) ≠ 1 → 2 ≤ t.res0 ∧ t.res0 ≤ (p - 1) * (q - 1) - 1

theorem madeKey_finishKey {s u : State} {p q e : Nat} (hp : PrimeOfRange s p) (hq : PrimeOfRange s q) (hne : p ≠ q)
    (hcoprime : Nat.gcd e ((p - 1) * (q - 1)) = 1) (hfixed : Nat.gcd s.efix ((p - 1) * (q - 1)) = 1 → e = s.efix)
    (hdrawn : Nat.gcd s.efix ((p - 1) * (q - 1)) ≠ 1 → 2 ≤ e ∧ e ≤ (p - 1) * (q - 1) - 1) :
    MadeKey s (finishKey e (p * q) ((p - 1) * (q - 1)) u) p q :=
  ⟨hp, hq, hne, rfl, hcoprime, inverseMod_modInverse (totient_pos hp.1 hq.1) hcoprime, hfixed, hdrawn⟩

/-- R113: the command has ended, and without an error. -/
def Succeeded (t : State) : Prop := t.busy = false ∧ t.errcode = .none

theorem not_succeeded_of_busy {t : State} (hb : t.busy = true) : ¬ Succeeded t := fun ⟨hidle, _⟩ => by
  simp [hb] at hidle

theorem not_succeeded_raiseError (e : CmdError) (u : State) : ¬ Succeeded (raiseError e u) := fun ⟨_, hnone⟩ =>
  errorCode_ne_none e hnone

section
variable {u : State} (hb : u.busy = true)
include hb

theorem not_succeeded_afterFirstDraw (v : Nat) : ¬ Succeeded (afterFirstDraw v u) := by
  unfold afterFirstDraw
  split_ifs
  · exact not_succeeded_of_busy hb
  · exact not_succeeded_of_busy hb

/-- Phase `Q` ends in success only by a second prime, with `EFIX` as the public exponent. -/
theorem afterSecondDraw_succeeded {p v : Nat} (hsucc : Succeeded (afterSecondDraw p v u)) :
    v.Prime ∧ v ≠ p ∧ Nat.gcd u.efix ((p - 1) * (v - 1)) = 1
      ∧ afterSecondDraw p v u = finishKey u.efix (p * v) ((p - 1) * (v - 1)) u := by
  by_cases hsecond : v.Prime ∧ v ≠ p
  · obtain ⟨hv, hne⟩ := hsecond
    rw [afterSecondDraw_of_prime hv hne] at hsucc ⊢
    unfold choosePublicExponent at hsucc ⊢
    split_ifs at hsucc ⊢ with hcoprime hsmall
    · exact ⟨hv, hne, hcoprime, rfl⟩
    · exact absurd hsucc (not_succeeded_raiseError _ _)
    · exact absurd hsucc (not_succeeded_of_busy hb)
  · rw [afterSecondDraw_of_rejected (by tauto)] at hsucc
    exact absurd hsucc (not_succeeded_of_busy hb)

/-- Phase `E` ends in success only by a value coprime to `phi`, which becomes the public exponent. -/
theorem afterExponentDraw_succeeded {p q phi v : Nat} (hsucc : Succeeded (afterExponentDraw p q phi v u)) :
    Nat.gcd v phi = 1 ∧ afterExponentDraw p q phi v u = finishKey v (p * q) phi u := by
  by_cases hcoprime : Nat.gcd v phi = 1
  · exact ⟨hcoprime, afterExponentDraw_of_coprime hcoprime⟩
  · rw [afterExponentDraw_of_not_coprime hcoprime] at hsucc
    exact absurd hsucc (not_succeeded_of_busy hb)

end

/-- A drawing loop ends in success only by what it does with a value drawn. -/
theorem keyStep_succeeded {s t : State} {lo hi : Nat} {accept : Nat → State → State} (hb : s.busy = true)
    (hle : lo ≤ hi) (h : keyStep lo hi accept s = .next t) (hsucc : Succeeded t) :
    ∃ v u, DrawGives s lo hi v u ∧ u.busy = true ∧ t = accept v u := by
  unfold keyStep at h
  split at h
  next v u hd =>
    cases h
    obtain ⟨_, _, _, _, rfl⟩ := usesUp_of_drew hd
    exact ⟨v, _, drawGives_of_drew hle hd, hb, rfl⟩
  next u hd =>
    cases h
    rcases stopped_cases hd with ⟨e, rfl⟩ | rfl
    · exact absurd hsucc (not_succeeded_raiseError e s)
    · exact absurd hsucc (not_succeeded_of_busy hb)
  next => cases h

/-- R175: by the phase in which the step begins; the first phase cannot end the command in success. -/
theorem exists_madeKey {s t : State} (hinv : Inv s) (hb : s.busy = true) (h : execGenkey s = .next t)
    (hsucc : Succeeded t) : ∃ p q, MadeKey s t p q := by
  have hphase := (phaseConsistent_iff s).1 hinv.phase
  have hfirst (hle : s.opa ≤ s.opb) (hstep : execGenkey s = keyStep s.opa s.opb afterFirstDraw s) : False := by
    obtain ⟨v, u, -, hbusy, rfl⟩ := keyStep_succeeded hb hle (hstep ▸ h) hsucc
    exact not_succeeded_afterFirstDraw hbusy v hsucc
  cases hg : s.genkey with
  | none =>
    rcases lt_or_ge s.opb s.opa with hempty | hle
    · cases h.symm.trans (execGenkey_of_emptyRange hg hempty)
      exact absurd hsucc (not_succeeded_raiseError (.operand .emptyRange) s)
    rcases le_or_gt s.cfg.half s.opb with hlarge | hhalf
    · cases h.symm.trans (execGenkey_of_largeRange hg hle hlarge)
      exact absurd hsucc (not_succeeded_raiseError (.operand .rangeTooLarge) s)
    exact (hfirst hle (execGenkey_of_goodRange hg hle hhalf)).elim
  | some phase =>
    obtain ⟨-, -, hle, -, hholds⟩ := hphase phase hg
    cases phase with
    | p => exact (hfirst hle (execGenkey_of_phaseP hg)).elim
    | q p =>
      obtain ⟨v, u, hgives, hbusy, rfl⟩ := keyStep_succeeded hb hle ((execGenkey_of_phaseQ hg).symm.trans h) hsucc
      obtain ⟨hv, hne, hcoprime, hfinish⟩ := afterSecondDraw_succeeded hbusy hsucc
      have ⟨hlo, hhi, _⟩ := hgives
      rw [efix_of_drawGives hgives] at hcoprime hfinish
      rw [hfinish]
      exact ⟨p, v, madeKey_finishKey hholds ⟨hv, hlo, hhi⟩ hne.symm hcoprime (fun _ => rfl) (absurd hcoprime)⟩
    | e p q phi =>
      obtain ⟨hp, hq, hne, rfl, hphi, hefix⟩ := hholds
      obtain ⟨v, u, ⟨hlo, hhi, _⟩, hbusy, rfl⟩ :=
        keyStep_succeeded hb (by omega) ((execGenkey_of_phaseE hg).symm.trans h) hsucc
      obtain ⟨hcoprime, hfinish⟩ := afterExponentDraw_succeeded hbusy hsucc
      rw [hfinish]
      exact ⟨p, q, madeKey_finishKey hp hq hne hcoprime (fun hg => absurd hg hefix) fun _ => ⟨hlo, hhi⟩⟩

/-- Settles O56, by the keypair found. -/
theorem genkeySuccessIsAKeypair : Obligations.GenkeySuccessIsAKeypair := by
  intro s t hinv hb _ h hidle hnone
  obtain ⟨p, q, hkey⟩ := exists_madeKey hinv hb h ⟨hidle, hnone⟩
  exact ⟨p, q, _, hkey.first, hkey.second, hkey.distinct, hkey.modulus, rfl, hkey.coprime, hkey.inverse, hkey.fixed,
    hkey.drawn⟩

/-! ### The round-trip law -/

/-- Fermat's little theorem for all bases: a positive exponent that is 1 modulo `p - 1` changes nothing modulo `p`. -/
theorem pow_modEq_self {p k : Nat} (hp : p.Prime) (hpos : 0 < k) (hk : k ≡ 1 [MOD p - 1]) (m : Nat) :
    m ^ k ≡ m [MOD p] := by
  by_cases hdvd : p ∣ m
  · exact (Nat.modEq_zero_iff_dvd.2 (hdvd.pow hpos.ne')).trans (Nat.modEq_zero_iff_dvd.2 hdvd).symm
  · obtain ⟨j, hj⟩ := (Nat.modEq_iff_dvd' hpos).1 hk.symm
    have hfermat : m ^ (p - 1) ≡ 1 [MOD p] := by
      rw [← Nat.totient_prime hp]
      exact Nat.ModEq.pow_totient ((hp.coprime_iff_not_dvd.2 hdvd).symm)
    calc m ^ k = (m ^ (p - 1)) ^ j * m := by rw [← pow_mul, ← hj, ← pow_succ, Nat.sub_add_cancel hpos]
      _ ≡ 1 ^ j * m [MOD p] := (hfermat.pow j).mul_right m
      _ = m := by rw [one_pow, one_mul]

/-- Modulo two different primes, and so modulo their product. -/
theorem pow_modEq_self_mul {p q k : Nat} (hp : p.Prime) (hq : q.Prime) (hne : p ≠ q) (hpos : 0 < k)
    (hk : k ≡ 1 [MOD (p - 1) * (q - 1)]) (m : Nat) : m ^ k ≡ m [MOD p * q] :=
  (Nat.modEq_and_modEq_iff_modEq_mul ((Nat.coprime_primes hp hq).2 hne)).1
    ⟨pow_modEq_self hp hpos hk.of_mul_right m, pow_modEq_self hq hpos hk.of_mul_left m⟩

/-- Two different primes are not both 2, so that an inverse modulo their totient leaves no exponent 0. -/
theorem one_lt_totient {p q : Nat} (hp : p.Prime) (hq : q.Prime) (hne : p ≠ q) : 1 < (p - 1) * (q - 1) := by
  have hptwo := hp.two_le
  have hqtwo := hq.two_le
  exact Nat.one_lt_mul_iff.2 ⟨by omega, by omega, by omega⟩

theorem MadeKey.roundTrip {s t : State} {p q m : Nat} (h : MadeKey s t p q) (hm : m < t.res2) :
    (m ^ t.res0 % t.res2) ^ t.res1 % t.res2 = m := by
  obtain ⟨-, hinverse⟩ := h.inverse
  have hp := h.first.1
  have hq := h.second.1
  have hpos : 0 < t.res0 * t.res1 := Nat.pos_of_ne_zero fun hzero => by
    rw [hzero, Nat.zero_mod, Nat.mod_eq_of_lt (one_lt_totient hp hq h.distinct)] at hinverse
    exact zero_ne_one hinverse
  calc (m ^ t.res0 % t.res2) ^ t.res1 % t.res2
      = m ^ (t.res0 * t.res1) % t.res2 := by rw [← Nat.pow_mod, ← pow_mul]
    _ = m % t.res2 := by
      rw [h.modulus]
      exact pow_modEq_self_mul hp hq h.distinct hpos hinverse m
    _ = m := Nat.mod_eq_of_lt hm

/-- Settles O57: the law holds of the keypair that the success has made. -/
theorem keypairRoundTrip : Obligations.KeypairRoundTrip := by
  rintro e d n m ⟨s, t, hinv, hb, -, h, hidle, hnone, rfl, rfl, rfl⟩ hm
  obtain ⟨p, q, hkey⟩ := exists_madeKey hinv hb h ⟨hidle, hnone⟩
  exact hkey.roundTrip hm

end Sys2Proof.Safety
end
section
/-! SUPPORT. O58 to O60: one engine step of `ENCRYPT` and of `DECRYPT`, branch by branch (R178, R179, R180), and the one
after the other (R181). -/

namespace Sys2Proof.Safety

open Sys2Proof.Machine

/-! ### The checks that both commands make, in their order -/

/-- The outcome `o`, once the modulus is known not to be 0 and the count to be at most `BUFDEPTH` (R178, R180). -/
def ifPrefixFitsBuf (s : State) (o : Host.Outcome State Fault Refusal) : Host.Outcome State Fault Refusal :=
  if operandC s = 0 then .next (raiseError (.operand .zeroModulus) s)
  else if operandA s > s.cfg.bufDepth then .next (raiseError (.operand .countTooLarge) s)
  else o

section
variable {s : State} {o : Host.Outcome State Fault Refusal}

theorem ifPrefixFitsBuf_of_zero (hzero : s.opc = 0) : ifPrefixFitsBuf s o = .next (afterError .operand 2 s) :=
  if_pos hzero

theorem ifPrefixFitsBuf_of_gt (hzero : s.opc ≠ 0) (hlarge : s.opa > s.cfg.bufDepth) :
    ifPrefixFitsBuf s o = .next (afterError .operand 3 s) := (if_neg hzero).trans (if_pos hlarge)

theorem ifPrefixFitsBuf_of_le (hzero : s.opc ≠ 0) (hfits : s.opa ≤ s.cfg.bufDepth) : ifPrefixFitsBuf s o = o :=
  (if_neg hzero).trans (if_neg hfits.not_gt)

end

/-! ### Reading the message words, and the transform pass -/

theorem afterReading_eq (written : Bool) (s : State) :
    afterReading written s = { s with freeCount := (afterReading written s).freeCount } := by cases written <;> rfl

/-- R41: where every word read has been written, no free value is used. -/
theorem afterReading_of_written {s : State} {count : Nat} (hw : ∀ i, i < count → bufAt s.buf i ≠ none) :
    afterReading (prefixWritten s count) s = s := by
  rw [(prefixWritten_iff s count).2 hw, afterReading_true]

/-- The transform pass of both commands, with their success completion (R179, R180). -/
def transformed (s : State) : State :=
  completeWriting s.opa 0 0 ((bufPrefix s s.opa).map (fun m => modPow m s.opb s.opc))
    (afterReading (prefixWritten s s.opa) s)

@[simp] theorem transformed_opa (s : State) : (transformed s).opa = s.opa := by simp [transformed]
@[simp] theorem transformed_opc (s : State) : (transformed s).opc = s.opc := by simp [transformed]
@[simp] theorem transformed_cfg (s : State) : (transformed s).cfg = s.cfg := by simp [transformed]
@[simp] theorem transformed_errcode (s : State) : (transformed s).errcode = s.errcode := by simp [transformed]

theorem transformed_buf (s : State) :
    (transformed s).buf = bufPutFrom s.buf 0 ((bufPrefix s s.opa).map (fun m => modPow m s.opb s.opc)) := by
  rw [transformed, completeWriting_buf, afterReading_buf]

theorem transformed_eq (s : State) :
    transformed s = { afterSuccess s.opa 0 0 s with
      buf := (transformed s).buf, freeCount := (afterReading (prefixWritten s s.opa) s).freeCount } := by
  rw [transformed, afterReading_eq]
  rfl

section
variable {s : State} {i : Nat}

theorem bufAt_transformed_of_lt (hzero : s.opc ≠ 0) (hi : i < s.opa) :
    bufAt (transformed s).buf i = some (bufRead s i ^ s.opb % s.opc) := by
  rw [transformed_buf, bufAt_bufPutFrom_zero_of_lt (by rwa [List.length_map, length_bufPrefix]), List.getElem_map,
    getElem_bufPrefix, modPow_eq _ _ (Nat.pos_of_ne_zero hzero)]

theorem bufAt_transformed_of_ge (hi : s.opa ≤ i) : bufAt (transformed s).buf i = bufAt s.buf i := by
  rw [transformed_buf, bufAt_bufPutFrom_zero_of_ge (by rwa [List.length_map, length_bufPrefix])]

/-- R179, R180: the success completion, the words written and the words left alone. -/
theorem transformed_spec (hzero : s.opc ≠ 0) :
    ∃ m k, transformed s = { afterSuccess s.opa 0 0 s with buf := m, freeCount := k }
      ∧ (∀ i, i < s.opa → bufAt m i = some (bufRead s i ^ s.opb % s.opc))
      ∧ (∀ i, s.opa ≤ i → bufAt m i = bufAt s.buf i)
      ∧ ((∀ j, j < s.opa → bufAt s.buf j ≠ none) → k = s.freeCount) :=
  ⟨_, _, transformed_eq s, fun _ => bufAt_transformed_of_lt hzero, fun _ => bufAt_transformed_of_ge,
    fun hw => congrArg State.freeCount (afterReading_of_written hw)⟩

end

/-! ### `ENCRYPT` -/

/-- R178: the check pass of `ENCRYPT` over the message, then the transform pass. -/
def checkedTransform (s : State) : Host.Outcome State Fault Refusal :=
  match firstTooLarge (bufPrefix s (operandA s)) (operandC s) with
  | some i => .next (raiseError (.msgTooLarge i) (afterReading (prefixWritten s (operandA s)) s))
  | none => .next (transformed s)

theorem exec_encrypt (s : State) : exec .encrypt s = ifPrefixFitsBuf s (checkedTransform s) := rfl

section
variable {s : State}

theorem checkedTransform_of_first {i : Nat} (hi : i < s.opa) (hlarge : s.opc ≤ bufRead s i)
    (hbelow : ∀ j, j < i → bufRead s j < s.opc) :
    checkedTransform s = .next { afterError .msgTooLarge i s with
      freeCount := (afterReading (prefixWritten s s.opa) s).freeCount } := by
  have hfirst := (firstTooLarge_eq_some_iff s s.opa i s.opc).2 ⟨hi, hlarge, hbelow⟩
  simp only [checkedTransform, operandA_eq, operandC_eq, hfirst]
  rw [afterReading_eq]
  rfl

theorem checkedTransform_of_below (hbelow : ∀ i, i < s.opa → bufRead s i < s.opc) :
    checkedTransform s = .next (transformed s) := by
  have hnone := (firstTooLarge_eq_none_iff s s.opa s.opc).2 hbelow
  simp only [checkedTransform, operandA_eq, operandC_eq, hnone]

end

/-- Settles O58: past both operand checks, the check pass stops at the first word that is not below the modulus, or the
transform pass is made. -/
theorem encryptMapsThePrefix : Obligations.EncryptMapsThePrefix := by
  refine ⟨decode_encode .encrypt, fun s =>
    ⟨ifPrefixFitsBuf_of_zero, ifPrefixFitsBuf_of_gt, fun i hzero hfits hi hlarge hbelow => ?_,
      fun hzero hfits hbelow => ?_⟩⟩
  · refine ⟨_, ?_, fun hw => congrArg State.freeCount (afterReading_of_written hw)⟩
    rw [exec_encrypt, ifPrefixFitsBuf_of_le hzero hfits, checkedTransform_of_first hi hlarge hbelow]
  · rw [exec_encrypt, ifPrefixFitsBuf_of_le hzero hfits, checkedTransform_of_below hbelow]
    obtain ⟨m, k, heq, hspec⟩ := transformed_spec hzero
    exact ⟨m, k, congrArg _ heq, hspec⟩

/-- Only past all three checks does `ENCRYPT` end without an error. -/
theorem encrypt_succeeded {s t : State} (h : exec .encrypt s = .next t) (hnone : t.errcode = .none) :
    s.opc ≠ 0 ∧ s.opa ≤ s.cfg.bufDepth ∧ (∀ i, i < s.opa → bufRead s i < s.opc) ∧ t = transformed s := by
  have hfails {e : CmdError} {u : State} (h : .next (raiseError e u) = (.next t : Host.Outcome State Fault Refusal)) :
      False := by
    cases h
    exact errorCode_ne_none e hnone
  rw [exec_encrypt] at h
  unfold ifPrefixFitsBuf at h
  split_ifs at h with hzero hlarge
  · exact (hfails h).elim
  · exact (hfails h).elim
  · unfold checkedTransform at h
    split at h
    next => exact (hfails h).elim
    next hbelow =>
      cases h
      exact ⟨hzero, not_lt.1 hlarge, (firstTooLarge_eq_none_iff s s.opa s.opc).1 hbelow, rfl⟩

/-! ### `DECRYPT` -/

theorem exec_decrypt (s : State) : exec .decrypt s = ifPrefixFitsBuf s (.next (transformed s)) := rfl

/-- Settles O59: past both operand checks, the transform pass is made. -/
theorem decryptMapsThePrefix : Obligations.DecryptMapsThePrefix := by
  refine ⟨decode_encode .decrypt, fun s =>
    ⟨ifPrefixFitsBuf_of_zero, ifPrefixFitsBuf_of_gt, fun hzero hfits => ?_⟩⟩
  rw [exec_decrypt, ifPrefixFitsBuf_of_le hzero hfits]
  obtain ⟨m, k, heq, hspec⟩ := transformed_spec hzero
  exact ⟨m, k, congrArg _ heq, hspec⟩

/-- R181: a word of the message is below the modulus, so that the law of the keypair restores it; no other word is
written. -/
theorem bufAt_transformed_twice {s : State} {d : Nat} (hkey : KeyFromGenkey s.opb d s.opc) (hzero : s.opc ≠ 0)
    (hbelow : ∀ i, i < s.opa → bufRead s i < s.opc) (hwritten : ∀ i, i < s.opa → bufAt s.buf i ≠ none) (i : Nat) :
    bufAt (transformed { transformed s with opb := d }).buf i = bufAt s.buf i := by
  rcases lt_or_ge i s.opa with hi | hi
  · have hcipher : bufRead { transformed s with opb := d } i = bufRead s i ^ s.opb % s.opc :=
      bufRead_of_written (bufAt_transformed_of_lt hzero hi)
    obtain ⟨w, hw⟩ := Option.ne_none_iff_exists'.1 (hwritten i hi)
    calc bufAt (transformed { transformed s with opb := d }).buf i
        = some (bufRead { transformed s with opb := d } i ^ d % (transformed s).opc) :=
          bufAt_transformed_of_lt (by simpa using hzero) (by simpa using hi)
      _ = some ((bufRead s i ^ s.opb % s.opc) ^ d % s.opc) := by rw [hcipher, transformed_opc]
      _ = some (bufRead s i) := by rw [keypairRoundTrip _ _ _ _ hkey (hbelow i hi)]
      _ = bufAt s.buf i := by rw [bufRead_of_written hw, hw]
  · calc bufAt (transformed { transformed s with opb := d }).buf i
        = bufAt (transformed s).buf i := bufAt_transformed_of_ge (by simpa using hi)
      _ = bufAt s.buf i := bufAt_transformed_of_ge hi

/-- Settles O60: after an `ENCRYPT` that has passed its checks, `DECRYPT` passes its own on the same count and
modulus. -/
theorem decryptRestoresTheMessage : Obligations.DecryptRestoresTheMessage := by
  rintro e d n s t u hkey rfl rfl hnone hwritten henc ht hdec
  obtain ⟨hzero, hfits, hbelow, rfl⟩ := encrypt_succeeded henc ht
  rw [exec_decrypt, ifPrefixFitsBuf_of_le (by simpa using hzero) (by simpa using hfits)] at hdec
  cases hdec
  exact ⟨by simpa using hnone, bufAt_transformed_twice hkey hzero hbelow hwritten⟩

end Sys2Proof.Safety
end
section
/-! SUPPORT. O28: the interrupt output as a level: which steps keep the enable bit, and what each host write leaves of
the two bits. -/

namespace Sys2Proof.Safety

open Sys2Proof.Machine

/-! ### The enable bit -/

/-- R36: `IE` changes only by a write to `CTRL` and by reset. -/
theorem ie_of_step {s t : State} (hstep : step s = .next t) (hctrl : ¬ HostWrites s .ctrl) (hrst : ¬ ResetNext s) :
    t.ie = s.ie := by
  cases stepCase_of_step hstep with
  | ctrlWrite v rest hs => exact absurd ⟨v, rest, hs⟩ hctrl
  | reset rest hs => exact absurd ⟨rest, hs⟩ hrst
  | _ => rfl

/-! ### The level -/

theorem irq_iff (s : State) : irq s = true ↔ s.done = true ∧ s.ie = true := Bool.and_eq_true_iff

theorem irq_of_done {s : State} (hdone : s.done = true) : irq s = s.ie := by simp [irq, hdone]

/-- R113, R114: both completions set `DONE`, and the engine does not touch `IE`. -/
theorem irq_of_ending {s t : State} (hb : s.busy = true) (hstep : step s = .next t) (hidle : t.busy = false)
    (hrst : ¬ ResetNext s) : irq t = s.ie := by
  obtain ⟨-, hends⟩ := busy_of_step hstep
  rcases hends hb hidle with hreset | ⟨hdone, -, -, hturn⟩
  · exact absurd hreset hrst
  · calc irq t = t.ie := irq_of_done hdone
      _ = s.ie := ie_of_step hstep (hturn.noInput.not_hostWrites .ctrl) hrst

section
variable (s : State) (v : Nat)

@[simp] theorem irq_acknowledge : irq (acknowledge v s) = (s.done && !v.testBit 1 && s.ie) := rfl

@[simp] theorem irq_startCommand : irq (startCommand v s) = false := rfl

@[simp] theorem irq_writeCtrl : irq (writeCtrl v s) = (s.done && v.testBit 0) := rfl

variable {s}

/-- R207, R208: bit 1 of `STATUS` written 1 acknowledges the interrupt. -/
theorem irq_write_status (hc : s.cfg.wellFormed = true) (hv : v.testBit 1 = true) :
    irq (busTransaction s (.write (regAddr .status) v)) = false := by
  rw [write_reg, regWrite, irq_acknowledge, testBit_lines_of_wellFormed hc (by norm_num), hv]
  simp

/-- R110: an accepted write to `CMD` clears `DONE`. -/
theorem irq_write_cmd (hb : s.busy = false) : irq (busTransaction s (.write (regAddr .cmd) v)) = false := by
  simp [write_reg, regWrite, unlessBusy, hb]

/-- R36, R208: a write to `CTRL` lets `DONE` through as far as its bit 0 says. -/
theorem irq_write_ctrl (hc : s.cfg.wellFormed = true) :
    irq (busTransaction s (.write (regAddr .ctrl) v)) = (s.done && v.testBit 0) := by
  rw [write_reg, regWrite, irq_writeCtrl, testBit_lines_of_wellFormed hc (by norm_num)]

end

/-- Settles O28: the level, the step that ends a command, and the three host writes that move one of the two bits. -/
theorem interruptFollowsDoneAndEnable : Obligations.InterruptFollowsDoneAndEnable :=
  ⟨irq_iff, fun _ _ => irq_of_ending, fun s v hc =>
    ⟨irq_write_status v hc, irq_write_cmd v,
      fun hoff => (irq_write_ctrl v hc).trans (by simp [hoff]),
      fun hon => (irq_write_ctrl v hc).trans (by simp [hon])⟩⟩

end Sys2Proof.Safety
end
section
/-! SUPPORT. O32: the errors of each command, a row of the table of R202 for each. A check that several commands make,
the draw among them, is said once. -/

namespace Sys2Proof.Safety

open Sys2Proof.Machine

/-! ### Outcomes whose errors are of one row -/

/-- The outcome of an engine step from `s` brings up no error but those whose code and `ERRINFO` the row admits. -/
inductive FailsWithin (row : ErrCode → Nat → Prop) (s : State) : Host.Outcome State Fault Refusal → Prop where
  | quiet (t : State) (h : t.errcode = s.errcode) : FailsWithin row s (.next t)
  | error (e : CmdError) (u : State) (h : row (errorCode e) (errorInfo e)) : FailsWithin row s (.next (raiseError e u))
  | refused (r : Refusal) : FailsWithin row s (.refused r)

section
variable {row : ErrCode → Nat → Prop} {s : State} {o : Host.Outcome State Fault Refusal}

theorem FailsWithin.admits {t : State} (h : FailsWithin row s o) (hnone : s.errcode = .none) (ho : o = .next t)
    (herr : t.errcode ≠ .none) : row t.errcode t.errinfo := by
  subst ho
  cases h with
  | quiet _ hkept => exact absurd (hkept.trans hnone) herr
  | error e u hrow => exact hrow

/-! ### The checks that several commands make -/

theorem failsWithin_ifModulusPrime (hrow : row .notPrime 0) (ho : FailsWithin row s o) :
    FailsWithin row s (ifModulusPrime s o) := by
  unfold ifModulusPrime
  split_ifs
  · exact .error .notPrime s hrow
  · exact ho

theorem failsWithin_ifModulusFitsBuf (hrow : row .operand 4) (ho : FailsWithin row s o) :
    FailsWithin row s (ifModulusFitsBuf s o) := by
  unfold ifModulusFitsBuf
  split_ifs
  · exact .error (.operand .modulusTooLarge) s hrow
  · exact ho

theorem failsWithin_ifPrefixFitsBuf (hzero : row .operand 2) (hcount : row .operand 3) (ho : FailsWithin row s o) :
    FailsWithin row s (ifPrefixFitsBuf s o) := by
  unfold ifPrefixFitsBuf
  split_ifs
  · exact .error (.operand .zeroModulus) s hzero
  · exact .error (.operand .countTooLarge) s hcount
  · exact ho

/-- R117: before a draw the check raises the abort or the timeout, and no other error. -/
theorem failsWithin_keyStep {lo hi : Nat} {accept : Nat → State → State} (haborted : row .aborted 0)
    (htimeout : row .timeout 0)
    (haccept : ∀ v u, u.errcode = s.errcode → FailsWithin row s (.next (accept v u))) :
    FailsWithin row s (keyStep lo hi accept s) := by
  unfold keyStep
  rcases draw_cases lo hi s with
    ⟨-, -, h⟩ | ⟨-, -, -, -, h⟩ | ⟨-, ⟨-, h⟩ | ⟨-, h⟩ | ⟨v, rest, -, ⟨-, -, h⟩ | ⟨-, h⟩⟩⟩ <;> rw [h]
  · exact .error .aborted s haborted
  · exact .error .timeout s htimeout
  · exact haccept _ _ rfl
  · exact .quiet _ rfl
  · exact haccept _ _ rfl
  · exact .refused _

/-! ### What the draws of `GENPRIME` and `GENKEY` lead to -/

theorem failsWithin_acceptPrime (v : Nat) {u : State} (hu : u.errcode = s.errcode) :
    FailsWithin row s (.next (acceptPrime v u)) := by
  unfold acceptPrime
  split_ifs
  · exact .quiet _ hu
  · exact .quiet _ hu

theorem failsWithin_afterFirstDraw (v : Nat) {u : State} (hu : u.errcode = s.errcode) :
    FailsWithin row s (.next (afterFirstDraw v u)) := by
  unfold afterFirstDraw
  split_ifs
  · exact .quiet _ hu
  · exact .quiet _ hu

/-- R174: no key is the one error that comes after the draws. -/
theorem failsWithin_afterSecondDraw (hkeygen : row .keygen 0) (p v : Nat) {u : State} (hu : u.errcode = s.errcode) :
    FailsWithin row s (.next (afterSecondDraw p v u)) := by
  unfold afterSecondDraw choosePublicExponent
  split_ifs
  · exact .quiet _ hu
  · exact .error .keygen u hkeygen
  · exact .quiet _ hu
  · exact .quiet _ hu

theorem failsWithin_afterExponentDraw (p q phi v : Nat) {u : State} (hu : u.errcode = s.errcode) :
    FailsWithin row s (.next (afterExponentDraw p q phi v u)) := by
  unfold afterExponentDraw
  split_ifs
  · exact .quiet _ hu
  · exact .quiet _ hu

/-- R172, R174: the two checks of the first step, the check before every draw, and no key. -/
theorem failsWithin_execGenkey (hempty : row .operand 1) (hlarge : row .operand 5) (haborted : row .aborted 0)
    (htimeout : row .timeout 0) (hkeygen : row .keygen 0) : FailsWithin row s (execGenkey s) := by
  unfold execGenkey
  split
  · split_ifs
    · exact .error (.operand .emptyRange) s hempty
    · exact .error (.operand .rangeTooLarge) s hlarge
    · exact failsWithin_keyStep haborted htimeout fun v _ => failsWithin_afterFirstDraw v
  · exact failsWithin_keyStep haborted htimeout fun v _ => failsWithin_afterFirstDraw v
  · exact failsWithin_keyStep haborted htimeout fun v _ => failsWithin_afterSecondDraw hkeygen _ v
  · exact failsWithin_keyStep haborted htimeout fun v _ => failsWithin_afterExponentDraw _ _ _ v

end

/-! ### The rows -/

section
variable (s : State)

/-- R131: primality is defined for every word. -/
theorem failsWithin_isprime : FailsWithin (fun _ _ => False) s (exec .isprime s) := .quiet _ rfl

theorem failsWithin_genprime :
    FailsWithin (fun code info => code = .timeout ∨ code = .aborted ∨ (code = .operand ∧ info = 1)) s
      (exec .genprime s) := by
  rw [exec, execGenprime_eq_keyStep]
  split_ifs
  · exact .error (.operand .emptyRange) s (.inr (.inr ⟨rfl, rfl⟩))
  · exact failsWithin_keyStep (.inr (.inl rfl)) (.inl rfl) fun v _ => failsWithin_acceptPrime v

theorem failsWithin_modpow : FailsWithin (fun code info => code = .operand ∧ info = 2) s (exec .modpow s) := by
  rw [exec, execModpow]
  split_ifs
  · exact .error (.operand .zeroModulus) s ⟨rfl, rfl⟩
  · exact .quiet _ rfl

theorem failsWithin_modinv :
    FailsWithin (fun code info => code = .noInverse ∨ (code = .operand ∧ info = 2)) s (exec .modinv s) := by
  rw [exec, execModinv]
  split_ifs
  · exact .error (.operand .zeroModulus) s (.inr ⟨rfl, rfl⟩)
  · exact .error (.noInverse _) s (.inl rfl)
  · exact .quiet _ rfl

theorem failsWithin_isproot : FailsWithin (fun code _ => code = .notPrime) s (exec .isproot s) := by
  rw [exec_isproot]
  exact failsWithin_ifModulusPrime rfl (.quiet _ rfl)

theorem failsWithin_findroots :
    FailsWithin (fun code info => code = .notPrime ∨ (code = .operand ∧ info = 4)) s (exec .findroots s) := by
  rw [exec_findroots]
  exact failsWithin_ifModulusPrime (.inl rfl) (failsWithin_ifModulusFitsBuf (.inr ⟨rfl, rfl⟩) (.quiet _ rfl))

theorem failsWithin_trace :
    FailsWithin (fun code info => code = .notPrime ∨ (code = .operand ∧ info = 4)) s (exec .trace s) := by
  rw [exec_trace]
  exact failsWithin_ifModulusPrime (.inl rfl) (failsWithin_ifModulusFitsBuf (.inr ⟨rfl, rfl⟩) (.quiet _ rfl))

theorem failsWithin_genkey :
    FailsWithin (fun code info => code = .timeout ∨ code = .keygen ∨ code = .aborted
      ∨ (code = .operand ∧ (info = 1 ∨ info = 5))) s (exec .genkey s) :=
  failsWithin_execGenkey (.inr (.inr (.inr ⟨rfl, .inl rfl⟩))) (.inr (.inr (.inr ⟨rfl, .inr rfl⟩)))
    (.inr (.inr (.inl rfl))) (.inl rfl) (.inr (.inl rfl))

theorem failsWithin_encrypt :
    FailsWithin (fun code info => code = .msgTooLarge ∨ (code = .operand ∧ (info = 2 ∨ info = 3))) s
      (exec .encrypt s) := by
  rw [exec_encrypt]
  refine failsWithin_ifPrefixFitsBuf (.inr ⟨rfl, .inl rfl⟩) (.inr ⟨rfl, .inr rfl⟩) ?_
  unfold checkedTransform
  split
  · exact .error (.msgTooLarge _) _ (.inl rfl)
  · exact .quiet _ (transformed_errcode s)

theorem failsWithin_decrypt :
    FailsWithin (fun code info => code = .operand ∧ (info = 2 ∨ info = 3)) s (exec .decrypt s) := by
  rw [exec_decrypt]
  exact failsWithin_ifPrefixFitsBuf ⟨rfl, .inl rfl⟩ ⟨rfl, .inr rfl⟩ (.quiet _ (transformed_errcode s))

end

/-- Settles O32, row by row. -/
theorem errorCodesPerCommand : Obligations.ErrorCodesPerCommand := by
  intro i s t hnone h herr
  cases i with
  | isprime => exact (failsWithin_isprime s).admits hnone h herr
  | genprime => exact (failsWithin_genprime s).admits hnone h herr
  | modpow => exact (failsWithin_modpow s).admits hnone h herr
  | modinv => exact (failsWithin_modinv s).admits hnone h herr
  | isproot => exact (failsWithin_isproot s).admits hnone h herr
  | findroots => exact (failsWithin_findroots s).admits hnone h herr
  | trace => exact (failsWithin_trace s).admits hnone h herr
  | genkey => exact (failsWithin_genkey s).admits hnone h herr
  | encrypt => exact (failsWithin_encrypt s).admits hnone h herr
  | decrypt => exact (failsWithin_decrypt s).admits hnone h herr

end Sys2Proof.Safety
end
section
/-! SUPPORT. O24: what a host read finds in a buffer word that nothing has written (R41). -/

namespace Sys2Proof.Safety

open Sys2Proof.Machine

section
variable {s : State} {i : Nat} (hw : bufAt s.buf i = none)
include hw

theorem bufRead_of_unwritten : bufRead s i = unwrittenNow s i := by
  rw [bufRead, hw, Option.getD_none]

/-- R41: the reading uses up the free value it returns, so that the next one is not promised to agree. -/
theorem read_unwrittenBuf (hi : i < s.cfg.bufDepth) (hd : s.cfg.bufDepth ≤ 65280) (hb : s.busy = false) :
    busTransaction s (.read (bufAddr i)) = { s with hRdata := unwrittenNow s i, freeCount := s.freeCount + 1 } := by
  simp [read_buf hi hd, hb, hw, afterReading, bufRead_of_unwritten hw]

end

/-- Settles O24: the free word is the one due now, as many of its bits as the machine has data lines. -/
theorem unwrittenBufferWordReadsFree : Obligations.UnwrittenBufferWordReadsFree := by
  intro s i hc hi hb hw
  obtain ⟨-, -, -, hd, -⟩ := (wellFormed_iff s.cfg).1 hc
  exact ⟨unwrittenNow s i, rfl, lines_lt _ _, read_unwrittenBuf hw hi hd hb⟩

end Sys2Proof.Safety
end
section
/-! SUPPORT. O43: a step with a draw due and a source that breaks its duty: it answers no more (U8), or outside the range
(U7). -/

namespace Sys2Proof.Safety

open Sys2Proof.Machine

/-! ### The draw -/

section
variable {s : State} {lo hi : Nat} (hcheck : s.outstanding = none → NoAbortNoTimeout s)
include hcheck

theorem not_aborts_of_check : ¬ (s.outstanding = none ∧ s.abortreq = true) := fun ⟨ho, habort⟩ => by
  obtain ⟨hquiet, -⟩ := hcheck ho
  simp [hquiet] at habort

theorem not_timesOut_of_check : ¬ (s.outstanding = none ∧ s.retrylim ≠ 0 ∧ s.tries = s.retrylim) :=
  fun ⟨ho, hlim, htries⟩ => by
    obtain ⟨-, hceiling⟩ := hcheck ho
    exact hceiling.elim hlim (absurd htries)

/-- R76, U8: past its check, a draw that the source does not answer leaves the range presented. -/
theorem draw_of_silent (hs : s.source = .scripted []) :
    draw lo hi s = .stopped { s with outstanding := some (lo, hi) } := by
  rw [draw, if_neg (not_aborts_of_check hcheck), if_neg (not_timesOut_of_check hcheck), hs]

/-- U7: past its check, a draw takes no answer from outside the range. -/
theorem draw_of_outside {v : Nat} {rest : List Nat} (hs : s.source = .scripted (v :: rest)) (hv : v < lo ∨ hi < v) :
    draw lo hi s = .outOfRange := by
  have hout : ¬ (lo ≤ v ∧ v ≤ hi) := by omega
  simp only [draw, if_neg (not_aborts_of_check hcheck), if_neg (not_timesOut_of_check hcheck), hs, if_neg hout]

end

theorem keyStep_of_outOfRange {lo hi : Nat} {accept : Nat → State → State} {s : State}
    (hd : draw lo hi s = .outOfRange) : keyStep lo hi accept s = .refused .drawOutOfRange := by
  simp only [keyStep, hd]

/-! ### The step that makes the draw due -/

section
variable {s : State} {lo hi : Nat} (hdue : nextDrawRange s = some (lo, hi))
include hdue

/-- R132: where a draw is due, the step of `GENPRIME` is an iteration of the loop that draws from that range. -/
theorem execGenprime_eq_keyStep_of_due (hc : s.cmd = 0x02) : execGenprime s = keyStep lo hi acceptPrime s := by
  rw [nextDrawRange, if_pos hc] at hdue
  split_ifs at hdue with hle
  cases hdue
  exact execGenprime_of_le hle

variable (hb : s.busy = true) (hs : s.script = [])
include hb hs

/-- R111: with nothing scripted, the step of a machine with a draw due makes that draw. -/
theorem step_eq_keyStep : ∃ accept, step s = keyStep lo hi accept s := by
  rcases cmd_of_nextDrawRange hdue with hc | hc
  · have hdecode : decode s.cmd = .ok .genprime := by rw [hc]; exact decode_encode .genprime
    exact ⟨acceptPrime, (step_of_running hb hs hdecode).trans (execGenprime_eq_keyStep_of_due hdue hc)⟩
  · have hdecode : decode s.cmd = .ok .genkey := by rw [hc]; exact decode_encode .genkey
    obtain ⟨accept, hstep⟩ := execGenkey_eq_keyStep hc hdue
    exact ⟨accept, (step_of_running hb hs hdecode).trans hstep⟩

variable (hcheck : s.outstanding = none → NoAbortNoTimeout s)
include hcheck

theorem step_of_silent (hsource : s.source = .scripted []) :
    step s = .next { s with outstanding := some (lo, hi) } := by
  obtain ⟨accept, hstep⟩ := step_eq_keyStep hdue hb hs
  exact hstep.trans (keyStep_of_stopped (draw_of_silent hcheck hsource))

theorem step_of_outside {v : Nat} {rest : List Nat} (hsource : s.source = .scripted (v :: rest))
    (hv : v < lo ∨ hi < v) : step s = .refused .drawOutOfRange := by
  obtain ⟨accept, hstep⟩ := step_eq_keyStep hdue hb hs
  exact hstep.trans (keyStep_of_outOfRange (draw_of_outside hcheck hsource hv))

end

/-- R76: under the invariant, the request that is presented is the one that the running command makes, so that presenting
it once more changes nothing. -/
theorem Inv.present_again {s : State} (h : Inv s) {lo hi : Nat} (hdue : nextDrawRange s = some (lo, hi))
    (ho : s.outstanding ≠ none) : { s with outstanding := some (lo, hi) } = s := by
  obtain ⟨r, hr⟩ := Option.ne_none_iff_exists'.1 ho
  obtain ⟨-, hrange, -⟩ := h.draws.2 r hr
  rw [← hdue, hrange, ← hr]

/-- Settles O43: a silent source leaves the range presented, and presenting it again changes nothing; an answer outside the
range is refused, and no check is made before a late one. -/
theorem sourceThatBreaksItsDuty : Obligations.SourceThatBreaksItsDuty := by
  intro s lo hi hinv hb hs hdue
  refine ⟨fun hsource => ⟨fun _ hcheck => ?_, fun ho => ?_⟩, fun v rest hcheck => ?_⟩
  · exact step_of_silent hdue hb hs (fun _ => hcheck) hsource
  · calc step s = .next { s with outstanding := some (lo, hi) } :=
          step_of_silent hdue hb hs (fun hnone => absurd hnone ho) hsource
      _ = .next s := by rw [hinv.present_again hdue ho]
  · exact step_of_outside hdue hb hs hcheck

end Sys2Proof.Safety
end
